-- ==== Sys2Proof/Word.lean ====
section
/-! DEFINITION. The data words of the register protocol block: bytes and 25-byte buffers (R8, R11). -/

namespace Sys2Proof

/-- A byte: an 8-bit unsigned value (R8). -/
abbrev Byte := BitVec 8

/-- A buffer of `BUF_LEN` = 25 bytes: the answer buffer, a MemWrite payload, the local buffer (R6, R11). -/
abbrev Buffer := Vector Byte 25

/-- Twenty-five bytes of zero. -/
abbrev Buffer.zero : Buffer := Vector.replicate 25 0

end Sys2Proof
end

