-- ==== Sys2Proof/Config.lean ====
section
/-! DEFINITION. What an implementation fixes and what nobody fixes: the parameters of R6, the transactions of the Bus
Transport (R33), and the free values, each an uninterpreted constant. -/

namespace Sys2Proof

/-- `LEVEL_OVER_POLICY` (R6, R101): what FIFO_RD does with a level above 25. -/
inductive LevelPolicy where
  | fault
  | clamp
  deriving DecidableEq, Repr, Inhabited

/-- The parameters of R6 that are not numerals of the source. The OPEN ones are uninterpreted at reset, the decided
ones are pinned there; the step works for every value (log 1, log 19). -/
structure Params where
  /-- OPEN (D4) -/
  addrCommand   : BitVec 6
  /-- OPEN (D4) -/
  addrFifoData  : BitVec 6
  /-- OPEN (D4) -/
  addrFifoLevel : BitVec 6
  /-- OPEN (D4) -/
  addrVersion   : BitVec 6
  /-- OPEN (D5): the mode bit of a read header; MODE_WRITE is its complement -/
  modeRead      : Bool
  /-- OPEN (D6): the receiver bit that means receiver on -/
  rcvOn         : Bool
  /-- OPEN (D11): the largest number of polls, none for `inf` -/
  pollBudget    : Option Nat
  /-- decided 0 (D7) -/
  pwrDownOff    : Bool
  /-- decided fault (D10) -/
  levelOver     : LevelPolicy
  /-- decided false (D27) -/
  routeRandomId : Bool
  deriving DecidableEq, Repr, Inhabited

/-- `MODE_WRITE = 1 - MODE_READ` (R6, R73). -/
def Params.modeWrite (p : Params) : Bool := !p.modeRead

/-- The limits R6 sets on the open parameters: the four addresses pairwise distinct (D4), the budget positive or `inf` (D11). -/
abbrev Params.wf (p : Params) : Prop :=
  [p.addrCommand, p.addrFifoData, p.addrFifoLevel, p.addrVersion].Nodup ∧ p.pollBudget ≠ some 0

/-- The three parameters R6 marks "decided" have the decided value (D7, D10, D27). -/
abbrev Params.decided (p : Params) : Prop :=
  p.pwrDownOff = false ∧ p.levelOver = .fault ∧ p.routeRandomId = false

/-- The default parameters of R6: numerals from general knowledge (GK1 to GK5), which no rule's meaning depends on (R7).
RCV_ON has no default and is an argument; POLL_BUDGET is `inf`. -/
def Params.default (rcvOn : Bool) : Params where
  addrCommand := 0x01
  addrFifoData := 0x09
  addrFifoLevel := 0x0A
  addrVersion := 0x37
  modeRead := true
  rcvOn := rcvOn
  pollBudget := none
  pwrDownOff := false
  levelOver := .fault
  routeRandomId := false

/-- One call of the Bus Transport (R33): `wtr tx k` sends `tx` and receives `k` bytes, `w tx` sends `tx`. -/
inductive BusCall where
  | wtr (tx : List Byte) (k : Nat)
  | w (tx : List Byte)
  deriving DecidableEq, Repr, Inhabited

/-- What the chip and the transport say to one call (R38): `Ok` with one byte (which a write does not use), or `Err`. -/
inductive Reply where
  | ok (rx : Byte)
  | err
  deriving DecidableEq, Repr, Inhabited

/-- The answer of one transaction as the trace records it (R9, R33). -/
inductive Answer where
  | ok (rx : List Byte)
  | err
  deriving DecidableEq, Repr, Inhabited

/-- One entry of the bus trace (R9): the call and its answer. -/
structure Transaction where
  call   : BusCall
  answer : Answer
  deriving DecidableEq, Repr, Inhabited

/-- FREE VALUE (log 1): some assignment of the parameters. -/
opaque Config.raw : Params

/-- FREE VALUE (R38, log 3): the unconstrained oracle, given the transport, the count of free values drawn so far, the
whole trace so far and the call. -/
opaque Config.oracle : Nat → Nat → List Transaction → BusCall → Reply

/-- FREE VALUE (R48, R85, log 4): the byte at the failed index of a destination. -/
opaque Config.freeByte : Nat → Byte

/-- FREE VALUE (R168, log 10): which of the waiting requesters is served next. -/
opaque Config.pick : Nat → Nat

/-- The machine's parameters: the open ones are uninterpreted within the limits of R6, the decided ones as decided (log 1). -/
def Config.params : Params :=
  let p : Params := { Config.raw with pwrDownOff := false, levelOver := .fault, routeRandomId := false }
  if p.wf then p else Params.default p.rcvOn

end Sys2Proof
end

