-- ==== Sys2Proof/Syntax.lean ====
section
/-! DEFINITION. The operations of the block and the other rows of spec/opcode_table.json as ONE inductive, with the
types of their operands and results. -/

namespace Sys2Proof

/-- The closed set of chip registers the block addresses, in the document's order (R17, R57). -/
inductive Reg where
  | command
  | fifoData
  | fifoLevel
  | version
  deriving DecidableEq, Repr, Inhabited

/-- The ten command codes (R83). -/
inductive CommandCode where
  | idle
  | mem
  | generateRandomId
  | calcCrc
  | transmit
  | noCmdChange
  | receive
  | transceive
  | mfAuthent
  | softReset
  deriving DecidableEq, Repr, Inhabited

/-- `DecodedCode` (R83): a command code, or a reserved code kept as it is. -/
inductive DecodedCode where
  | known (c : CommandCode)
  | unknown (code : BitVec 4)
  deriving DecidableEq, Repr, Inhabited

/-- `ChipVersion` (R116). -/
inductive ChipVersion where
  | version1
  | version2
  | unknown (b : Byte)
  deriving DecidableEq, Repr, Inhabited

/-- The four text commands (R131). -/
inductive TextCommand where
  | memRead
  | memWrite
  | getVersion
  | genRandId
  deriving DecidableEq, Repr, Inhabited

/-- What stands after the command name of a text line (R132): nothing (simple form), or the length token and, where the
line has a second ':', the data token (complex form). -/
inductive TextArgs where
  | simple
  | complex (lenTok : List Byte) (dataTok : Option (List Byte))
  deriving DecidableEq, Repr, Inhabited

/-- `ParseError` (R143). -/
inductive ParseError where
  | emptyInput
  | unknownCommand
  | invalidArgNumber
  | invalidDataLen
  | dataLenTooBig
  deriving DecidableEq, Repr, Inhabited

/-- `Operation` (R139): what the text front end hands to the Command Engine. A declared length is 0 to 25. -/
inductive Operation where
  | memWrite (declaredLen : Fin 26) (payload : Buffer)
  | memRead
  | getVersion
  | genRandId
  deriving DecidableEq, Repr

/-- `CommandResult` (R115). -/
inductive CommandResult where
  | bytesWritten (count : Nat)
  | bytesRead (count : Nat)
  | noAnswer
  deriving DecidableEq, Repr, Inhabited

/-- The failures of R150, each with what it records. -/
inductive Failure where
  /-- R151; the index of the failed byte for a counted operation (log 21) -/
  | busError (index : Option Nat)
  /-- R152 -/
  | unrecognizedDevice (b : Byte)
  /-- R153 -/
  | chipTimeout
  /-- R154 -/
  | deviceNotBound
  /-- R101 -/
  | fifoLevelExceedsBuffer (level : BitVec 7)
  /-- R59, R75 -/
  | reservedCommandCode (code : BitVec 4)
  /-- R59, R85, R103 -/
  | lengthOutOfRange (n : BitVec 5)
  /-- R155 -/
  | parse (e : ParseError)
  deriving DecidableEq, Repr, Inhabited

/-- The `value` of a response (R64). -/
inductive Value where
  | none
  | byte (b : Byte)
  /-- STAT_DEC's triple (R77) -/
  | decoded (rcv pwr : Bool) (cmd : DecodedCode)
  /-- a row of format S: the byte STAT_ENC writes for it (R75) and the triple STAT_DEC reads from it (R77) (log 8) -/
  | status (b : Byte) (rcv pwr : Bool) (cmd : DecodedCode)
  | version (v : ChipVersion)
  | command (r : CommandResult)
  | operation (o : Operation)
  deriving DecidableEq, Repr

/-- A response (R64): `Ok` with a value and, for a result that is a number of bytes, the count; or one failure, with
neither (R160). -/
inductive Response where
  | ok (value : Value) (count : Option Nat)
  | failed (f : Failure)
  deriving DecidableEq, Repr

/-- The formats a request's bytes can have (R50, R56, R62; log 7). -/
inductive Format where
  /-- format R, an operation of the block -/
  | request
  /-- format T, a text line -/
  | text
  /-- format A, an address byte -/
  | address
  /-- format S, a status byte -/
  | status
  /-- format L as written -/
  | levelWritten
  /-- format L as read -/
  | levelRead
  /-- format V, a version byte -/
  | version
  /-- a read frame or a write frame -/
  | frame
  deriving DecidableEq, Repr, Inhabited

/-- One constructor per row of spec/opcode_table.json, in the table's order. -/
inductive Instr where
  -- format R (R56). The operands are format R's fields, so the values a field has and the operation refuses are here too.
  | addrEnc (m : Bool) (a : Nat)
  | statEnc (code : BitVec 4) (pwr rcv : Bool)
  | statDec (b : Byte)
  | regRd (reg : Reg) (n : BitVec 5)
  | regWr (reg : Reg) (v : Byte)
  | fifoLvl
  | fifoFlush
  | fifoRd
  | fifoWr (n : BitVec 5) (data : Buffer)
  | sendCmd (code : BitVec 4)
  | memWrite (declaredLen : Byte) (payload : Buffer)
  | memRead
  | getVersion
  | genRandId
  | verCls (b : Byte)
  | reservedOp
  -- format T (R130, R131): a line whose field 0 is the row's name
  | parseMemRead (args : TextArgs)
  | parseMemWrite (args : TextArgs)
  | parseGetVersion (args : TextArgs)
  | parseGenRandId (args : TextArgs)
  -- format A (R74)
  | aCommandRead
  | aCommandWrite
  | aFifoDataRead
  | aFifoDataWrite
  | aFifoLevelRead
  | aFifoLevelWrite
  | aVersionRead
  | aVersionWrite
  -- format S (R52): bits 7:6, RCV, PWR; CMD is the row's
  | sIdle (rsv : BitVec 2) (rcv pwr : Bool)
  | sMem (rsv : BitVec 2) (rcv pwr : Bool)
  | sGenerateRandomId (rsv : BitVec 2) (rcv pwr : Bool)
  | sCalcCrc (rsv : BitVec 2) (rcv pwr : Bool)
  | sTransmit (rsv : BitVec 2) (rcv pwr : Bool)
  | sNoCmdChange (rsv : BitVec 2) (rcv pwr : Bool)
  | sReceive (rsv : BitVec 2) (rcv pwr : Bool)
  | sTransceive (rsv : BitVec 2) (rcv pwr : Bool)
  | sMfAuthent (rsv : BitVec 2) (rcv pwr : Bool)
  | sSoftReset (rsv : BitVec 2) (rcv pwr : Bool)
  | sUnknown5 (rsv : BitVec 2) (rcv pwr : Bool)
  | sUnknown6 (rsv : BitVec 2) (rcv pwr : Bool)
  | sUnknown9 (rsv : BitVec 2) (rcv pwr : Bool)
  | sUnknown10 (rsv : BitVec 2) (rcv pwr : Bool)
  | sUnknown11 (rsv : BitVec 2) (rcv pwr : Bool)
  | sUnknown13 (rsv : BitVec 2) (rcv pwr : Bool)
  -- format L (R53)
  | lFlush
  | lLevel (flushBit : Bool) (level : BitVec 7)
  -- format V (R54)
  | vVersion1
  | vVersion2
  | vUnknown (b : Byte)
  -- the frames (R55)
  | readFrame (reg : Reg)
  | writeFrame (reg : Reg) (d : Byte)
  deriving DecidableEq, Repr

end Sys2Proof
end

