-- ==== Sys2Proof/Machine/Operands.lean ====
section
/-! DEFINITION. Every field assembly and every pure function of the block (R58): address byte, status byte, level byte,
version byte, register addresses, failure codes. -/

namespace Sys2Proof

/-- A bit as a natural number. -/
abbrev bitNat (b : Bool) : Nat := b.toNat

/-- ADDR_ENC (R70): `(m << 7) | ((a & 0x3F) << 1)`, for any natural `a`. -/
def addrByte (m : Bool) (a : Nat) : Byte :=
  BitVec.ofNat 8 ((bitNat m <<< 7) ||| ((a &&& 0x3F) <<< 1))

/-- `num` (R83). -/
def CommandCode.num : CommandCode → BitVec 4
  | .idle => 0
  | .mem => 1
  | .generateRandomId => 2
  | .calcCrc => 3
  | .transmit => 4
  | .noCmdChange => 7
  | .receive => 8
  | .transceive => 12
  | .mfAuthent => 14
  | .softReset => 15

/-- `cmd_of` (R83): the total map from the 4-bit value, the six reserved values kept as they are (R78). -/
def cmdOf (code : BitVec 4) : DecodedCode :=
  match code.toNat with
  | 0 => .known .idle
  | 1 => .known .mem
  | 2 => .known .generateRandomId
  | 3 => .known .calcCrc
  | 4 => .known .transmit
  | 7 => .known .noCmdChange
  | 8 => .known .receive
  | 12 => .known .transceive
  | 14 => .known .mfAuthent
  | 15 => .known .softReset
  | _ => .unknown code

/-- STAT_ENC (R75): `(rcv << 5) | (pwr << 4) | (num(code) & 0xF)`. -/
def statusByte (code : CommandCode) (pwr rcv : Bool) : Byte :=
  BitVec.ofNat 8 ((bitNat rcv <<< 5) ||| (bitNat pwr <<< 4) ||| (code.num.toNat &&& 0xF))

/-- `(b >> 5) & 1` (R58, R77). -/
def rcvOf (b : Byte) : Bool := b.getLsbD 5

/-- `(b >> 4) & 1` (R58, R77). -/
def pwrOf (b : Byte) : Bool := b.getLsbD 4

/-- `cmd_of(b & 0xF)` (R58, R77). -/
def cmdField (b : Byte) : DecodedCode := cmdOf (b.extractLsb' 0 4)

/-- The level of a level byte (R96): `b & 0x7F`, bits 6 to 0. -/
def levelOf (b : Byte) : BitVec 7 := b.extractLsb' 0 7

/-- `FLUSH_WORD` (R6, R98). -/
def flushWord : Byte := 0x80

/-- VER_CLS (R116). -/
def verClass (b : Byte) : ChipVersion :=
  if b = 0x91 then .version1 else if b = 0x92 then .version2 else .unknown b

/-- `BUF_LEN` (R6). -/
def bufLen : Nat := 25

/-- `MEMWRITE_REPORT` (R6, R113). -/
def memWriteReport : Nat := 25

/-- `DECLARED_LEN_MAX` (R6, R135). -/
def declaredLenMax : Nat := 25

/-- `addr_of` (R57). -/
def Params.addrOf (p : Params) : Reg → BitVec 6
  | .command => p.addrCommand
  | .fifoData => p.addrFifoData
  | .fifoLevel => p.addrFifoLevel
  | .version => p.addrVersion

/-- The header of a read frame on a register (R34, R74). -/
def Params.readHeader (p : Params) (r : Reg) : Byte := addrByte p.modeRead (p.addrOf r).toNat

/-- The header of a write frame on a register (R35, R74). -/
def Params.writeHeader (p : Params) (r : Reg) : Byte := addrByte p.modeWrite (p.addrOf r).toNat

/-- The register at an address, if it is one of the four (R26, R41). -/
def Params.regAt (p : Params) (a : BitVec 6) : Option Reg :=
  if a = p.addrCommand then some .command
  else if a = p.addrFifoData then some .fifoData
  else if a = p.addrFifoLevel then some .fifoLevel
  else if a = p.addrVersion then some .version
  else none

/-- The inverse of ADDR_ENC on an even byte (R72): the mode bit and the address; nothing for an odd byte. -/
def headerFields (ab : Byte) : Option (Bool × BitVec 6) :=
  if ab.getLsbD 0 then none else some (ab.getLsbD 7, ab.extractLsb' 1 6)

/-- A status byte from its five fields (R18, R52). -/
def statusRowByte (rsv : BitVec 2) (rcv pwr : Bool) (code : BitVec 4) : Byte :=
  BitVec.ofNat 8 (64 * rsv.toNat + 32 * bitNat rcv + 16 * bitNat pwr + code.toNat)

/-- A level byte as read, from its two fields (R21, R53). -/
def levelRowByte (flushBit : Bool) (level : BitVec 7) : Byte :=
  BitVec.ofNat 8 (128 * bitNat flushBit + level.toNat)

/-- The operation an `Operation` of the text front end is run as (R139). -/
def Operation.toInstr : Operation → Instr
  | .memWrite d p => .memWrite (BitVec.ofNat 8 d.val) p
  | .memRead => .memRead
  | .getVersion => .getVersion
  | .genRandId => .genRandId

end Sys2Proof
end

