-- ==== Sys2Proof/Machine/Flags.lean ====
section
/-! DEFINITION. The block has no flags, condition codes or sticky error bits (R15). What stands in their place: the one
test it makes on a status byte (R82), the test of a code operand (R59), the poll budget (R110, R159), and the numeric
status of a response (R150). -/

namespace Sys2Proof

/-- `is_idle` (R82): the `cmd` of STAT_DEC is Idle. -/
def isIdle (b : Byte) : Bool := decide (cmdField b = .known .idle)

/-- The code operand of STAT_ENC and SEND_CMD names one of the ten command codes (R59, R75). -/
def isDefinedCode (code : BitVec 4) : Bool :=
  match cmdOf code with
  | .known _ => true
  | .unknown _ => false

/-- `polls = POLL_BUDGET` (R110): never when the budget is `inf`. -/
def budgetSpent (budget : Option Nat) (polls : Nat) : Bool :=
  match budget with
  | none => false
  | some k => decide (polls = k)

/-- The numeric code of a parse error (R150). -/
def ParseError.code : ParseError → Nat
  | .emptyInput => 16
  | .unknownCommand => 17
  | .invalidArgNumber => 18
  | .invalidDataLen => 19
  | .dataLenTooBig => 20

/-- The numeric code of a failure (R150). -/
def Failure.code : Failure → Nat
  | .busError _ => 1
  | .unrecognizedDevice _ => 2
  | .chipTimeout => 3
  | .deviceNotBound => 4
  | .fifoLevelExceedsBuffer _ => 5
  | .reservedCommandCode _ => 6
  | .lengthOutOfRange _ => 7
  | .parse e => e.code

/-- The `status` of a response as a number (R64, R150): 0 is `Ok`. -/
def Response.status : Response → Nat
  | .ok _ _ => 0
  | .failed f => f.code

end Sys2Proof
end

