-- ==== Sys2Proof/Decode.lean ====
section
/-! DEFINITION. The decoder, total on any bytes of any format, rejecting by name; then the encoder, from the same tables
(30_encoding.md, R131). The tables of formats A and the frames depend on the parameters, so both take them. -/

namespace Sys2Proof

/-- Why bytes are no operation, byte or frame of their format. -/
inductive DecodeError where
  /-- the wrong number of bytes for the format (R60, R64) -/
  | badLength
  /-- a text line that is not valid UTF-8 (R130, U34) -/
  | notUtf8
  /-- a text line with three or more ':' bytes (R141, U32) -/
  | extraFields
  /-- a text line whose name field resolves to no command (R131): PARSE's result is this error -/
  | noCommand (e : ParseError)
  /-- an address byte with bit 0 set (R51, R59) -/
  | oddAddressByte
  /-- an address byte of one of the 60 unnamed addresses (R26, R59) -/
  | unnamedAddress
  /-- a written level byte other than 0x80 (R53, R59) -/
  | notFlushWord
  /-- neither a read frame nor a write frame (R55) -/
  | malformedFrame
  deriving DecidableEq, Repr

/-- What the decoder answers. -/
inductive Decoded where
  | instr (i : Instr)
  | rejected (e : DecodeError)
  deriving DecidableEq, Repr

/-! ### Buffers and fields -/

/-- The first 25 bytes of a list, zero-padded on the right (R136). -/
def bufferOf (l : List Byte) : Buffer :=
  ⟨⟨(l ++ List.replicate 25 0).take 25⟩, by simp⟩

/-- The register select code (R57). -/
def Reg.code : Reg → BitVec 2
  | .command => 0
  | .fifoData => 1
  | .fifoLevel => 2
  | .version => 3

/-- The register of a select code (R57). -/
def Reg.ofCode (c : BitVec 2) : Reg :=
  match c.toNat with
  | 0 => .command
  | 1 => .fifoData
  | 2 => .fifoLevel
  | _ => .version

/-- A request of format R as its tuple of fields (R64). A field the request does not use is 0. -/
structure Request where
  op          : BitVec 4
  reg         : BitVec 2 := 0
  m           : Bool := false
  a           : BitVec 6 := 0
  code        : BitVec 4 := 0
  pwr         : Bool := false
  rcv         : Bool := false
  b           : Byte := 0
  v           : Byte := 0
  n           : BitVec 5 := 0
  declaredLen : Byte := 0
  data        : Buffer := Buffer.zero
  deriving DecidableEq, Repr

/-- The fields before the data, laid out in the tuple's order from bit 0 up: op 3:0, reg 5:4, m 6, a 12:7, code 16:13,
pwr 17, rcv 18, b 26:19, v 34:27, n 39:35, declared_len 47:40 (R64; the positions are log 6). -/
def Request.header (r : Request) : Nat :=
  r.op.toNat + 2 ^ 4 * r.reg.toNat + 2 ^ 6 * bitNat r.m + 2 ^ 7 * r.a.toNat + 2 ^ 13 * r.code.toNat
    + 2 ^ 17 * bitNat r.pwr + 2 ^ 18 * bitNat r.rcv + 2 ^ 19 * r.b.toNat + 2 ^ 27 * r.v.toNat
    + 2 ^ 35 * r.n.toNat + 2 ^ 40 * r.declaredLen.toNat

/-- The little-endian bytes of a number. -/
def bytesLE : Nat → Nat → List Byte
  | 0, _ => []
  | k + 1, w => BitVec.ofNat 8 w :: bytesLE k (w / 256)

/-- The number little-endian bytes stand for. -/
def natLE : List Byte → Nat
  | [] => 0
  | b :: bs => b.toNat + 256 * natLE bs

/-- The 31 bytes of a request: six of header, then data[0] to data[24]. -/
def Request.bytes (r : Request) : List Byte := bytesLE 6 r.header ++ r.data.toList

/-- One bit of a number. -/
def natBit (w k : Nat) : Bool := w / 2 ^ k % 2 == 1

/-- The request a header and its data stand for. -/
def Request.ofHeader (h : Nat) (data : Buffer) : Request where
  op := BitVec.ofNat 4 h
  reg := BitVec.ofNat 2 (h / 2 ^ 4)
  m := natBit h 6
  a := BitVec.ofNat 6 (h / 2 ^ 7)
  code := BitVec.ofNat 4 (h / 2 ^ 13)
  pwr := natBit h 17
  rcv := natBit h 18
  b := BitVec.ofNat 8 (h / 2 ^ 19)
  v := BitVec.ofNat 8 (h / 2 ^ 27)
  n := BitVec.ofNat 5 (h / 2 ^ 35)
  declaredLen := BitVec.ofNat 8 (h / 2 ^ 40)
  data := data

/-- The fields of a request's bytes, when there are 31. -/
def Request.ofBytes (bytes : List Byte) : Option Request :=
  if bytes.length = 31 then some (.ofHeader (natLE (bytes.take 6)) (bufferOf (bytes.drop 6))) else none

/-! ### Text lines -/

/-- The separator of the text protocol, ':' (R130). -/
def colon : Byte := 0x3A

/-- The fields of a line, the pieces between ':' bytes (R132): one more than there are ':' bytes. -/
def splitColon : List Byte → List (List Byte)
  | [] => [[]]
  | c :: cs =>
    if c = colon then [] :: splitColon cs
    else
      match splitColon cs with
      | f :: fs => (c :: f) :: fs
      | [] => [[c]]

/-- The lead byte of a UTF-8 sequence: how many bytes follow, and the bounds of the first of them (log 14). -/
def utf8Lead (b : Byte) : Option (Nat × Nat × Nat) :=
  let v := b.toNat
  if v < 0x80 then some (0, 0x80, 0xBF)
  else if v < 0xC2 then none
  else if v < 0xE0 then some (1, 0x80, 0xBF)
  else if v = 0xE0 then some (2, 0xA0, 0xBF)
  else if v = 0xED then some (2, 0x80, 0x9F)
  else if v < 0xF0 then some (2, 0x80, 0xBF)
  else if v = 0xF0 then some (3, 0x90, 0xBF)
  else if v < 0xF4 then some (3, 0x80, 0xBF)
  else if v = 0xF4 then some (3, 0x80, 0x8F)
  else none

/-- Well-formed UTF-8 from a point where `need` bytes of the running sequence are still to come, the next of them
between `lo` and `hi`. -/
def utf8From : List Byte → Nat → Nat → Nat → Bool
  | [], need, _, _ => need == 0
  | b :: bs, 0, _, _ =>
    match utf8Lead b with
    | some (need, lo, hi) => utf8From bs need lo hi
    | none => false
  | b :: bs, need + 1, lo, hi =>
    decide (lo ≤ b.toNat) && decide (b.toNat ≤ hi) && utf8From bs need 0x80 0xBF

/-- A byte string is valid UTF-8 (R130; log 14). -/
def utf8Valid (line : List Byte) : Bool := utf8From line 0 0x80 0xBF

/-- The command names (R131), as ASCII bytes. -/
def TextCommand.name : TextCommand → List Byte
  -- mem_read
  | .memRead => [0x6D, 0x65, 0x6D, 0x5F, 0x72, 0x65, 0x61, 0x64]
  -- mem_write
  | .memWrite => [0x6D, 0x65, 0x6D, 0x5F, 0x77, 0x72, 0x69, 0x74, 0x65]
  -- get_version
  | .getVersion => [0x67, 0x65, 0x74, 0x5F, 0x76, 0x65, 0x72, 0x73, 0x69, 0x6F, 0x6E]
  -- gen_rand_id
  | .genRandId => [0x67, 0x65, 0x6E, 0x5F, 0x72, 0x61, 0x6E, 0x64, 0x5F, 0x69, 0x64]

/-- `resolve` (R131), compared byte for byte with the whole token. -/
def resolve (tok : List Byte) : TextCommand ⊕ ParseError :=
  if tok = TextCommand.memRead.name then .inl .memRead
  else if tok = TextCommand.memWrite.name then .inl .memWrite
  else if tok = TextCommand.getVersion.name then .inl .getVersion
  else if tok = TextCommand.genRandId.name then .inl .genRandId
  else if tok = [] then .inr .emptyInput
  else .inr .unknownCommand

/-- The fields of a line as a name and what stands after it; nothing for three or more ':' bytes (R130, R141). -/
def lineParts (line : List Byte) : Option (List Byte × TextArgs) :=
  match splitColon line with
  | [name] => some (name, .simple)
  | [name, lenTok] => some (name, .complex lenTok none)
  | [name, lenTok, dataTok] => some (name, .complex lenTok (some dataTok))
  | _ => none

/-- The row of the table a line's name stands for. -/
def textRow (c : TextCommand) (args : TextArgs) : Instr :=
  match c with
  | .memRead => .parseMemRead args
  | .memWrite => .parseMemWrite args
  | .getVersion => .parseGetVersion args
  | .genRandId => .parseGenRandId args

/-- Format T (R130, R131). -/
def decodeText (line : List Byte) : Decoded :=
  if utf8Valid line then
    match lineParts line with
    | none => .rejected .extraFields
    | some (name, args) =>
      match resolve name with
      | .inl c => .instr (textRow c args)
      | .inr e => .rejected (.noCommand e)
  else .rejected .notUtf8

/-! ### The other formats -/

/-- Format R: the operation-select code picks the operation, which takes the fields R56 lists for it and ignores the rest. -/
def decodeFields (r : Request) : Instr :=
  match r.op.toNat with
  | 0 => .addrEnc r.m r.a.toNat
  | 1 => .statEnc r.code r.pwr r.rcv
  | 2 => .statDec r.b
  | 3 => .regRd (.ofCode r.reg) r.n
  | 4 => .regWr (.ofCode r.reg) r.v
  | 5 => .fifoLvl
  | 6 => .fifoFlush
  | 7 => .fifoRd
  | 8 => .fifoWr r.n r.data
  | 9 => .sendCmd r.code
  | 10 => .memWrite r.declaredLen r.data
  | 11 => .memRead
  | 12 => .getVersion
  | 13 => .genRandId
  | 14 => .verCls r.b
  | _ => .reservedOp

/-- Format R (R56, R64). -/
def decodeRequest (bytes : List Byte) : Decoded :=
  match Request.ofBytes bytes with
  | some r => .instr (decodeFields r)
  | none => .rejected .badLength

/-- The format A row of a register and a direction (R74). -/
def addressRow (r : Reg) (read : Bool) : Instr :=
  match r, read with
  | .command, true => .aCommandRead
  | .command, false => .aCommandWrite
  | .fifoData, true => .aFifoDataRead
  | .fifoData, false => .aFifoDataWrite
  | .fifoLevel, true => .aFifoLevelRead
  | .fifoLevel, false => .aFifoLevelWrite
  | .version, true => .aVersionRead
  | .version, false => .aVersionWrite

/-- Format A (R51, R72): the register and the direction an address byte names. -/
def decodeHeader (p : Params) (ab : Byte) : (Reg × Bool) ⊕ DecodeError :=
  match headerFields ab with
  | none => .inr .oddAddressByte
  | some (m, a) =>
    match p.regAt a with
    | none => .inr .unnamedAddress
    | some r => .inl (r, m == p.modeRead)

/-- The format S row of a status byte (R52): the row is picked by bits 3:0. -/
def statusRow (b : Byte) : Instr :=
  let rsv := b.extractLsb' 6 2
  let rcv := rcvOf b
  let pwr := pwrOf b
  match (b.extractLsb' 0 4).toNat with
  | 0 => .sIdle rsv rcv pwr
  | 1 => .sMem rsv rcv pwr
  | 2 => .sGenerateRandomId rsv rcv pwr
  | 3 => .sCalcCrc rsv rcv pwr
  | 4 => .sTransmit rsv rcv pwr
  | 5 => .sUnknown5 rsv rcv pwr
  | 6 => .sUnknown6 rsv rcv pwr
  | 7 => .sNoCmdChange rsv rcv pwr
  | 8 => .sReceive rsv rcv pwr
  | 9 => .sUnknown9 rsv rcv pwr
  | 10 => .sUnknown10 rsv rcv pwr
  | 11 => .sUnknown11 rsv rcv pwr
  | 12 => .sTransceive rsv rcv pwr
  | 13 => .sUnknown13 rsv rcv pwr
  | 14 => .sMfAuthent rsv rcv pwr
  | _ => .sSoftReset rsv rcv pwr

/-- The format V row of a version byte (R54). -/
def versionRow (b : Byte) : Instr :=
  match verClass b with
  | .version1 => .vVersion1
  | .version2 => .vVersion2
  | .unknown b => .vUnknown b

/-- The formats of one byte. -/
def decodeByte (p : Params) (f : Format) (b : Byte) : Decoded :=
  match f with
  | .address =>
    match decodeHeader p b with
    | .inl (r, read) => .instr (addressRow r read)
    | .inr e => .rejected e
  | .status => .instr (statusRow b)
  | .levelWritten => if b = flushWord then .instr .lFlush else .rejected .notFlushWord
  | .levelRead => .instr (.lLevel (b.getLsbD 7) (levelOf b))
  | .version => .instr (versionRow b)
  | .request => .rejected .badLength
  | .text => .rejected .badLength
  | .frame => .rejected .badLength

/-- The frames (R55): a read frame sends its header alone, a write frame its header and the data byte. -/
def decodeFrame (p : Params) (tx : List Byte) : Decoded :=
  match tx with
  | [ab] =>
    match decodeHeader p ab with
    | .inl (r, true) => .instr (.readFrame r)
    | .inl (_, false) => .rejected .malformedFrame
    | .inr e => .rejected e
  | [ab, d] =>
    match decodeHeader p ab with
    | .inl (r, false) => .instr (.writeFrame r d)
    | .inl (_, true) => .rejected .malformedFrame
    | .inr e => .rejected e
  | _ => .rejected .malformedFrame

/-- The decoder: what bytes of a format stand for. -/
def decode (p : Params) (f : Format) (bytes : List Byte) : Decoded :=
  match f with
  | .request => decodeRequest bytes
  | .text => decodeText bytes
  | .frame => decodeFrame p bytes
  | _ =>
    match bytes with
    | [b] => decodeByte p f b
    | _ => .rejected .badLength

/-! ### The encoder -/

/-- The line of a command name and what stands after it (R132). -/
def lineOf (c : TextCommand) (args : TextArgs) : List Byte :=
  match args with
  | .simple => c.name
  | .complex lenTok none => c.name ++ colon :: lenTok
  | .complex lenTok (some dataTok) => c.name ++ colon :: (lenTok ++ colon :: dataTok)

/-- A request of format R. -/
def encodeRequest (r : Request) : Format × List Byte := (.request, r.bytes)

/-- The words of an instruction: its format and its bytes. -/
def encode (p : Params) (i : Instr) : Format × List Byte :=
  match i with
  | .addrEnc m a => encodeRequest { op := 0, m := m, a := BitVec.ofNat 6 a }
  | .statEnc code pwr rcv => encodeRequest { op := 1, code := code, pwr := pwr, rcv := rcv }
  | .statDec b => encodeRequest { op := 2, b := b }
  | .regRd reg n => encodeRequest { op := 3, reg := reg.code, n := n }
  | .regWr reg v => encodeRequest { op := 4, reg := reg.code, v := v }
  | .fifoLvl => encodeRequest { op := 5 }
  | .fifoFlush => encodeRequest { op := 6 }
  | .fifoRd => encodeRequest { op := 7 }
  | .fifoWr n data => encodeRequest { op := 8, n := n, data := data }
  | .sendCmd code => encodeRequest { op := 9, code := code }
  | .memWrite d payload => encodeRequest { op := 10, declaredLen := d, data := payload }
  | .memRead => encodeRequest { op := 11 }
  | .getVersion => encodeRequest { op := 12 }
  | .genRandId => encodeRequest { op := 13 }
  | .verCls b => encodeRequest { op := 14, b := b }
  | .reservedOp => encodeRequest { op := 15 }
  | .parseMemRead args => (.text, lineOf .memRead args)
  | .parseMemWrite args => (.text, lineOf .memWrite args)
  | .parseGetVersion args => (.text, lineOf .getVersion args)
  | .parseGenRandId args => (.text, lineOf .genRandId args)
  | .aCommandRead => (.address, [p.readHeader .command])
  | .aCommandWrite => (.address, [p.writeHeader .command])
  | .aFifoDataRead => (.address, [p.readHeader .fifoData])
  | .aFifoDataWrite => (.address, [p.writeHeader .fifoData])
  | .aFifoLevelRead => (.address, [p.readHeader .fifoLevel])
  | .aFifoLevelWrite => (.address, [p.writeHeader .fifoLevel])
  | .aVersionRead => (.address, [p.readHeader .version])
  | .aVersionWrite => (.address, [p.writeHeader .version])
  | .sIdle rsv rcv pwr => (.status, [statusRowByte rsv rcv pwr 0])
  | .sMem rsv rcv pwr => (.status, [statusRowByte rsv rcv pwr 1])
  | .sGenerateRandomId rsv rcv pwr => (.status, [statusRowByte rsv rcv pwr 2])
  | .sCalcCrc rsv rcv pwr => (.status, [statusRowByte rsv rcv pwr 3])
  | .sTransmit rsv rcv pwr => (.status, [statusRowByte rsv rcv pwr 4])
  | .sNoCmdChange rsv rcv pwr => (.status, [statusRowByte rsv rcv pwr 7])
  | .sReceive rsv rcv pwr => (.status, [statusRowByte rsv rcv pwr 8])
  | .sTransceive rsv rcv pwr => (.status, [statusRowByte rsv rcv pwr 12])
  | .sMfAuthent rsv rcv pwr => (.status, [statusRowByte rsv rcv pwr 14])
  | .sSoftReset rsv rcv pwr => (.status, [statusRowByte rsv rcv pwr 15])
  | .sUnknown5 rsv rcv pwr => (.status, [statusRowByte rsv rcv pwr 5])
  | .sUnknown6 rsv rcv pwr => (.status, [statusRowByte rsv rcv pwr 6])
  | .sUnknown9 rsv rcv pwr => (.status, [statusRowByte rsv rcv pwr 9])
  | .sUnknown10 rsv rcv pwr => (.status, [statusRowByte rsv rcv pwr 10])
  | .sUnknown11 rsv rcv pwr => (.status, [statusRowByte rsv rcv pwr 11])
  | .sUnknown13 rsv rcv pwr => (.status, [statusRowByte rsv rcv pwr 13])
  | .lFlush => (.levelWritten, [flushWord])
  | .lLevel x n => (.levelRead, [levelRowByte x n])
  | .vVersion1 => (.version, [0x91])
  | .vVersion2 => (.version, [0x92])
  | .vUnknown b => (.version, [b])
  | .readFrame r => (.frame, [p.readHeader r])
  | .writeFrame r d => (.frame, [p.writeHeader r, d])

/-! ### Words of the opcode table -/

/-- The format a word of the opcode table is read in. The table's formats share words: the row that fixes most bits
wins (the three rows with mask 0xFF), then format R (log 7). -/
def tableFormat (nbits w : Nat) : Format :=
  if nbits ≤ 8 then
    if w = 0x80 then .levelWritten
    else if w = 0x91 then .version
    else if w = 0x92 then .version
    else .request
  else .request

/-- The bytes of a word of the opcode table: the first byte is bits 7 to 0, and a request has 31 bytes. -/
def tableBytes (f : Format) (w : Nat) : List Byte :=
  match f with
  | .request => bytesLE 31 w
  | _ => bytesLE 1 w

/-- The instruction the decoder reads from a word of the opcode table. -/
def decodeTableWord (nbits w : Nat) : Option Instr :=
  match decode Config.params (tableFormat nbits w) (tableBytes (tableFormat nbits w) w) with
  | .instr i => some i
  | .rejected _ => none

end Sys2Proof
end

