-- ==== Sys2Proof/Machine/State.lean ====
section
/-! DEFINITION. The state of the block (10_state.md), the inputs that wait outside it, the reasons a step can stop, and
the state after reset (R25, R175). Plain data. -/

namespace Sys2Proof.Machine

/-- Why the model stops with a fault. -/
inductive Fault where
  /-- Raised by the step alone, when `busy` or `locked` is set and no SEND_CMD waits in its poll loop, so that no rule says
  what comes next. No state that meets `State.Inv` raises it. SAFE: the model stops where nothing is specified. -/
  | ownedWithoutOperation
  deriving DecidableEq, Repr

/-- Why the model refuses: the input has no meaning in the spec. -/
inductive Refusal where
  /-- Raised by `exec` for a row that has no meaning yet. SAFE: nothing is claimed of it. -/
  | notModelled (mnemonic : String)
  /-- Raised by the meaning of op 0xF, which selects no operation (R59, R171, U20). SAFE: no step is claimed. -/
  | reservedOp
  /-- Raised by the four text rows for a length token `+digits` (R140, U33). SAFE: no result is claimed. -/
  | plusSign
  /-- Raised by the step for a text line with three or more ':' bytes (R141, U32). SAFE: no result is claimed. -/
  | extraFields
  /-- Raised by the step for a text line that is not UTF-8 (R130, U34). SAFE: no result is claimed. -/
  | notUtf8
  /-- Raised by the step for bytes that are no request, byte or frame of their format (R50, R55, R64). SAFE: the spec gives
  them no meaning. -/
  | notAnEncoding
  deriving DecidableEq, Repr

/-- The operations that hold the sequencer (`cur_op`, R13): those that can issue a frame. -/
inductive OpName where
  | regRd
  | regWr
  | fifoLvl
  | fifoFlush
  | fifoRd
  | fifoWr
  | sendCmd
  | memWrite
  | memRead
  | getVersion
  | genRandId
  | readFrame
  | writeFrame
  deriving DecidableEq, Repr, Inhabited

/-- Which SEND_CMD waits in its poll loop (R110, R112), and so what follows its Idle: nothing else, or the rest of the
compound operation it belongs to. -/
inductive Wait where
  /-- no SEND_CMD is polling -/
  | idle
  /-- the operation is SEND_CMD itself -/
  | sendCmd
  /-- the SEND_CMD Mem of MEM_WRITE (R113) -/
  | memWrite
  /-- the SEND_CMD Mem of MEM_READ (R114) -/
  | memRead
  /-- GEN_RAND_ID (R118): the SEND_CMD Mem of its MEM_WRITE -/
  | genClear
  /-- GEN_RAND_ID: its SEND_CMD GenerateRandomId -/
  | genGenerate
  /-- GEN_RAND_ID: the SEND_CMD Mem of its MEM_READ -/
  | genFetch
  deriving DecidableEq, Repr, Inhabited

/-- Sequencer state (R13), with the position in a compound operation its pseudocode implies. In a compound operation `curOp` names
the compound throughout (log 29). -/
structure Seq where
  busy  : Bool
  curOp : Option OpName
  i     : Nat
  n     : Nat
  lvl   : BitVec 7
  tmp   : Byte
  loc   : Buffer
  polls : Nat
  wait  : Wait
  deriving DecidableEq, Repr

/-- The sequencer state between operations: cleared (R13). -/
def Seq.cleared : Seq where
  busy := false
  curOp := none
  i := 0
  n := 0
  lvl := 0
  tmp := 0
  loc := Buffer.zero
  polls := 0
  wait := .idle

/-- Operand latches (R16). -/
structure Latches where
  reg  : Reg := .command
  val  : Byte := 0
  code : BitVec 4 := 0
  pwr  : Bool := false
  rcv  : Bool := false
  n    : BitVec 5 := 0
  data : Buffer := Buffer.zero
  deriving DecidableEq, Repr

/-- The latches between operations, which have no meaning there (R16; log 11). -/
def Latches.cleared : Latches := {}

/-- The reference peer (R47): a test double of the chip. -/
structure Peer where
  /-- `V`, the version byte -/
  version  : Byte
  /-- `C`, the command register -/
  command  : Byte
  /-- `F`, the FIFO, oldest first -/
  fifo     : List Byte
  /-- `M`, the chip memory -/
  memory   : Buffer
  /-- `d`, the polls still to answer as busy -/
  busyLeft : Nat
  /-- `hi`, what FifoLevel bit 7 reads as -/
  hi       : Bool
  /-- `fail_at`, the index of the one transaction that answers Err -/
  failAt   : Option Nat
  /-- the transactions answered since the start of the run, which `fail_at` counts -/
  count    : Nat
  /-- `DELAY0` -/
  delay0   : Nat
  /-- `G`, the bytes GenerateRandomId leaves in the memory -/
  generated : Buffer
  deriving DecidableEq, Repr

/-- The chip and the transport as the block sees them (R38): the next answers one after another and, past them, the
uninterpreted oracle; or the reference peer (log 3). -/
inductive Oracle where
  | script (replies : List Reply)
  | peer (p : Peer)
  deriving DecidableEq, Repr

/-- What comes from outside the block (R11, R12, R64, R139, R175). -/
inductive Event where
  /-- bytes of a format, to be decoded and run as one row of the table -/
  | request (f : Format) (bytes : List Byte)
  /-- a line for the text front end, whose operation the Command Engine then runs (R139; log 22) -/
  | line (text : List Byte)
  /-- an operation for the Command Engine (R139) -/
  | operation (o : Operation)
  /-- a requester writes its answer buffer (R11, R168); a write that comes while the block is owned waits (log 26) -/
  | writeAns (v : Buffer)
  /-- the external bind step succeeds on a transport (R12) -/
  | bind (transport : Nat)
  /-- the external unbind (R12, R178): the handle is absent again, the transport's number stays (log 18) -/
  | unbind
  /-- the external reset (R175) -/
  | reset
  deriving DecidableEq, Repr

/-- An event that waits to be served, and who it comes from (R27, R168). -/
structure Held where
  src : Nat
  ev  : Event
  deriving DecidableEq, Repr

/-- The state of the machine. -/
structure State where
  /-- the parameters of R6: arguments of the model, carried unchanged (log 1) -/
  cfg       : Params
  /-- the answer buffer (R11) of `owner`; the other requesters' own are in `answers` (log 27) -/
  ans       : Buffer
  /-- device handle present (R12) -/
  bound     : Bool
  /-- the transport the handle refers to (R12); with no device bound it is kept and means nothing (log 18) -/
  transport : Nat
  /-- sequencer state (R13) -/
  seq       : Seq
  /-- operand latches (R16) -/
  lat       : Latches
  /-- a compound operation owns the handle (R27, R121) -/
  locked    : Bool
  /-- the bus trace, oldest first (R9) -/
  trace     : List Transaction
  /-- the diagnostic sink, oldest first (R120) -/
  sink      : List Byte
  /-- the response port (R64): the response of `owner`'s last operation. Its value or failure is a value and not state (R24): it is
  seen from the end of that operation until the next one begins or it is another requester's turn (log 12) -/
  resp      : Option Response
  /-- the answer buffers of the requesters other than `owner` (R11, R168; log 27): sources rising, none listed that has what an
  unlisted one has -/
  answers   : List (Nat × Buffer)
  /-- what PARSE returns to its caller (R130): seen after the step that ran it and gone with the next operation, which does not
  read it (R24; log 13) -/
  parsed    : Option Response
  /-- whose input, other than a line, is or was last served (R27) -/
  owner     : Nat
  /-- inputs that wait (R27, R168) -/
  held      : List Held
  /-- the answers of the chip and the transport (R38) -/
  oracle    : Oracle
  /-- free values drawn so far (log 4) -/
  tick      : Nat
  deriving DecidableEq, Repr

/-- The state after reset (R25, R175): `bound`, `busy` and `locked` 0, trace and sink empty, and for what R25 leaves
unspecified the values of log 2; the parameters and the oracle are uninterpreted (log 1, log 3). -/
def State.reset : State where
  cfg := Config.params
  ans := Buffer.zero
  bound := false
  transport := 0
  seq := Seq.cleared
  lat := Latches.cleared
  locked := false
  trace := []
  sink := []
  resp := none
  answers := []
  parsed := none
  owner := 0
  held := []
  oracle := .script []
  tick := 0

end Sys2Proof.Machine
end

