-- ==== Sys2Proof/Machine/Peer.lean ====
section
/-! DEFINITION. The reference peer of R47: a deterministic oracle for the programs of 95_test_vectors.md. It is no ground
for a claim about the chip. -/

namespace Sys2Proof.Machine

/-- `run(v[3:0])` (R47): what the peer does when a command code is written. -/
def Peer.run (p : Peer) (code : BitVec 4) : Peer :=
  match cmdOf code with
  | .known .mem =>
    if p.fifo = [] then { p with fifo := p.memory.toList }
    else { p with memory := bufferOf p.fifo, fifo := [] }
  | .known .generateRandomId => { p with memory := p.generated }
  | _ => p

/-- A read of a chip register (R47). -/
def Peer.read (p : Peer) : Reg → Byte × Peer
  | .version => (p.version, p)
  | .fifoLevel => (levelRowByte p.hi (BitVec.ofNat 7 p.fifo.length), p)
  | .fifoData =>
    match p.fifo with
    | [] => (0x00, p)
    | b :: rest => (b, { p with fifo := rest })
  | .command =>
    if p.busyLeft = 0 then (p.command &&& 0xF0, p)
    else (p.command, { p with busyLeft := p.busyLeft - 1 })

/-- A write of a chip register (R47). A write of Version has no effect (log 25). -/
def Peer.write (p : Peer) (r : Reg) (v : Byte) : Peer :=
  match r with
  | .version => p
  | .fifoLevel => if v.getLsbD 7 then { p with fifo := [] } else p
  | .fifoData => { p with fifo := p.fifo ++ [v] }
  | .command => ({ p with command := v, busyLeft := p.delay0 }).run (v.extractLsb' 0 4)

/-- The peer's answer to one call, by the frame it carries (R34, R35, R72). A call that is no frame of the block is
answered Ok with 0 and changes nothing (log 25). -/
def Peer.serve (cfg : Params) (p : Peer) (call : BusCall) : Reply × Peer :=
  match call with
  | .wtr [ab] _ =>
    match decodeHeader cfg ab with
    | .inl (r, true) => (.ok (p.read r).1, (p.read r).2)
    | _ => (.ok 0, p)
  | .w [ab, v] =>
    match decodeHeader cfg ab with
    | .inl (r, false) => (.ok 0, p.write r v)
    | _ => (.ok 0, p)
  | _ => (.ok 0, p)

/-- The peer's answer, with the one failing transaction (R47): Err and no state change. -/
def Peer.answer (cfg : Params) (p : Peer) (call : BusCall) : Reply × Peer :=
  if p.failAt = some p.count then (.err, { p with count := p.count + 1 })
  else ((p.serve cfg call).1, { (p.serve cfg call).2 with count := p.count + 1 })

end Sys2Proof.Machine
end

