-- ==== Sys2Proof/Machine/Ops.lean ====
section
/-! DEFINITION. The named operations over the state: one transaction of the bus and the two frame primitives, the
destinations, the beginning and the end of an operation, failing (R160), and serving the inputs that wait. -/

namespace Sys2Proof.Machine

/-- How a piece of an operation ends: with a result, with a failure (`raise`, R9), or waiting between two polls (R110). -/
inductive Run (α : Type) where
  | ok (a : α) (s : State)
  | fail (f : Failure) (s : State)
  | wait (s : State)
  deriving DecidableEq, Repr

/-- Go on with the result; a failure or a wait ends the piece (R123). -/
def Run.andThen {α β : Type} (r : Run α) (k : α → State → Run β) : Run β :=
  match r with
  | .ok a s => k a s
  | .fail f s => .fail f s
  | .wait s => .wait s

/-! ### Updates of the sequencer state (R13) -/

/-- Set the index `i`. -/
def State.setI (s : State) (i : Nat) : State := { s with seq := { s.seq with i := i } }

/-- Set the number of bytes to move. -/
def State.setN (s : State) (n : Nat) : State := { s with seq := { s.seq with n := n } }

/-- Set the level read back. -/
def State.setLvl (s : State) (l : BitVec 7) : State := { s with seq := { s.seq with lvl := l } }

/-- Set the poll count. -/
def State.setPolls (s : State) (k : Nat) : State := { s with seq := { s.seq with polls := k } }

/-- Say which SEND_CMD polls. -/
def State.setWait (s : State) (w : Wait) : State := { s with seq := { s.seq with wait := w } }

/-- Draw a free value: the next one is another. -/
def State.draw (s : State) : State := { s with tick := s.tick + 1 }

/-- Where a register read puts its bytes (R85, C10). -/
inductive Dest where
  | ans
  | tmp
  | loc
  deriving DecidableEq, Repr

/-- `dest[i] <- b` (R9). The scratch byte has one position. -/
def State.writeDest (s : State) (d : Dest) (i : Nat) (b : Byte) : State :=
  match d with
  | .ans => { s with ans := s.ans.setIfInBounds i b }
  | .tmp => { s with seq := { s.seq with tmp := b } }
  | .loc => { s with seq := { s.seq with loc := s.seq.loc.setIfInBounds i b } }

/-! ### Transactions -/

/-- What the outside answers to a call, and the oracle afterwards (R38; log 3). -/
def State.answerOf (s : State) (call : BusCall) : Reply × Oracle :=
  match s.oracle with
  | .script (r :: rest) => (r, .script rest)
  | .script [] => (Config.oracle s.transport s.tick s.trace call, .script [])
  | .peer p => ((p.answer s.cfg call).1, .peer (p.answer s.cfg call).2)

/-- The answer the trace records (R9): `k` bytes for a read, none for a write. -/
def recorded (call : BusCall) : Reply → Answer
  | .err => .err
  | .ok b =>
    match call with
    | .wtr _ _ => .ok [b]
    | .w _ => .ok []

/-- The state after a transaction: one more entry of the trace (R42), the oracle moved on. -/
def State.afterCall (s : State) (call : BusCall) : State :=
  { s with
    trace := s.trace ++ [⟨call, recorded call (s.answerOf call).1⟩]
    oracle := (s.answerOf call).2
    tick := s.tick + 1 }

/-- One transaction (R33, R48): its reply, and the state after it. -/
def transact (call : BusCall) (s : State) : Run Byte :=
  match (s.answerOf call).1 with
  | .ok b => .ok b (s.afterCall call)
  | .err => .fail (.busError none) (s.afterCall call)

/-- The read frame on a register (R34): one byte out, one byte in. -/
def readCall (p : Params) (r : Reg) : BusCall := .wtr [p.readHeader r] 1

/-- The write frame on a register (R35): the address byte, then the data byte. -/
def writeCall (p : Params) (r : Reg) (v : Byte) : BusCall := .w [p.writeHeader r, v]

/-- `MemRead(reg, 1)` (R86). -/
def memRead1 (r : Reg) (s : State) : Run Byte := transact (readCall s.cfg r) s

/-- `MemWrite(reg, 1, v)` (R88). -/
def memWrite1 (r : Reg) (v : Byte) (s : State) : Run Unit :=
  (transact (writeCall s.cfg r v) s).andThen fun _ s' => .ok () s'

/-- The test every operation that can issue a frame makes first (R154). -/
def ifBound {α : Type} (k : State → Run α) (s : State) : Run α :=
  if s.bound then k s else .fail .deviceNotBound s

/-- A byte index for the failure of a counted operation (R150): a bus error takes it, another failure has none. -/
def atIndex (i : Nat) : Failure → Failure
  | .busError _ => .busError (some i)
  | f => f

/-! ### Beginning and ending an operation -/

/-- A result of an operation that ended well (R64). -/
structure Result where
  value : Value
  count : Option Nat := none
  deriving DecidableEq, Repr

/-- What PARSE returned is a value and not state: no operation keeps it (R24). -/
def State.dropParsed (s : State) : State := { s with parsed := none }

/-- An operation begins (R13, R16): the sequencer state is fresh, the operands are latched, there is no response yet (log 12). A
compound operation begins once: its inner steps keep `cur_op` and the latches (log 29). -/
def State.begin (s : State) (op : OpName) (lat : Latches) : State :=
  { s.dropParsed with seq := { Seq.cleared with busy := true, curOp := some op }, lat := lat, resp := none }

/-- The operands of a request that issues no frame, for its duration (R16). -/
def State.latch (s : State) (lat : Latches) : State := { s with lat := lat }

/-- A compound operation begins: it also takes the lock (R121). -/
def State.beginLocked (s : State) (op : OpName) (lat : Latches) : State :=
  { s.begin op lat with locked := true }

/-- An operation ends with a response: `busy` and `locked` cleared, the sequencer state cleared (R13, R121, R160). -/
def State.finish (s : State) (r : Response) : State :=
  { s.dropParsed with seq := Seq.cleared, lat := Latches.cleared, locked := false, resp := some r }

/-- What a failure does (R160): the operation stops where it is, the response carries the failure's name and no value or
count, nothing is saved and control goes nowhere. There is no return from it (R161). -/
def State.failed (s : State) (f : Failure) : State := s.finish (.failed f)

/-- The end of an operation that succeeded (R15). -/
def State.succeed (s : State) (r : Result) : State := s.finish (.ok r.value r.count)

/-- The outcome of an operation: a result or a failure is a next state (R171), and so is a wait between two polls. In each of
them what PARSE returned before is gone (R24). -/
def conclude (r : Run Result) : Host.Outcome State Fault Refusal :=
  match r with
  | .ok a s => .next (s.succeed a)
  | .fail f s => .next (s.failed f)
  | .wait s => .next s.dropParsed

/-- The outcome of a pure operation: a value, nothing else. -/
def answer (v : Value) (s : State) : Host.Outcome State Fault Refusal := .next (s.succeed { value := v })

/-- The outcome of a request that is refused with a failure before anything else (R159). -/
def reject (f : Failure) (s : State) : Host.Outcome State Fault Refusal := .next (s.failed f)

/-- PARSE returns (R130): its caller has the result, and nothing of the block is read or written. -/
def State.parseReturns (s : State) (r : Response) : State := { s with parsed := some r }

/-! ### Each requester's own answer buffer (R11, R168; log 27) -/

/-- The answer buffer of a listed requester, and of an unlisted one (R25; log 2). -/
def answerAt : List (Nat × Buffer) → Nat → Buffer
  | [], _ => Buffer.zero
  | e :: rest, src => if e.1 = src then e.2 else answerAt rest src

/-- The list without a source. -/
def dropAnswer (src : Nat) (l : List (Nat × Buffer)) : List (Nat × Buffer) := l.filter fun e => e.1 != src

/-- A source that is not listed takes its place in the order. -/
def insertAnswer (src : Nat) (b : Buffer) : List (Nat × Buffer) → List (Nat × Buffer)
  | [] => [(src, b)]
  | e :: rest => if src < e.1 then (src, b) :: e :: rest else e :: insertAnswer src b rest

/-- Record a requester's answer buffer, and keep the canonical form. -/
def setAnswer (src : Nat) (b : Buffer) (l : List (Nat × Buffer)) : List (Nat × Buffer) :=
  if b = Buffer.zero then dropAnswer src l else insertAnswer src b (dropAnswer src l)

/-- A requester's own answer buffer (R168): what it reads (R11). -/
def State.ansOf (s : State) (src : Nat) : Buffer := if src = s.owner then s.ans else answerAt s.answers src

/-- It is this requester's turn (R27, R168): `ans` is its own answer buffer now, and that of the requester before it is kept for it.
The response of the requester before it is a value, which is not kept (R24). -/
def State.turnTo (s : State) (src : Nat) : State :=
  { s with
    owner := src
    ans := s.ansOf src
    answers := if src = s.owner then s.answers else setAnswer s.owner s.ans (dropAnswer src s.answers)
    resp := if src = s.owner then s.resp else none }

/-! ### The inputs that wait -/

/-- The first waiting event of each source: one source's events are served in order (log 10). -/
def firstOfEach : List Held → List Held
  | [] => []
  | h :: rest => h :: (firstOfEach rest).filter fun g => g.src != h.src

/-- The waiting events without the first one of a source. -/
def dropFirst (src : Nat) : List Held → List Held
  | [] => []
  | h :: rest => if h.src = src then rest else h :: dropFirst src rest

/-- Is the event the external reset? -/
def Held.isReset (h : Held) : Bool := decide (h.ev = .reset)

/-- A reset that waits and is not behind another event of its source (R175; log 17). -/
def State.resetNow (s : State) : Option Held := (firstOfEach s.held).find? Held.isReset

/-- The event to serve when the block is not owned: the only one there is, or any of them (R168, U22). -/
def State.nextHeld (s : State) : Option Held :=
  match firstOfEach s.held with
  | [] => none
  | [h] => some h
  | h :: rest => some ((h :: rest).getD (Config.pick s.tick % (rest.length + 1)) h)

/-- Is the event a line of text, for PARSE alone or for the engine behind it (R130, R139)? -/
def Held.isText (h : Held) : Bool :=
  match h.ev with
  | .request f _ => decide (f = .text)
  | .line _ => true
  | .operation _ => false
  | .writeAns _ => false
  | .bind _ => false
  | .unbind => false
  | .reset => false

/-- The lines PARSE can take while the block is owned: it needs no serialisation (R130, R168). The source whose operation
runs is in that call and has no line of its own (log 24). -/
def State.readyLines (s : State) : List Held :=
  (firstOfEach s.held).filter fun h => h.isText && h.src != s.owner

/-- Whether PARSE takes a line before the operation goes on, and which: a free value (log 24). -/
def State.lineNow (s : State) : Option Held :=
  match s.readyLines with
  | [] => none
  | h :: rest => (none :: (h :: rest).map some).getD (Config.pick s.tick % (rest.length + 2)) none

/-- Whose turn it is when an event is served: its source's (R27), but a line needs no turn (R168). -/
def State.turnFor (s : State) (h : Held) : Nat := if h.isText then s.owner else h.src

/-- An event leaves the waiting ones, and it is the turn of the one it is served for; what PARSE returned before is gone (R24). -/
def State.take (s : State) (h : Held) : State :=
  { s.turnTo (s.turnFor h) with held := dropFirst h.src s.held, tick := s.tick + 1, parsed := none }

/-- The block after the external reset (R25, R175): the chip is not touched (R176), nor is what waits outside or the
configuration (log 17). -/
def State.resetKeeping (s : State) : State :=
  { State.reset with cfg := s.cfg, oracle := s.oracle, held := s.held, tick := s.tick }

/-- The block is owned: requests and bind events are held (R27, R178), and writes of the answer buffer (log 26). -/
def State.owned (s : State) : Bool := s.seq.busy || s.locked

end Sys2Proof.Machine
end

