-- ==== Sys2Proof/Machine/AddressEncoder.lean ====
section
/-! DEFINITION. The address-byte encoder (40_address_encoder.md): ADDR_ENC, and the eight address bytes of R74. -/

namespace Sys2Proof.Machine

/-- ADDR_ENC m, a (R70): pure and total. -/
def execAddrEnc (m : Bool) (a : Nat) (s : State) : Host.Outcome State Fault Refusal :=
  answer (.byte (addrByte m a)) s

/-- A.Command.read (R74): the read header of Command, ADDR_ENC MODE_READ, ADDR_COMMAND (log 8). -/
def execACommandRead (s : State) : Host.Outcome State Fault Refusal :=
  answer (.byte (s.cfg.readHeader .command)) s

/-- A.Command.write (R74). -/
def execACommandWrite (s : State) : Host.Outcome State Fault Refusal :=
  answer (.byte (s.cfg.writeHeader .command)) s

/-- A.FifoData.read (R74). -/
def execAFifoDataRead (s : State) : Host.Outcome State Fault Refusal :=
  answer (.byte (s.cfg.readHeader .fifoData)) s

/-- A.FifoData.write (R74). -/
def execAFifoDataWrite (s : State) : Host.Outcome State Fault Refusal :=
  answer (.byte (s.cfg.writeHeader .fifoData)) s

/-- A.FifoLevel.read (R74). -/
def execAFifoLevelRead (s : State) : Host.Outcome State Fault Refusal :=
  answer (.byte (s.cfg.readHeader .fifoLevel)) s

/-- A.FifoLevel.write (R74). -/
def execAFifoLevelWrite (s : State) : Host.Outcome State Fault Refusal :=
  answer (.byte (s.cfg.writeHeader .fifoLevel)) s

/-- A.Version.read (R74). -/
def execAVersionRead (s : State) : Host.Outcome State Fault Refusal :=
  answer (.byte (s.cfg.readHeader .version)) s

/-- A.Version.write (R74): encodable, and never issued by the document's operations (R17). -/
def execAVersionWrite (s : State) : Host.Outcome State Fault Refusal :=
  answer (.byte (s.cfg.writeHeader .version)) s

end Sys2Proof.Machine
end

