-- ==== Sys2Proof/Machine/RegisterAccess.lean ====
section
/-! DEFINITION. Register read and write over the bus (42_register_access.md): REG_RD, REG_WR, and the two frames. -/

namespace Sys2Proof.Machine

/-- The loop of REG_RD (R85): one read frame for each byte that is left, into rising positions of the destination. The
byte at the position of a failed frame is a free value (R48, D17; log 4). -/
def readLoop (r : Reg) (d : Dest) : Nat → State → Run Unit
  | 0, s => .ok () s
  | k + 1, s =>
    match memRead1 r s with
    | .ok b s' => readLoop r d k ((s'.writeDest d s'.seq.i b).setI (s'.seq.i + 1))
    | .fail f s' => .fail (atIndex s'.seq.i f) (s'.writeDest d s'.seq.i (Config.freeByte s'.tick)).draw
    | .wait s' => .wait s'

/-- `REG_RD(reg, n) into dest` (R85). -/
def regRd (r : Reg) (n : Nat) (d : Dest) (s : State) : Run Unit :=
  ifBound (fun s => readLoop r d n ((s.setN n).setI 0)) s

/-- `REG_WR(reg, v)` (R87). -/
def regWr (r : Reg) (v : Byte) (s : State) : Run Unit :=
  ifBound (memWrite1 r v) s

/-- REG_RD reg, n (R85): into the answer buffer. A count above 25 is refused with LengthOutOfRange before anything else
(R59, R159). -/
def execRegRd (reg : Reg) (n : BitVec 5) (s : State) : Host.Outcome State Fault Refusal :=
  if n.toNat ≤ bufLen then
    let s1 := s.begin .regRd { reg := reg, n := n }
    conclude ((regRd s1.lat.reg s1.lat.n.toNat .ans s1).andThen fun _ s' => .ok { value := .none } s')
  else reject (.lengthOutOfRange n) s

/-- REG_WR reg, v (R87): any byte to any register, where R53 and R59 say that FifoLevel is only ever written 0x80 (log 28). -/
def execRegWr (reg : Reg) (v : Byte) (s : State) : Host.Outcome State Fault Refusal :=
  let s1 := s.begin .regWr { reg := reg, val := v }
  conclude ((regWr s1.lat.reg s1.lat.val s1).andThen fun _ s' => .ok { value := .none } s')

/-- RF, the read frame (R34, R86): one frame on a register, its byte into the scratch byte and the response (log 8). -/
def execReadFrame (reg : Reg) (s : State) : Host.Outcome State Fault Refusal :=
  let s1 := s.begin .readFrame { reg := reg, n := 1 }
  conclude ((regRd s1.lat.reg s1.lat.n.toNat .tmp s1).andThen fun _ s' => .ok { value := .byte s'.seq.tmp } s')

/-- WF, the write frame (R35, R88): one frame on a register (log 8), with any byte as in REG_WR (log 28). -/
def execWriteFrame (reg : Reg) (d : Byte) (s : State) : Host.Outcome State Fault Refusal :=
  let s1 := s.begin .writeFrame { reg := reg, val := d }
  conclude ((regWr s1.lat.reg s1.lat.val s1).andThen fun _ s' => .ok { value := .none } s')

end Sys2Proof.Machine
end

