-- ==== Sys2Proof/Machine/FifoSequencer.lean ====
section
/-! DEFINITION. The FIFO sequencer (43_fifo_sequencer.md): FIFO_LVL, FIFO_FLUSH, FIFO_RD, FIFO_WR, and the two rows of
format L. It keeps no copy of the FIFO, no count and no record of a flush (R106). -/

namespace Sys2Proof.Machine

/-- `FIFO_LVL()` (R95, R96). -/
def fifoLvl (s : State) : Run (BitVec 7) :=
  (regRd .fifoLevel 1 .tmp s).andThen fun _ s' => .ok (levelOf s'.seq.tmp) (s'.setLvl (levelOf s'.seq.tmp))

/-- `FIFO_FLUSH()` (R98). -/
def fifoFlush (s : State) : Run Unit := regWr .fifoLevel flushWord s

/-- `FIFO_RD() into dest` (R100, R101): the count it returns is the level the chip reported. Under the policy `clamp`, not
chosen (D10), it reads at most 25 bytes and returns the level all the same. -/
def fifoRd (d : Dest) (s : State) : Run (BitVec 7) :=
  (fifoLvl s).andThen fun l s1 =>
    if l.toNat ≤ bufLen then (regRd .fifoData l.toNat d s1).andThen fun _ s2 => .ok l s2
    else
      match s1.cfg.levelOver with
      | .fault => .fail (.fifoLevelExceedsBuffer l) s1
      | .clamp => (regRd .fifoData bufLen d s1).andThen fun _ s2 => .ok l s2

/-- The loop of FIFO_WR (R103): one REG_WR for each byte that is left, in order. -/
def writeLoop : List Byte → State → Run Unit
  | [], s => .ok () s
  | b :: rest, s =>
    match regWr .fifoData b s with
    | .ok _ s' => writeLoop rest (s'.setI (s'.seq.i + 1))
    | .fail f s' => .fail (atIndex s'.seq.i f) s'
    | .wait s' => .wait s'

/-- `FIFO_WR(n, data)` (R103), the bytes as a list. -/
def fifoWr (data : List Byte) (s : State) : Run Unit :=
  ifBound (fun s => writeLoop data ((s.setN data.length).setI 0)) s

/-- FIFO_LVL (R95). -/
def execFifoLvl (s : State) : Host.Outcome State Fault Refusal :=
  conclude ((fifoLvl (s.begin .fifoLvl {})).andThen fun l s' =>
    .ok { value := .byte (l.zeroExtend 8), count := some l.toNat } s')

/-- FIFO_FLUSH (R98). -/
def execFifoFlush (s : State) : Host.Outcome State Fault Refusal :=
  conclude ((fifoFlush (s.begin .fifoFlush {})).andThen fun _ s' => .ok { value := .none } s')

/-- FIFO_RD (R100): into the answer buffer. -/
def execFifoRd (s : State) : Host.Outcome State Fault Refusal :=
  conclude ((fifoRd .ans (s.begin .fifoRd {})).andThen fun l s' =>
    .ok { value := .none, count := some l.toNat } s')

/-- FIFO_WR n, data (R103): the first n bytes. A count above 25 is refused with LengthOutOfRange before anything else. -/
def execFifoWr (n : BitVec 5) (data : Buffer) (s : State) : Host.Outcome State Fault Refusal :=
  if n.toNat ≤ bufLen then
    let s1 := s.begin .fifoWr { n := n, data := data }
    conclude ((fifoWr (s1.lat.data.toList.take s1.lat.n.toNat) s1).andThen fun _ s' => .ok { value := .none } s')
  else reject (.lengthOutOfRange n) s

/-- L.flush (R53, R98): the level byte 0x80 written, the flush signal (log 8). -/
def execLFlush (s : State) : Host.Outcome State Fault Refusal :=
  conclude ((regWr .fifoLevel flushWord (s.begin .fifoFlush {})).andThen fun _ s' => .ok { value := .none } s')

/-- L.level (R53, R95, R96): the count a level byte as read stands for, bit 7 masked off (log 8). -/
def execLLevel (flushBit : Bool) (level : BitVec 7) (s : State) : Host.Outcome State Fault Refusal :=
  .next (s.succeed
    { value := .byte ((levelOf (levelRowByte flushBit level)).zeroExtend 8)
      count := some (levelOf (levelRowByte flushBit level)).toNat })

end Sys2Proof.Machine
end

