-- ==== Sys2Proof/Machine/CommandEngine.lean ====
section
/-! DEFINITION. The Command Engine (44_command_engine.md): SEND_CMD and its poll loop, MEM_WRITE, MEM_READ, VER_CLS,
GET_VERSION, GEN_RAND_ID, and the three rows of format V. An operation runs within one step up to its end, or up to a
poll that does not find the chip Idle; each further step polls once more (R110, R181; log 5). -/

namespace Sys2Proof.Machine

/-! ### SEND_CMD -/

/-- The status byte SEND_CMD writes for a code (R81, R110): "power-down off, receiver on". -/
def commandByte (p : Params) (c : CommandCode) : Byte := statusByte c p.pwrDownOff p.rcvOn

/-- The start of `SEND_CMD(code)` (R110): the write frame, and no poll yet. -/
def sendStart (c : CommandCode) (s : State) : Run Unit :=
  ifBound (fun s => (regWr .command (commandByte s.cfg c) s).andThen fun _ s' => .ok () (s'.setPolls 0)) s

/-- One turn of the poll loop (R110): the budget test comes first (R159), then one read of Command. The result says whether
it decoded as Idle (R82). -/
def pollOnce (s : State) : Run Bool :=
  if budgetSpent s.cfg.pollBudget s.seq.polls then .fail .chipTimeout s
  else
    (regRd .command 1 .tmp s).andThen fun _ s' => .ok (isIdle s'.seq.tmp) (s'.setPolls (s'.seq.polls + 1))

/-- One turn of the poll loop, then what follows an Idle, or the wait for the next turn. -/
def pollThen (k : State → Run Result) (s : State) : Run Result :=
  (pollOnce s).andThen fun idle s' => if idle then k s' else .wait s'

/-- `SEND_CMD(code)` with what follows it: the write, then the first poll (R110, R112). -/
def sendCmdThen (c : CommandCode) (w : Wait) (k : State → Run Result) (s : State) : Run Result :=
  (sendStart c s).andThen fun _ s' => pollThen k (s'.setWait w)

/-! ### What follows the Idle of each SEND_CMD -/

/-- After SEND_CMD itself (R110): nothing. -/
def afterSendCmd (s : State) : Run Result := .ok { value := .none } s

/-- After MEM_WRITE's SEND_CMD (R113): the fixed report. -/
def afterMemWrite (s : State) : Run Result :=
  .ok { value := .command (.bytesWritten memWriteReport), count := some memWriteReport } s

/-- The report of MEM_READ (R114). -/
def bytesReadResult (l : BitVec 7) : Result :=
  { value := .command (.bytesRead l.toNat), count := some l.toNat }

/-- After MEM_READ's SEND_CMD (R114): the FIFO_RD into the answer buffer. -/
def afterMemRead (s : State) : Run Result :=
  (fifoRd .ans s).andThen fun l s' => .ok (bytesReadResult l) s'

/-- Bytes go to the diagnostic sink, in order (R120). -/
def State.emit (s : State) (bytes : List Byte) : State := { s with sink := s.sink ++ bytes }

/-- The end of GEN_RAND_ID (R118): the generated bytes go to the sink and the result is NoAnswer; under
ROUTE_RANDOM_ID = true, not chosen (D27), they are in the answer buffer and the result is BytesRead; that nothing goes to the
sink then is the model's choice (log 19). -/
def afterGenFetch (s : State) : Run Result :=
  if s.cfg.routeRandomId then
    (fifoRd .ans s).andThen fun l s' => .ok (bytesReadResult l) s'
  else
    (fifoRd .loc s).andThen fun l s' =>
      .ok { value := .command .noAnswer } (s'.emit (s'.seq.loc.toList.take l.toNat))

/-- After GEN_RAND_ID's SEND_CMD GenerateRandomId (R118): its MEM_READ. -/
def afterGenGenerate (s : State) : Run Result :=
  ifBound (fun s => (fifoFlush s).andThen fun _ s' => sendCmdThen .mem .genFetch afterGenFetch s') s

/-- After GEN_RAND_ID's MEM_WRITE, whose report is dropped (R118): its SEND_CMD GenerateRandomId. -/
def afterGenClear (s : State) : Run Result :=
  sendCmdThen .generateRandomId .genGenerate afterGenGenerate s

/-! ### The operations -/

/-- SEND_CMD code (R110): a reserved code is refused with ReservedCommandCode before anything else (R59, R159). -/
def execSendCmd (code : BitVec 4) (s : State) : Host.Outcome State Fault Refusal :=
  match cmdOf code with
  | .known c => conclude (sendCmdThen c .sendCmd afterSendCmd (s.begin .sendCmd { code := code }))
  | .unknown _ => reject (.reservedCommandCode code) s

/-- MEM_WRITE declared_len, payload (R113): all 25 bytes, whatever declared_len is. -/
def execMemWrite (_declaredLen : Byte) (payload : Buffer) (s : State) : Host.Outcome State Fault Refusal :=
  conclude
    (ifBound (fun s => (fifoWr s.lat.data.toList s).andThen fun _ s' => sendCmdThen .mem .memWrite afterMemWrite s')
      (s.beginLocked .memWrite { data := payload }))

/-- MEM_READ (R114). -/
def execMemRead (s : State) : Host.Outcome State Fault Refusal :=
  conclude
    (ifBound (fun s => (fifoFlush s).andThen fun _ s' => sendCmdThen .mem .memRead afterMemRead s')
      (s.beginLocked .memRead {}))

/-- GET_VERSION (R117): an unknown version byte is the failure UnrecognizedDevice. -/
def getVersion (s : State) : Run Result :=
  (regRd .version 1 .tmp s).andThen fun _ s' =>
    match verClass s'.seq.tmp with
    | .unknown b => .fail (.unrecognizedDevice b) s'
    | v => .ok { value := .version v } s'

/-- GET_VERSION (R117). -/
def execGetVersion (s : State) : Host.Outcome State Fault Refusal :=
  conclude (ifBound getVersion (s.beginLocked .getVersion {}))

/-- GEN_RAND_ID (R118): MEM_WRITE of 25 zero bytes, SEND_CMD GenerateRandomId, MEM_READ into the local buffer. -/
def execGenRandId (s : State) : Host.Outcome State Fault Refusal :=
  conclude
    (ifBound
      (fun s => (fifoWr Buffer.zero.toList s).andThen fun _ s' => sendCmdThen .mem .genClear afterGenClear s')
      (s.beginLocked .genRandId {}))

/-- VER_CLS b (R116): pure and total. -/
def execVerCls (b : Byte) (s : State) : Host.Outcome State Fault Refusal := answer (.version (verClass b)) s

/-- V.Version1 (R54, R116). -/
def execVVersion1 (s : State) : Host.Outcome State Fault Refusal := answer (.version (verClass 0x91)) s

/-- V.Version2 (R54, R116). -/
def execVVersion2 (s : State) : Host.Outcome State Fault Refusal := answer (.version (verClass 0x92)) s

/-- V.Unknown(b) (R54, R116). -/
def execVUnknown (b : Byte) (s : State) : Host.Outcome State Fault Refusal := answer (.version (verClass b)) s

/-! ### Going on after a poll that was not Idle -/

/-- The next turn of the poll loop that waits, and what follows its Idle (R110, R112). -/
def resume (s : State) : Host.Outcome State Fault Refusal :=
  match s.seq.wait with
  | .idle => .fault .ownedWithoutOperation
  | .sendCmd => conclude (pollThen afterSendCmd s)
  | .memWrite => conclude (pollThen afterMemWrite s)
  | .memRead => conclude (pollThen afterMemRead s)
  | .genClear => conclude (pollThen afterGenClear s)
  | .genGenerate => conclude (pollThen afterGenGenerate s)
  | .genFetch => conclude (pollThen afterGenFetch s)

end Sys2Proof.Machine
end

