-- ==== Sys2Proof/Machine/Formats.lean ====
section
/-! DEFINITION. The reserved value of the operation select (R59). -/

namespace Sys2Proof.Machine

/-- op = 0xF (R59): it selects no operation; the request is refused, no state changes and no frame is issued (R171, U20). -/
def execReservedOp (_s : State) : Host.Outcome State Fault Refusal :=
  .refused .reservedOp

end Sys2Proof.Machine
end

