-- ==== Sys2Proof/Machine/StatusCodec.lean ====
section
/-! DEFINITION. The command/status codec (41_status_codec.md): STAT_ENC, STAT_DEC, and the sixteen rows of format S. -/

namespace Sys2Proof.Machine

/-- STAT_ENC code, pwr, rcv (R75), its three operands latched (R16): a reserved code is refused with ReservedCommandCode
before anything else (R59, R159). -/
def execStatEnc (code : BitVec 4) (pwr rcv : Bool) (s : State) : Host.Outcome State Fault Refusal :=
  match cmdOf code with
  | .known c =>
    let s1 := s.latch { code := code, pwr := pwr, rcv := rcv }
    answer (.byte (statusByte c s1.lat.pwr s1.lat.rcv)) s1
  | .unknown _ => reject (.reservedCommandCode code) s

/-- STAT_DEC b (R77): pure and total on all 256 bytes. -/
def execStatDec (b : Byte) (s : State) : Host.Outcome State Fault Refusal :=
  answer (.decoded (rcvOf b) (pwrOf b) (cmdField b)) s

/-- A status byte of a defined code (R18, R52): the byte STAT_ENC writes for its fields (R75), with bits 7 and 6 written 0,
and the triple STAT_DEC reads from the byte as it stands, bits 7 and 6 ignored (R77; log 8). -/
def statusRowValue (rsv : BitVec 2) (rcv pwr : Bool) (c : CommandCode) : Value :=
  .status (statusByte c pwr rcv) (rcvOf (statusRowByte rsv rcv pwr c.num)) (pwrOf (statusRowByte rsv rcv pwr c.num))
    (cmdField (statusRowByte rsv rcv pwr c.num))

/-- A status byte of a reserved code (R78): decode only, and the code is kept. -/
def reservedRowValue (rsv : BitVec 2) (rcv pwr : Bool) (code : BitVec 4) : Value :=
  .decoded (rcvOf (statusRowByte rsv rcv pwr code)) (pwrOf (statusRowByte rsv rcv pwr code))
    (cmdField (statusRowByte rsv rcv pwr code))

/-- S.Idle (R75, R77): CMD = 0. -/
def execSIdle (rsv : BitVec 2) (rcv pwr : Bool) (s : State) : Host.Outcome State Fault Refusal :=
  answer (statusRowValue rsv rcv pwr .idle) s

/-- S.Mem (R75, R77): CMD = 1. -/
def execSMem (rsv : BitVec 2) (rcv pwr : Bool) (s : State) : Host.Outcome State Fault Refusal :=
  answer (statusRowValue rsv rcv pwr .mem) s

/-- S.GenerateRandomId (R75, R77): CMD = 2. -/
def execSGenerateRandomId (rsv : BitVec 2) (rcv pwr : Bool) (s : State) : Host.Outcome State Fault Refusal :=
  answer (statusRowValue rsv rcv pwr .generateRandomId) s

/-- S.CalcCrc (R75, R77): CMD = 3. -/
def execSCalcCrc (rsv : BitVec 2) (rcv pwr : Bool) (s : State) : Host.Outcome State Fault Refusal :=
  answer (statusRowValue rsv rcv pwr .calcCrc) s

/-- S.Transmit (R75, R77): CMD = 4. -/
def execSTransmit (rsv : BitVec 2) (rcv pwr : Bool) (s : State) : Host.Outcome State Fault Refusal :=
  answer (statusRowValue rsv rcv pwr .transmit) s

/-- S.NoCmdChange (R75, R77): CMD = 7. -/
def execSNoCmdChange (rsv : BitVec 2) (rcv pwr : Bool) (s : State) : Host.Outcome State Fault Refusal :=
  answer (statusRowValue rsv rcv pwr .noCmdChange) s

/-- S.Receive (R75, R77): CMD = 8. -/
def execSReceive (rsv : BitVec 2) (rcv pwr : Bool) (s : State) : Host.Outcome State Fault Refusal :=
  answer (statusRowValue rsv rcv pwr .receive) s

/-- S.Transceive (R75, R77): CMD = 12. -/
def execSTransceive (rsv : BitVec 2) (rcv pwr : Bool) (s : State) : Host.Outcome State Fault Refusal :=
  answer (statusRowValue rsv rcv pwr .transceive) s

/-- S.MfAuthent (R75, R77): CMD = 14. -/
def execSMfAuthent (rsv : BitVec 2) (rcv pwr : Bool) (s : State) : Host.Outcome State Fault Refusal :=
  answer (statusRowValue rsv rcv pwr .mfAuthent) s

/-- S.SoftReset (R75, R77): CMD = 15. -/
def execSSoftReset (rsv : BitVec 2) (rcv pwr : Bool) (s : State) : Host.Outcome State Fault Refusal :=
  answer (statusRowValue rsv rcv pwr .softReset) s

/-- S.Unknown(5) (R78): decode only. -/
def execSUnknown5 (rsv : BitVec 2) (rcv pwr : Bool) (s : State) : Host.Outcome State Fault Refusal :=
  answer (reservedRowValue rsv rcv pwr 5) s

/-- S.Unknown(6) (R78): decode only. -/
def execSUnknown6 (rsv : BitVec 2) (rcv pwr : Bool) (s : State) : Host.Outcome State Fault Refusal :=
  answer (reservedRowValue rsv rcv pwr 6) s

/-- S.Unknown(9) (R78): decode only. -/
def execSUnknown9 (rsv : BitVec 2) (rcv pwr : Bool) (s : State) : Host.Outcome State Fault Refusal :=
  answer (reservedRowValue rsv rcv pwr 9) s

/-- S.Unknown(10) (R78): decode only. -/
def execSUnknown10 (rsv : BitVec 2) (rcv pwr : Bool) (s : State) : Host.Outcome State Fault Refusal :=
  answer (reservedRowValue rsv rcv pwr 10) s

/-- S.Unknown(11) (R78): decode only. -/
def execSUnknown11 (rsv : BitVec 2) (rcv pwr : Bool) (s : State) : Host.Outcome State Fault Refusal :=
  answer (reservedRowValue rsv rcv pwr 11) s

/-- S.Unknown(13) (R78): decode only. -/
def execSUnknown13 (rsv : BitVec 2) (rcv pwr : Bool) (s : State) : Host.Outcome State Fault Refusal :=
  answer (reservedRowValue rsv rcv pwr 13) s

end Sys2Proof.Machine
end

