-- ==== Sys2Proof/Machine/TextFrontEnd.lean ====
section
/-! DEFINITION. The text front end (45_text_front_end.md): PARSE, split over the four rows of the table by the command its
line names (log 13). It reads and writes no state of the block and no bus. -/

namespace Sys2Proof.Machine

/-- An ASCII digit (R140). -/
def isDigit (c : Byte) : Bool := decide (0x30 ≤ c.toNat) && decide (c.toNat ≤ 0x39)

/-- The decimal value of digits (R140); leading zeros count for nothing. -/
def decimal (tok : List Byte) : Nat := tok.foldl (fun v c => 10 * v + (c.toNat - 0x30)) 0

/-- A token of one or more ASCII digits (R140). -/
def isDigits (tok : List Byte) : Bool := !tok.isEmpty && tok.all isDigit

/-- The token `+` followed by digits, the case R140 leaves OPEN. -/
def isPlusDigits (tok : List Byte) : Bool :=
  match tok with
  | c :: rest => decide (c = 0x2B) && isDigits rest
  | [] => false

/-- The value of a token that is an unsigned byte (R140): digits alone, at most 255. -/
def unsignedByte (tok : List Byte) : Option Nat :=
  if isDigits tok && decide (decimal tok ≤ 255) then some (decimal tok) else none

/-- What PARSE answers on its domain and beyond it (R130, R144): an operation, an error, or no result (R140). -/
inductive ParseOutcome where
  | operation (o : Operation)
  | error (e : ParseError)
  | undefined
  deriving DecidableEq, Repr

/-- The operation of a command that takes no argument (R131); MemWrite takes one. -/
def simpleOperation : TextCommand → Option Operation
  | .memRead => some .memRead
  | .getVersion => some .getVersion
  | .genRandId => some .genRandId
  | .memWrite => none

/-- PARSE after the name is resolved (R130), the tests in the document's order: simple form (R133); the length token (R135,
R140); the data token (R136); whether the command takes an argument (R137). -/
def parseArgs (c : TextCommand) (args : TextArgs) : ParseOutcome :=
  match args with
  | .simple =>
    match simpleOperation c with
    | some o => .operation o
    | none => .error .invalidArgNumber
  | .complex lenTok dataTok =>
    if lenTok = [] then .error .invalidArgNumber
    else if isPlusDigits lenTok then .undefined
    else
      match unsignedByte lenTok with
      | none => .error .invalidDataLen
      | some d =>
        if d > declaredLenMax then .error .dataLenTooBig
        else
          match dataTok with
          | none => .error .invalidArgNumber
          | some data =>
            match c with
            | .memWrite => .operation (.memWrite (Fin.ofNat 26 d) (bufferOf data))
            | .memRead => .error .invalidArgNumber
            | .getVersion => .error .invalidArgNumber
            | .genRandId => .error .invalidArgNumber

/-- What PARSE returns: an Operation, a ParseError as the failure (R143, R150), or the refusal where the spec gives no
result. -/
def parseResult (p : ParseOutcome) (s : State) : Host.Outcome State Fault Refusal :=
  match p with
  | .operation o => .next (s.parseReturns (.ok (.operation o) none))
  | .error e => .next (s.parseReturns (.failed (.parse e)))
  | .undefined => .refused .plusSign

/-- PARSE of a line that names mem_read (R130). -/
def execParseMemRead (args : TextArgs) (s : State) : Host.Outcome State Fault Refusal :=
  parseResult (parseArgs .memRead args) s

/-- PARSE of a line that names mem_write (R130). -/
def execParseMemWrite (args : TextArgs) (s : State) : Host.Outcome State Fault Refusal :=
  parseResult (parseArgs .memWrite args) s

/-- PARSE of a line that names get_version (R130). -/
def execParseGetVersion (args : TextArgs) (s : State) : Host.Outcome State Fault Refusal :=
  parseResult (parseArgs .getVersion args) s

/-- PARSE of a line that names gen_rand_id (R130). -/
def execParseGenRandId (args : TextArgs) (s : State) : Host.Outcome State Fault Refusal :=
  parseResult (parseArgs .genRandId args) s

end Sys2Proof.Machine
end

