-- ==== Sys2Proof/Machine/Dispatch.lean ====
section
/-! DEFINITION. The meaning of every row of spec/opcode_table.json: one arm per constructor. -/

namespace Sys2Proof.Machine

def exec (i : Instr) (s : State) : Host.Outcome State Fault Refusal :=
  match i with
  | .addrEnc m a => Sys2Proof.Machine.execAddrEnc m a s
  | .statEnc code pwr rcv => Sys2Proof.Machine.execStatEnc code pwr rcv s
  | .statDec b => Sys2Proof.Machine.execStatDec b s
  | .regRd reg n => Sys2Proof.Machine.execRegRd reg n s
  | .regWr reg v => Sys2Proof.Machine.execRegWr reg v s
  | .fifoLvl => Sys2Proof.Machine.execFifoLvl s
  | .fifoFlush => Sys2Proof.Machine.execFifoFlush s
  | .fifoRd => Sys2Proof.Machine.execFifoRd s
  | .fifoWr n data => Sys2Proof.Machine.execFifoWr n data s
  | .sendCmd code => Sys2Proof.Machine.execSendCmd code s
  | .memWrite declaredLen payload => Sys2Proof.Machine.execMemWrite declaredLen payload s
  | .memRead => Sys2Proof.Machine.execMemRead s
  | .getVersion => Sys2Proof.Machine.execGetVersion s
  | .genRandId => Sys2Proof.Machine.execGenRandId s
  | .verCls b => Sys2Proof.Machine.execVerCls b s
  | .reservedOp => Sys2Proof.Machine.execReservedOp s
  | .parseMemRead args => Sys2Proof.Machine.execParseMemRead args s
  | .parseMemWrite args => Sys2Proof.Machine.execParseMemWrite args s
  | .parseGetVersion args => Sys2Proof.Machine.execParseGetVersion args s
  | .parseGenRandId args => Sys2Proof.Machine.execParseGenRandId args s
  | .aCommandRead => Sys2Proof.Machine.execACommandRead s
  | .aCommandWrite => Sys2Proof.Machine.execACommandWrite s
  | .aFifoDataRead => Sys2Proof.Machine.execAFifoDataRead s
  | .aFifoDataWrite => Sys2Proof.Machine.execAFifoDataWrite s
  | .aFifoLevelRead => Sys2Proof.Machine.execAFifoLevelRead s
  | .aFifoLevelWrite => Sys2Proof.Machine.execAFifoLevelWrite s
  | .aVersionRead => Sys2Proof.Machine.execAVersionRead s
  | .aVersionWrite => Sys2Proof.Machine.execAVersionWrite s
  | .sIdle rsv rcv pwr => Sys2Proof.Machine.execSIdle rsv rcv pwr s
  | .sMem rsv rcv pwr => Sys2Proof.Machine.execSMem rsv rcv pwr s
  | .sGenerateRandomId rsv rcv pwr => Sys2Proof.Machine.execSGenerateRandomId rsv rcv pwr s
  | .sCalcCrc rsv rcv pwr => Sys2Proof.Machine.execSCalcCrc rsv rcv pwr s
  | .sTransmit rsv rcv pwr => Sys2Proof.Machine.execSTransmit rsv rcv pwr s
  | .sNoCmdChange rsv rcv pwr => Sys2Proof.Machine.execSNoCmdChange rsv rcv pwr s
  | .sReceive rsv rcv pwr => Sys2Proof.Machine.execSReceive rsv rcv pwr s
  | .sTransceive rsv rcv pwr => Sys2Proof.Machine.execSTransceive rsv rcv pwr s
  | .sMfAuthent rsv rcv pwr => Sys2Proof.Machine.execSMfAuthent rsv rcv pwr s
  | .sSoftReset rsv rcv pwr => Sys2Proof.Machine.execSSoftReset rsv rcv pwr s
  | .sUnknown5 rsv rcv pwr => Sys2Proof.Machine.execSUnknown5 rsv rcv pwr s
  | .sUnknown6 rsv rcv pwr => Sys2Proof.Machine.execSUnknown6 rsv rcv pwr s
  | .sUnknown9 rsv rcv pwr => Sys2Proof.Machine.execSUnknown9 rsv rcv pwr s
  | .sUnknown10 rsv rcv pwr => Sys2Proof.Machine.execSUnknown10 rsv rcv pwr s
  | .sUnknown11 rsv rcv pwr => Sys2Proof.Machine.execSUnknown11 rsv rcv pwr s
  | .sUnknown13 rsv rcv pwr => Sys2Proof.Machine.execSUnknown13 rsv rcv pwr s
  | .lFlush => Sys2Proof.Machine.execLFlush s
  | .lLevel flushBit level => Sys2Proof.Machine.execLLevel flushBit level s
  | .vVersion1 => Sys2Proof.Machine.execVVersion1 s
  | .vVersion2 => Sys2Proof.Machine.execVVersion2 s
  | .vUnknown b => Sys2Proof.Machine.execVUnknown b s
  | .readFrame reg => Sys2Proof.Machine.execReadFrame reg s
  | .writeFrame reg d => Sys2Proof.Machine.execWriteFrame reg d s

end Sys2Proof.Machine
end

