-- ==== Sys2Proof/Machine/Fetch.lean ====
section
/-! DEFINITION. What a step calls: running the bytes of an input, serving an event, going on with an operation that
waits between two polls. -/

namespace Sys2Proof.Machine

/-- Bytes the decoder rejects. A line that names no command has PARSE's error as its result (R131, R133, R134; log 13);
the rest have no meaning in the spec. -/
def rejectBytes (e : DecodeError) (s : State) : Host.Outcome State Fault Refusal :=
  match e with
  | .noCommand p => .next (s.parseReturns (.failed (.parse p)))
  | .notUtf8 => .refused .notUtf8
  | .extraFields => .refused .extraFields
  | .badLength => .refused .notAnEncoding
  | .oddAddressByte => .refused .notAnEncoding
  | .unnamedAddress => .refused .notAnEncoding
  | .notFlushWord => .refused .notAnEncoding
  | .malformedFrame => .refused .notAnEncoding

/-- Decode the bytes of an input and run what they stand for. -/
def runBytes (f : Format) (bytes : List Byte) (s : State) : Host.Outcome State Fault Refusal :=
  match decode s.cfg f bytes with
  | .instr i => exec i s
  | .rejected e => rejectBytes e s

/-- The operation of a text line that was accepted (R139). -/
def State.accepted (s : State) : Option Operation :=
  match s.parsed with
  | some (.ok (.operation o) none) => some o
  | _ => none

/-- A text line for the Command Engine: PARSE it and, when it gives an operation, hand that to the engine as the next
event of the same source, before any other (R139; log 22). -/
def runLine (src : Nat) (text : List Byte) (s : State) : Host.Outcome State Fault Refusal :=
  match runBytes .text text s with
  | .next s' =>
    match s'.accepted with
    | some o => .next { s' with held := ⟨src, .operation o⟩ :: s'.held }
    | none => .next s'
  | .fault r => .fault r
  | .refused r => .refused r

/-- Serve one event (R11, R12, R64, R139, R175, R178). An unbind leaves the transport's number as it is (log 18). -/
def serve (src : Nat) (e : Event) (s : State) : Host.Outcome State Fault Refusal :=
  match e with
  | .request f bytes => runBytes f bytes s
  | .line text => runLine src text s
  | .operation o => exec o.toInstr s
  | .writeAns v => .next { s with ans := v }
  | .bind t => .next { s with bound := true, transport := t }
  | .unbind => .next { s with bound := false }
  | .reset => .next s.resetKeeping

end Sys2Proof.Machine
end

