-- ==== Sys2Proof/Machine/Step.lean ====
section
/-! DEFINITION. One step of the block, and placing a word of the opcode table as its next request. -/

namespace Sys2Proof.Machine

/-- One step. A reset that waits is served at once (R175; log 17). While an operation waits in its poll loop either PARSE takes
a line of another source (R168; log 24) or the operation polls once more; everything else that waits is held (R27, R178), a
write of the answer buffer too (log 26). Otherwise one waiting event is served, on its source's own answer buffer (R168;
log 27); with none, the block waits for a request (R175). -/
def step (s : State) : Host.Outcome State Fault Refusal :=
  match s.resetNow with
  | some h => serve h.src h.ev (s.take h)
  | none =>
    if s.owned then
      match s.lineNow with
      | some h => serve h.src h.ev (s.take h)
      | none => resume s
    else
      match s.nextHeld with
      | some h => serve h.src h.ev (s.take h)
      | none => .next s

/-- A word of the opcode table as the block's next request: the one event that waits, on a block that is not owned
(log 9). -/
def State.withFetchWord (s : State) (nbits w : Nat) : State :=
  { s with
    held := [⟨0, .request (tableFormat nbits w) (tableBytes (tableFormat nbits w) w)⟩]
    seq := Seq.cleared
    lat := Latches.cleared
    locked := false }

end Sys2Proof.Machine
end

