-- ==== Sys2Proof/WellFormed.lean ====
section
/-! DEFINITION. Well-formed instructions: the operands R56, R83, R130 and R54 give each row. An ill-formed instruction of
format R is still an instruction (R59): its meaning says how it is refused. -/

namespace Sys2Proof

/-- A token of a text line holds no ':' byte (R130, R141). -/
def tokenOk (tok : List Byte) : Bool := !tok.contains colon

/-- What stands after a command name: tokens without ':', and the whole line valid UTF-8 (R130). -/
def textArgsOk (c : TextCommand) (args : TextArgs) : Bool :=
  (match args with
    | .simple => true
    | .complex lenTok none => tokenOk lenTok
    | .complex lenTok (some dataTok) => tokenOk lenTok && tokenOk dataTok)
    && utf8Valid (lineOf c args)

/-- A byte count of REG_RD or FIFO_WR (R56): 0 to 25. -/
def countOk (n : BitVec 5) : Bool := decide (n.toNat ≤ 25)

/-- The operands of a row are those the spec gives it. -/
def Instr.wellFormed (i : Instr) : Bool :=
  match i with
  | .addrEnc _ a => decide (a ≤ 0x3F)
  | .statEnc code _ _ => isDefinedCode code
  | .statDec _ => true
  | .regRd _ n => countOk n
  | .regWr _ _ => true
  | .fifoLvl => true
  | .fifoFlush => true
  | .fifoRd => true
  | .fifoWr n _ => countOk n
  | .sendCmd code => isDefinedCode code
  | .memWrite d _ => decide (d.toNat ≤ 25)
  | .memRead => true
  | .getVersion => true
  | .genRandId => true
  | .verCls _ => true
  | .reservedOp => true
  | .parseMemRead args => textArgsOk .memRead args
  | .parseMemWrite args => textArgsOk .memWrite args
  | .parseGetVersion args => textArgsOk .getVersion args
  | .parseGenRandId args => textArgsOk .genRandId args
  | .aCommandRead => true
  | .aCommandWrite => true
  | .aFifoDataRead => true
  | .aFifoDataWrite => true
  | .aFifoLevelRead => true
  | .aFifoLevelWrite => true
  | .aVersionRead => true
  | .aVersionWrite => true
  | .sIdle _ _ _ => true
  | .sMem _ _ _ => true
  | .sGenerateRandomId _ _ _ => true
  | .sCalcCrc _ _ _ => true
  | .sTransmit _ _ _ => true
  | .sNoCmdChange _ _ _ => true
  | .sReceive _ _ _ => true
  | .sTransceive _ _ _ => true
  | .sMfAuthent _ _ _ => true
  | .sSoftReset _ _ _ => true
  | .sUnknown5 _ _ _ => true
  | .sUnknown6 _ _ _ => true
  | .sUnknown9 _ _ _ => true
  | .sUnknown10 _ _ _ => true
  | .sUnknown11 _ _ _ => true
  | .sUnknown13 _ _ _ => true
  | .lFlush => true
  | .lLevel _ _ => true
  | .vVersion1 => true
  | .vVersion2 => true
  | .vUnknown b => decide (b ≠ 0x91 ∧ b ≠ 0x92)
  | .readFrame _ => true
  | .writeFrame _ _ => true

end Sys2Proof
end

