-- ==== Sys2Proof/Safety.lean ====
section
/-! DEFINITION. The terms claims use: the frames a run of the block may put on the bus, the invariant of a run, what the
outside answers to a sequence of calls, and the ways an operation leaves the state. -/

namespace Sys2Proof.Machine

/-! ### Kinds of rows -/

/-- The rows whose operation can issue a frame, and so tests `bound` first (R56, R154). -/
def usesBus (i : Instr) : Bool :=
  match i with
  | .regRd _ _ | .regWr _ _ | .fifoLvl | .fifoFlush | .fifoRd | .fifoWr _ _ | .sendCmd _ | .memWrite _ _ | .memRead
  | .getVersion | .genRandId | .lFlush | .readFrame _ | .writeFrame _ _ => true
  | .addrEnc _ _ | .statEnc _ _ _ | .statDec _ | .verCls _ | .reservedOp
  | .parseMemRead _ | .parseMemWrite _ | .parseGetVersion _ | .parseGenRandId _
  | .aCommandRead | .aCommandWrite | .aFifoDataRead | .aFifoDataWrite | .aFifoLevelRead | .aFifoLevelWrite
  | .aVersionRead | .aVersionWrite
  | .sIdle _ _ _ | .sMem _ _ _ | .sGenerateRandomId _ _ _ | .sCalcCrc _ _ _ | .sTransmit _ _ _ | .sNoCmdChange _ _ _
  | .sReceive _ _ _ | .sTransceive _ _ _ | .sMfAuthent _ _ _ | .sSoftReset _ _ _
  | .sUnknown5 _ _ _ | .sUnknown6 _ _ _ | .sUnknown9 _ _ _ | .sUnknown10 _ _ _ | .sUnknown11 _ _ _ | .sUnknown13 _ _ _
  | .lLevel _ _ | .vVersion1 | .vVersion2 | .vUnknown _ => false

/-- The failure a request of format R is refused with before anything else, when an operand has a value the operation does
not take (R59, R159). -/
def operandRefusal (i : Instr) : Option Failure :=
  match i with
  | .statEnc code _ _ => if isDefinedCode code then none else some (.reservedCommandCode code)
  | .sendCmd code => if isDefinedCode code then none else some (.reservedCommandCode code)
  | .regRd _ n => if n.toNat ≤ 25 then none else some (.lengthOutOfRange n)
  | .fifoWr n _ => if n.toNat ≤ 25 then none else some (.lengthOutOfRange n)
  | _ => none

/-! ### Frames and the trace -/

/-- The transaction of a call and its reply, as the trace records it (R9). -/
def entry (c : BusCall) (r : Reply) : Transaction := ⟨c, recorded c r⟩

/-- A transaction of the two shapes the block uses (R33, R34, R35, R90): the read frame of a register, with one byte back,
or the write frame of a register, with none. -/
def Transaction.legal (p : Params) (t : Transaction) : Prop :=
  (∃ r reply, t = entry (readCall p r) reply) ∨ (∃ r v reply, t = entry (writeCall p r v) reply)

/-- The replies the outside gives to calls issued one after another from a state (R38, R42). -/
def State.replies (s : State) : List BusCall → List Reply
  | [] => []
  | c :: cs => (s.answerOf c).1 :: (s.afterCall c).replies cs

/-- The state after calls issued one after another, all else as it is. -/
def State.afterCalls (s : State) : List BusCall → State
  | [] => s
  | c :: cs => (s.afterCall c).afterCalls cs

/-- Between `s` and `t` exactly these calls were issued, in this order, and answered so (R42). -/
def Issued (s t : State) (calls : List BusCall) (replies : List Reply) : Prop :=
  s.replies calls = replies
    ∧ t.trace = s.trace ++ List.zipWith entry calls replies
    ∧ t.oracle = (s.afterCalls calls).oracle

/-- The trace of read frames on one register that brought these bytes. -/
def readEntries (p : Params) (r : Reg) (bytes : List Byte) : List Transaction :=
  bytes.map fun b => entry (readCall p r) (.ok b)

/-- The trace of write frames on one register that took these bytes. -/
def writeEntries (p : Params) (r : Reg) (bytes : List Byte) : List Transaction :=
  bytes.map fun b => entry (writeCall p r b) (.ok 0)

/-- None of the replies is Err. -/
def AllOk (replies : List Reply) : Prop := ∀ r ∈ replies, r ≠ .err

/-! ### How an operation leaves the state -/

/-- An operation ended with a response: sequencer state and latches cleared, lock free (R13, R121, R160). -/
def EndsWith (t : State) (r : Response) : Prop :=
  t.seq = Seq.cleared ∧ t.lat = Latches.cleared ∧ t.locked = false ∧ t.resp = some r

/-- What an operation of the block leaves alone: parameters, device handle, whose turn it is, the other requesters' answer buffers, and
the inputs that wait. What PARSE returned before is gone (R24). -/
def KeepsOutside (s t : State) : Prop :=
  t.cfg = s.cfg ∧ t.bound = s.bound ∧ t.transport = s.transport ∧ t.owner = s.owner ∧ t.answers = s.answers ∧ t.held = s.held
    ∧ t.parsed = none

/-- A pure operation's whole effect: the response, and nothing else but that no operation is in progress (R70, R75, R77, R116). -/
def AnswersOnly (s t : State) (r : Response) : Prop :=
  EndsWith t r ∧ KeepsOutside s t ∧ t.ans = s.ans ∧ t.trace = s.trace ∧ t.sink = s.sink ∧ t.oracle = s.oracle
    ∧ t.tick = s.tick

/-- The operation that a wait belongs to (R13, R112), which is the compound one where SEND_CMD is its inner step (log 29). -/
def Wait.op : Wait → Option OpName
  | .idle => none
  | .sendCmd => some .sendCmd
  | .memWrite => some .memWrite
  | .memRead => some .memRead
  | .genClear => some .genRandId
  | .genGenerate => some .genRandId
  | .genFetch => some .genRandId

/-- A SEND_CMD waits between two polls (R110, R112): the operation is in progress, there is no response (log 12), the last
poll was not Idle. -/
def Waiting (t : State) (w : Wait) : Prop :=
  t.seq.busy = true ∧ t.seq.wait = w ∧ t.seq.curOp = w.op ∧ t.resp = none ∧ isIdle t.seq.tmp = false

/-- What an operation that issued these calls leaves: it ended with the response, nothing outside it changed, and the trace
and the outside moved on by exactly the calls and their replies (R42). Answer buffer and sink are said beside it. -/
def Ended (s t : State) (r : Response) (calls : List BusCall) (replies : List Reply) : Prop :=
  EndsWith t r ∧ KeepsOutside s t ∧ Issued s t calls replies

/-- The calls of `SEND_CMD c` with `k` polls (R110): the write of "power-down off, receiver on" with the code, then the reads. -/
def sendCalls (p : Params) (c : CommandCode) (k : Nat) : List BusCall :=
  writeCall p .command (statusByte c p.pwrDownOff p.rcvOn) :: List.replicate k (readCall p .command)

/-- The replies of a SEND_CMD that succeeds (R110): Ok to the write, polls that are not Idle, one that is. -/
def sendReplies (x : Byte) (busy : List Byte) (idle : Byte) : List Reply :=
  Reply.ok x :: (busy ++ [idle]).map Reply.ok

/-- Polls a SEND_CMD can make (R110, R82, R153): none of the first is Idle, the last is, and the budget allows them all. -/
def PollsOk (p : Params) (busy : List Byte) (idle : Byte) : Prop :=
  (∀ b ∈ busy, isIdle b = false) ∧ isIdle idle = true ∧ ∀ k, p.pollBudget = some k → busy.length < k

/-- A number in decimal, as ASCII bytes (R142). -/
def decimalBytes (n : Nat) : List Byte := (Nat.toDigits 10 n).map fun c => BitVec.ofNat 8 c.toNat

/-- A response that carries BusError, with whatever index (R150, R151). -/
def isBusError (r : Response) : Prop := ∃ i, r = .failed (.busError i)

/-- The new entries of a piece that met no Err (R42). -/
def noErr (new : List Transaction) : Prop := ∀ x ∈ new, x.answer ≠ .err

/-- The new entries up to the first failure (R42, R91, R151): only the last one may be Err, and it is exactly when the
failure is BusError. -/
def stopsAtErr (bus : Prop) (new : List Transaction) : Prop :=
  noErr new.dropLast ∧ (bus ↔ ∃ x, new.getLast? = some x ∧ x.answer = .err)

/-! ### The invariant -/

/-- The canonical form of the answer buffers of the requesters whose turn it is not: sources rising, the owner not among them, and
none that has what an unlisted one has. -/
def answersWf (owner : Nat) (l : List (Nat × Buffer)) : Prop :=
  l.Pairwise (fun a b => a.1 < b.1) ∧ ∀ e ∈ l, e.1 ≠ owner ∧ e.2 ≠ Buffer.zero

/-- What holds between two steps of every run: parameters within the limits of R6; the index within the count and the count
within 25 (R13); between operations everything cleared (R13, R27); otherwise a SEND_CMD that waits after at least one poll
and within the budget, on a bound device, the lock held exactly by a compound operation (R110, R121, R154, R178); on the
trace nothing but frames of the two shapes (R33, R90); and the canonical form of `answers` (log 27). -/
structure State.Inv (s : State) : Prop where
  params : s.cfg.wf
  index : s.seq.i ≤ s.seq.n ∧ s.seq.n ≤ 25
  between : s.seq.busy = false → s.seq = Seq.cleared ∧ s.lat = Latches.cleared ∧ s.locked = false
  waiting : s.seq.busy = true → Waiting s s.seq.wait ∧ s.seq.wait ≠ .idle ∧ s.bound = true
  lock : s.seq.busy = true → (s.locked = true ↔ s.seq.wait ≠ .sendCmd)
  budget : s.seq.busy = true → 1 ≤ s.seq.polls ∧ ∀ k, s.cfg.pollBudget = some k → s.seq.polls ≤ k
  frames : ∀ t ∈ s.trace, Transaction.legal s.cfg t
  answers : answersWf s.owner s.answers

/-- No reset waits to be served at once. -/
def NoReset (s : State) : Prop := s.resetNow = none

/-- Nothing that waits goes before an operation that polls: no reset (log 17) and no line of another source (log 24). -/
def Quiet (s : State) : Prop := NoReset s ∧ s.readyLines = []

/-- The four rows that are lines of text (R131). -/
def isTextRow (i : Instr) : Bool := i matches .parseMemRead _ | .parseMemWrite _ | .parseGetVersion _ | .parseGenRandId _

/-- `k` steps that all give a next state. -/
def stepsTo : Nat → State → Option State
  | 0, s => some s
  | k + 1, s =>
    match step s with
    | .next s' => stepsTo k s'
    | .fault _ => none
    | .refused _ => none

/-- A safe step: not a fault. -/
def Safe (o : Host.Outcome State Fault Refusal) : Prop := ∀ f, o ≠ .fault f

end Sys2Proof.Machine
end

