-- ==== Sys2Proof/Certificates/Slice0/Obligations.lean ====
section
/-! DEFINITION. The statements for the provers. Each docstring names the rules of spec/ it formalises; where a statement rests
on a choice of the model, it names the log entry. -/

open Sys2Proof Sys2Proof.Machine

/-! ### The address-byte encoder -/

/-- R70: ADDR_ENC answers for every mode bit and every `a`, with the mode in bit 7 and `a` modulo 64 in bits 6 to 1, and
does nothing else. -/
def Obligations.AddrEncCompletes : Prop :=
  ∀ (m : Bool) (a : Nat) (s : State), ∃ t ab,
    exec (.addrEnc m a) s = .next t ∧ AnswersOnly s t (.ok (.byte ab) none) ∧ ab.toNat = 128 * bitNat m + 2 * (a % 64)

/-- R71: the three properties of the byte ADDR_ENC answers. -/
def Obligations.AddressByteBits : Prop :=
  ∀ (m : Bool) (a : Nat) (s : State), a ≤ 0x3F → ∃ t ab,
    exec (.addrEnc m a) s = .next t ∧ t.resp = some (.ok (.byte ab) none)
      ∧ ab.getLsbD 0 = false ∧ ab.getLsbD 7 = m ∧ (ab.extractLsb' 1 6).toNat = a

/-- R72: injective for `a` in 0 to 0x3F, with the inverse `m = ab[7]`, `a = ab[6:1]` on even bytes, so that the header of a
frame gives back mode and register. -/
def Obligations.AddressByteInverse : Prop :=
  (∀ (m m' : Bool) (a a' : Nat), a ≤ 0x3F → a' ≤ 0x3F → addrByte m a = addrByte m' a' → m = m' ∧ a = a')
    ∧ (∀ (m : Bool) (a : Nat), a ≤ 0x3F → headerFields (addrByte m a) = some (m, BitVec.ofNat 6 a))
    ∧ (∀ ab : Byte, ab.getLsbD 0 = false → addrByte (ab.getLsbD 7) (ab.extractLsb' 1 6).toNat = ab)
    ∧ (∀ (p : Params) (r : Reg), p.wf →
        decodeHeader p (p.readHeader r) = .inl (r, true) ∧ decodeHeader p (p.writeHeader r) = .inl (r, false))

/-- R74 (the meaning of a row of format A is log 8): the eight header bytes, each the mode bit of its direction and the
register's address. -/
def Obligations.AddressRowsComplete : Prop :=
  ∀ (s : State),
    let row := fun (i : Instr) (m : Bool) (a : BitVec 6) => ∃ t ab,
      exec i s = .next t ∧ AnswersOnly s t (.ok (.byte ab) none) ∧ ab.toNat = 128 * bitNat m + 2 * a.toNat
    row .aCommandRead s.cfg.modeRead s.cfg.addrCommand
      ∧ row .aCommandWrite (!s.cfg.modeRead) s.cfg.addrCommand
      ∧ row .aFifoDataRead s.cfg.modeRead s.cfg.addrFifoData
      ∧ row .aFifoDataWrite (!s.cfg.modeRead) s.cfg.addrFifoData
      ∧ row .aFifoLevelRead s.cfg.modeRead s.cfg.addrFifoLevel
      ∧ row .aFifoLevelWrite (!s.cfg.modeRead) s.cfg.addrFifoLevel
      ∧ row .aVersionRead s.cfg.modeRead s.cfg.addrVersion
      ∧ row .aVersionWrite (!s.cfg.modeRead) s.cfg.addrVersion

/-! ### The command/status codec -/

/-- R83: `num` and `cmd_of`. -/
def Obligations.CommandCodeTable : Prop :=
  CommandCode.idle.num = 0 ∧ CommandCode.mem.num = 1 ∧ CommandCode.generateRandomId.num = 2
    ∧ CommandCode.calcCrc.num = 3 ∧ CommandCode.transmit.num = 4 ∧ CommandCode.noCmdChange.num = 7
    ∧ CommandCode.receive.num = 8 ∧ CommandCode.transceive.num = 12 ∧ CommandCode.mfAuthent.num = 14
    ∧ CommandCode.softReset.num = 15
    ∧ (∀ c d : CommandCode, c.num = d.num → c = d)
    ∧ (∀ c : CommandCode, cmdOf c.num = .known c)
    ∧ (∀ code : BitVec 4, (∃ c : CommandCode, c.num = code) ∨ code ∈ [5, 6, 9, 10, 11, 13])
    ∧ (∀ code ∈ [(5 : BitVec 4), 6, 9, 10, 11, 13], cmdOf code = .unknown code)

/-- R75, R76: STAT_ENC of a defined code answers `rcv`, `pwr` and the code's number in their places, bits 7 and 6 clear, and
does nothing else. -/
def Obligations.StatEncCompletes : Prop :=
  ∀ (c : CommandCode) (pwr rcv : Bool) (s : State), ∃ t b,
    exec (.statEnc c.num pwr rcv) s = .next t ∧ AnswersOnly s t (.ok (.byte b) none)
      ∧ b.toNat = 32 * bitNat rcv + 16 * bitNat pwr + c.num.toNat

/-- R77, R78, R82: STAT_DEC answers for every byte: bit 5, bit 4, and the code of bits 3 to 0; the Idle test is on those four
bits alone. -/
def Obligations.StatDecCompletes : Prop :=
  ∀ (b : Byte) (s : State), ∃ t,
    exec (.statDec b) s = .next t
      ∧ AnswersOnly s t (.ok (.decoded (decide (b.toNat / 32 % 2 = 1)) (decide (b.toNat / 16 % 2 = 1))
          (cmdOf (BitVec.ofNat 4 (b.toNat % 16)))) none)
      ∧ (isIdle b = true ↔ b.toNat % 16 = 0)

/-- R79: STAT_DEC of what STAT_ENC answered gives the three operands back. -/
def Obligations.DecodeAfterEncode : Prop :=
  ∀ (c : CommandCode) (pwr rcv : Bool) (s : State), ∃ t b u,
    exec (.statEnc c.num pwr rcv) s = .next t ∧ t.resp = some (.ok (.byte b) none)
      ∧ exec (.statDec b) t = .next u ∧ u.resp = some (.ok (.decoded rcv pwr (.known c)) none)

/-- R80: STAT_ENC of what STAT_DEC answered gives the byte with bits 7 and 6 cleared; for a reserved code there is nothing to
encode. -/
def Obligations.EncodeAfterDecode : Prop :=
  ∀ (b : Byte) (s : State), ∃ t rcv pwr cmd,
    exec (.statDec b) s = .next t ∧ t.resp = some (.ok (.decoded rcv pwr cmd) none)
      ∧ (∀ c, cmd = .known c → ∃ u, exec (.statEnc c.num pwr rcv) t = .next u ∧ u.resp = some (.ok (.byte (b &&& 0x3F)) none))
      ∧ (∀ code, cmd = .unknown code → code = b.extractLsb' 0 4
          ∧ ∃ u, exec (.statEnc code pwr rcv) t = .next u ∧ u.resp = some (.failed (.reservedCommandCode code)))
      ∧ (b &&& 0x3F = b ↔ b.getLsbD 7 = false ∧ b.getLsbD 6 = false)

/-- R52, R75, R77, R78 (the meaning of a row of format S is log 8): a row of a defined code answers the byte STAT_ENC writes for
its fields and the triple STAT_DEC reads from it, whatever bits 7 and 6 are; a row of a reserved code answers the triple. -/
def Obligations.StatusRowsComplete : Prop :=
  ∀ (rsv : BitVec 2) (rcv pwr : Bool) (s : State),
    let row := fun (i : Instr) (c : CommandCode) (num : Nat) => ∃ t b,
      exec i s = .next t ∧ AnswersOnly s t (.ok (.status b rcv pwr (.known c)) none)
        ∧ b.toNat = 32 * bitNat rcv + 16 * bitNat pwr + num
    let reserved := fun (i : Instr) (code : BitVec 4) => ∃ t,
      exec i s = .next t ∧ AnswersOnly s t (.ok (.decoded rcv pwr (.unknown code)) none)
    row (.sIdle rsv rcv pwr) .idle 0 ∧ row (.sMem rsv rcv pwr) .mem 1
      ∧ row (.sGenerateRandomId rsv rcv pwr) .generateRandomId 2 ∧ row (.sCalcCrc rsv rcv pwr) .calcCrc 3
      ∧ row (.sTransmit rsv rcv pwr) .transmit 4 ∧ row (.sNoCmdChange rsv rcv pwr) .noCmdChange 7
      ∧ row (.sReceive rsv rcv pwr) .receive 8 ∧ row (.sTransceive rsv rcv pwr) .transceive 12
      ∧ row (.sMfAuthent rsv rcv pwr) .mfAuthent 14 ∧ row (.sSoftReset rsv rcv pwr) .softReset 15
      ∧ reserved (.sUnknown5 rsv rcv pwr) 5 ∧ reserved (.sUnknown6 rsv rcv pwr) 6 ∧ reserved (.sUnknown9 rsv rcv pwr) 9
      ∧ reserved (.sUnknown10 rsv rcv pwr) 10 ∧ reserved (.sUnknown11 rsv rcv pwr) 11
      ∧ reserved (.sUnknown13 rsv rcv pwr) 13

/-! ### Version and level bytes -/

/-- R116, R54: VER_CLS answers for every byte, the three rows of format V for theirs, and nothing else happens. -/
def Obligations.VersionRowsComplete : Prop :=
  ∀ (s : State),
    let row := fun (i : Instr) (v : ChipVersion) => ∃ t,
      exec i s = .next t ∧ AnswersOnly s t (.ok (.version v) none)
    row (.verCls 0x91) .version1 ∧ row (.verCls 0x92) .version2
      ∧ (∀ b : Byte, b ≠ 0x91 → b ≠ 0x92 → row (.verCls b) (.unknown b) ∧ row (.vUnknown b) (.unknown b))
      ∧ row .vVersion1 .version1 ∧ row .vVersion2 .version2

/-- R96, R95: FIFO_LVL on a bound device answers the level byte with bit 7 masked off, as value and as count (log 12), after one read
frame; nothing else changes. A level byte as read (the row L.level, log 8) stands for the same count. -/
def Obligations.FifoLvlCompletes : Prop :=
  ∀ (s : State) (b : Byte),
    (s.bound = true → s.replies [readCall s.cfg .fifoLevel] = [.ok b] → ∃ t,
      exec .fifoLvl s = .next t
        ∧ Ended s t (.ok (.byte (b &&& 0x7F)) (some (b &&& 0x7F).toNat)) [readCall s.cfg .fifoLevel] [.ok b]
        ∧ t.ans = s.ans ∧ t.sink = s.sink)
    ∧ b &&& 0x7F = (b.extractLsb' 0 7).zeroExtend 8
    ∧ ∃ t, exec (.lLevel (b.getLsbD 7) (b.extractLsb' 0 7)) s = .next t
        ∧ AnswersOnly s t (.ok (.byte (b &&& 0x7F)) (some (b &&& 0x7F).toNat))

/-! ### Register access -/

/-- R85, R86: REG_RD of a count up to 25 on a bound device whose frames are all answered Ok: one read frame for each byte, the
bytes in rising positions of the answer buffer, the positions past the count as they were. The response has no value and no
count, which for REG_RD is log 12. The read frame (log 8) answers its byte and leaves the answer buffer alone. -/
def Obligations.ReadsComplete : Prop :=
  ∀ (r : Reg) (s : State), s.bound = true →
    (∀ (n : BitVec 5) (bytes : List Byte), n.toNat ≤ 25 → bytes.length = n.toNat →
      s.replies (List.replicate n.toNat (readCall s.cfg r)) = bytes.map Reply.ok → ∃ t,
        exec (.regRd r n) s = .next t
          ∧ Ended s t (.ok .none none) (List.replicate n.toNat (readCall s.cfg r)) (bytes.map Reply.ok)
          ∧ t.ans.toList = bytes ++ s.ans.toList.drop n.toNat ∧ t.sink = s.sink)
    ∧ (∀ b : Byte, s.replies [readCall s.cfg r] = [.ok b] → ∃ t,
        exec (.readFrame r) s = .next t ∧ Ended s t (.ok (.byte b) none) [readCall s.cfg r] [.ok b]
          ∧ t.ans = s.ans ∧ t.sink = s.sink)

/-- R85, R48, R151: a REG_RD whose frame number `k` fails ends with BusError after `k + 1` frames; the bytes before are in the
answer buffer, the positions after are as they were, and of position `k` nothing is said (a free value, log 4). A read frame
that fails leaves the answer buffer alone. -/
def Obligations.ReadsFail : Prop :=
  ∀ (r : Reg) (s : State), s.bound = true →
    (∀ (n : BitVec 5) (bytes : List Byte), n.toNat ≤ 25 → bytes.length < n.toNat →
      s.replies (List.replicate (bytes.length + 1) (readCall s.cfg r)) = bytes.map Reply.ok ++ [.err] → ∃ t,
        exec (.regRd r n) s = .next t
          ∧ Ended s t (.failed (.busError (some bytes.length))) (List.replicate (bytes.length + 1) (readCall s.cfg r))
              (bytes.map Reply.ok ++ [.err])
          ∧ t.ans.toList.take bytes.length = bytes
          ∧ t.ans.toList.drop (bytes.length + 1) = s.ans.toList.drop (bytes.length + 1) ∧ t.sink = s.sink)
    ∧ (s.replies [readCall s.cfg r] = [.err] → ∃ t k,
        exec (.readFrame r) s = .next t ∧ Ended s t (.failed (.busError k)) [readCall s.cfg r] [.err]
          ∧ t.ans = s.ans ∧ t.sink = s.sink)

/-- R87, R88, R98: the operations of one write frame on a bound device: REG_WR and the write frame with any byte (log 28), FIFO_FLUSH
and the row L.flush (log 8) with 0x80 on FifoLevel. Ok ends with success, with no value and no count (log 12), Err with
BusError; nothing else changes. -/
def Obligations.WritesComplete : Prop :=
  ∀ (r : Reg) (v : Byte) (s : State), s.bound = true →
    let row := fun (i : Instr) (call : BusCall) =>
      (∀ x, s.replies [call] = [.ok x] → ∃ t,
        exec i s = .next t ∧ Ended s t (.ok .none none) [call] [.ok x] ∧ t.ans = s.ans ∧ t.sink = s.sink)
      ∧ (s.replies [call] = [.err] → ∃ t k,
        exec i s = .next t ∧ Ended s t (.failed (.busError k)) [call] [.err] ∧ t.ans = s.ans ∧ t.sink = s.sink)
    row (.regWr r v) (writeCall s.cfg r v) ∧ row (.writeFrame r v) (writeCall s.cfg r v)
      ∧ row .fifoFlush (writeCall s.cfg .fifoLevel 0x80) ∧ row .lFlush (writeCall s.cfg .fifoLevel 0x80)

/-- R89: what REG_RD and REG_WR append to the trace, in every case: on success `n` equal read frames, or the one write frame; on
BusError a proper prefix of them and the one failed frame; on a failure without a frame (DeviceNotBound, LengthOutOfRange)
nothing. REG_WR takes any byte for any register (log 28). -/
def Obligations.RegisterTraceLaw : Prop :=
  ∀ (s t : State) (r : Reg),
    (∀ n : BitVec 5, exec (.regRd r n) s = .next t →
      let frame := fun reply => entry (.wtr [addrByte s.cfg.modeRead (s.cfg.addrOf r).toNat] 1) reply
      (∀ v c, t.resp = some (.ok v c) → ∃ bytes : List Byte,
        bytes.length = n.toNat ∧ t.trace = s.trace ++ bytes.map fun b => frame (.ok b))
      ∧ (∀ k, t.resp = some (.failed (.busError k)) → ∃ bytes : List Byte,
        bytes.length < n.toNat ∧ t.trace = s.trace ++ (bytes.map fun b => frame (.ok b)) ++ [frame .err])
      ∧ (∀ f, t.resp = some (.failed f) → (∀ k, f ≠ .busError k) → t.trace = s.trace))
    ∧ (∀ v : Byte, exec (.regWr r v) s = .next t →
      let frame := fun reply => entry (.w [addrByte s.cfg.modeWrite (s.cfg.addrOf r).toNat, v]) reply
      (∀ x c, t.resp = some (.ok x c) → t.trace = s.trace ++ [frame (.ok 0)])
      ∧ (∀ k, t.resp = some (.failed (.busError k)) → t.trace = s.trace ++ [frame .err])
      ∧ (∀ f, t.resp = some (.failed f) → (∀ k, f ≠ .busError k) → t.trace = s.trace))

/-! ### The FIFO sequencer -/

/-- R100: FIFO_RD on a bound device that reports a level of at most 25: one read of the level, then exactly that many reads of
FifoData into the first positions of the answer buffer, the rest as it was; the count is the level. -/
def Obligations.FifoRdCompletes : Prop :=
  ∀ (s : State) (lb : Byte) (bytes : List Byte),
    let calls := readCall s.cfg .fifoLevel :: List.replicate bytes.length (readCall s.cfg .fifoData)
    s.bound = true → bytes.length = lb.toNat % 128 → bytes.length ≤ 25 →
    s.replies calls = Reply.ok lb :: bytes.map Reply.ok → ∃ t,
      exec .fifoRd s = .next t ∧ Ended s t (.ok .none (some bytes.length)) calls (Reply.ok lb :: bytes.map Reply.ok)
        ∧ t.ans.toList = bytes ++ s.ans.toList.drop bytes.length ∧ t.sink = s.sink

/-- R100, R101: how FIFO_RD fails on a bound device: BusError on the level read; FifoLevelExceedsBuffer above 25, under the
policy the spec decides (D10); BusError on a data byte, the bytes before it kept and the positions after it as they were. -/
def Obligations.FifoRdFails : Prop :=
  ∀ (s : State), s.bound = true →
    (s.replies [readCall s.cfg .fifoLevel] = [.err] → ∃ t k,
      exec .fifoRd s = .next t ∧ Ended s t (.failed (.busError k)) [readCall s.cfg .fifoLevel] [.err]
        ∧ t.ans = s.ans ∧ t.sink = s.sink)
    ∧ (∀ lb : Byte, s.cfg.levelOver = .fault → 25 < lb.toNat % 128 → s.replies [readCall s.cfg .fifoLevel] = [.ok lb] → ∃ t,
      exec .fifoRd s = .next t
        ∧ Ended s t (.failed (.fifoLevelExceedsBuffer (BitVec.ofNat 7 (lb.toNat % 128)))) [readCall s.cfg .fifoLevel] [.ok lb]
        ∧ t.ans = s.ans ∧ t.sink = s.sink)
    ∧ (∀ (lb : Byte) (bytes : List Byte), lb.toNat % 128 ≤ 25 → bytes.length < lb.toNat % 128 →
      let calls := readCall s.cfg .fifoLevel :: List.replicate (bytes.length + 1) (readCall s.cfg .fifoData)
      s.replies calls = Reply.ok lb :: (bytes.map Reply.ok ++ [.err]) → ∃ t,
        exec .fifoRd s = .next t
          ∧ Ended s t (.failed (.busError (some bytes.length))) calls (Reply.ok lb :: (bytes.map Reply.ok ++ [.err]))
          ∧ t.ans.toList.take bytes.length = bytes
          ∧ t.ans.toList.drop (bytes.length + 1) = s.ans.toList.drop (bytes.length + 1) ∧ t.sink = s.sink)

/-- R103: FIFO_WR of a count up to 25 on a bound device: the first `n` bytes in order, one write frame each; at the first frame
that fails it stops with BusError and sends nothing more. The response has no value and no count, which for FIFO_WR is log 12.
The answer buffer is not touched. -/
def Obligations.FifoWrCompletes : Prop :=
  ∀ (n : BitVec 5) (data : Buffer) (s : State), s.bound = true → n.toNat ≤ 25 →
    let calls := fun k => (data.toList.take k).map (writeCall s.cfg .fifoData)
    (∀ rs : List Byte, s.replies (calls n.toNat) = rs.map Reply.ok → ∃ t,
      exec (.fifoWr n data) s = .next t ∧ Ended s t (.ok .none none) (calls n.toNat) (rs.map Reply.ok)
        ∧ t.ans = s.ans ∧ t.sink = s.sink)
    ∧ (∀ rs : List Byte, rs.length < n.toNat → s.replies (calls (rs.length + 1)) = rs.map Reply.ok ++ [.err] → ∃ t,
      exec (.fifoWr n data) s = .next t
        ∧ Ended s t (.failed (.busError (some rs.length))) (calls (rs.length + 1)) (rs.map Reply.ok ++ [.err])
        ∧ t.ans = s.ans ∧ t.sink = s.sink)

/-- R105: what a successful operation of the family appends to the trace (FIFO_RD under the policy the spec decides). -/
def Obligations.FifoTraceLaws : Prop :=
  ∀ (s t : State),
    (∀ v c, exec .fifoLvl s = .next t → t.resp = some (.ok v c) → ∃ b,
      t.trace = s.trace ++ [entry (readCall s.cfg .fifoLevel) (.ok b)])
    ∧ (∀ v c, exec .fifoFlush s = .next t → t.resp = some (.ok v c) →
      t.trace = s.trace ++ [entry (writeCall s.cfg .fifoLevel 0x80) (.ok 0)])
    ∧ (∀ v c, s.cfg.levelOver = .fault → exec .fifoRd s = .next t → t.resp = some (.ok v c) → ∃ lb bytes,
      c = some bytes.length
        ∧ t.trace = s.trace ++ entry (readCall s.cfg .fifoLevel) (.ok lb) :: readEntries s.cfg .fifoData bytes)
    ∧ (∀ n data v c, exec (.fifoWr n data) s = .next t → t.resp = some (.ok v c) →
      n.toNat ≤ 25 ∧ t.trace = s.trace ++ writeEntries s.cfg .fifoData (data.toList.take n.toNat))

/-! ### The Command Engine -/

/-- R110: SEND_CMD of a defined code on a bound device whose first poll is Idle completes with two frames, the write of
"power-down off, receiver on" with the code and one read, and gives no value and no count (log 12). -/
def Obligations.SendCmdCompletes : Prop :=
  ∀ (c : CommandCode) (s : State) (x idle : Byte), s.bound = true → s.cfg.wf → isIdle idle = true →
    s.replies (sendCalls s.cfg c 1) = [.ok x, .ok idle] → ∃ t,
      exec (.sendCmd c.num) s = .next t ∧ Ended s t (.ok .none none) (sendCalls s.cfg c 1) [.ok x, .ok idle]
        ∧ t.ans = s.ans ∧ t.sink = s.sink

/-- R110, R112, R123: otherwise SEND_CMD on a bound device waits after a poll that is not Idle (log 5), with no response
(log 12), or ends with BusError on the write (one frame) or on the poll. -/
def Obligations.SendCmdWaitsOrFails : Prop :=
  ∀ (c : CommandCode) (s : State), s.bound = true → s.cfg.wf →
    (∀ x b, isIdle b = false → s.replies (sendCalls s.cfg c 1) = [.ok x, .ok b] → ∃ t,
      exec (.sendCmd c.num) s = .next t ∧ Waiting t .sendCmd ∧ t.seq.polls = 1 ∧ t.seq.tmp = b ∧ t.locked = s.locked
        ∧ KeepsOutside s t ∧ Issued s t (sendCalls s.cfg c 1) [.ok x, .ok b] ∧ t.ans = s.ans ∧ t.sink = s.sink)
    ∧ (s.replies (sendCalls s.cfg c 0) = [.err] → ∃ t k,
      exec (.sendCmd c.num) s = .next t ∧ Ended s t (.failed (.busError k)) (sendCalls s.cfg c 0) [.err]
        ∧ t.ans = s.ans ∧ t.sink = s.sink)
    ∧ (∀ x, s.replies (sendCalls s.cfg c 1) = [.ok x, .err] → ∃ t k,
      exec (.sendCmd c.num) s = .next t ∧ Ended s t (.failed (.busError k)) (sendCalls s.cfg c 1) [.ok x, .err]
        ∧ t.ans = s.ans ∧ t.sink = s.sink)

/-- R110, R153, R159: one turn of the poll loop (log 5), for every SEND_CMD that waits, whatever operation it belongs to, when no
reset and no line goes before it (log 17, log 24). The budget test comes first: a spent budget is ChipTimeout with no frame.
Otherwise one read of Command: not Idle goes on waiting with one poll more (with no response, log 12, and `cur_op` as it was,
log 29), Err is BusError, and Idle ends a SEND_CMD of its own, with no count (log 12). -/
def Obligations.PollTurn : Prop :=
  ∀ (s : State) (w : Wait), Quiet s → s.bound = true → Waiting s w → w ≠ .idle →
    (budgetSpent s.cfg.pollBudget s.seq.polls = true → ∃ t,
      step s = .next t ∧ Ended s t (.failed .chipTimeout) [] [] ∧ t.ans = s.ans ∧ t.sink = s.sink)
    ∧ (budgetSpent s.cfg.pollBudget s.seq.polls = false →
      (∀ b, isIdle b = false → s.replies [readCall s.cfg .command] = [.ok b] → ∃ t,
        step s = .next t ∧ Waiting t w ∧ t.seq.polls = s.seq.polls + 1 ∧ t.seq.tmp = b ∧ t.locked = s.locked
          ∧ t.lat = s.lat ∧ KeepsOutside s t ∧ Issued s t [readCall s.cfg .command] [.ok b] ∧ t.ans = s.ans
          ∧ t.sink = s.sink)
      ∧ (s.replies [readCall s.cfg .command] = [.err] → ∃ t k,
        step s = .next t ∧ Ended s t (.failed (.busError k)) [readCall s.cfg .command] [.err]
          ∧ t.ans = s.ans ∧ t.sink = s.sink)
      ∧ (∀ b, w = .sendCmd → isIdle b = true → s.replies [readCall s.cfg .command] = [.ok b] → ∃ t,
        step s = .next t ∧ Ended s t (.ok .none none) [readCall s.cfg .command] [.ok b] ∧ t.ans = s.ans ∧ t.sink = s.sink))

/-- R110, R153, R122: SEND_CMD over its whole run, with no reset and no line that goes before its polls (log 17, log 24): after any
number of polls that are not Idle and that the budget allows, one that is ends it, with `1 + p` frames and no count (log 12);
with a budget of `k` and `k` polls that are not Idle it ends with ChipTimeout after exactly `k` polls. That each step of the run is
one further poll is the model's choice (log 5). -/
def Obligations.SendCmdAfterPolls : Prop :=
  ∀ (c : CommandCode) (s : State) (x : Byte) (busy : List Byte), s.bound = true → s.cfg.wf → Quiet s →
    (∀ idle, PollsOk s.cfg busy idle →
      s.replies (sendCalls s.cfg c (busy.length + 1)) = sendReplies x busy idle → ∃ t0 t,
        exec (.sendCmd c.num) s = .next t0 ∧ stepsTo busy.length t0 = some t
          ∧ Ended s t (.ok .none none) (sendCalls s.cfg c (busy.length + 1)) (sendReplies x busy idle)
          ∧ t.ans = s.ans ∧ t.sink = s.sink)
    ∧ (s.cfg.pollBudget = some busy.length → (∀ b ∈ busy, isIdle b = false) →
      s.replies (sendCalls s.cfg c busy.length) = Reply.ok x :: busy.map Reply.ok → ∃ t0 t,
        exec (.sendCmd c.num) s = .next t0 ∧ stepsTo busy.length t0 = some t
          ∧ Ended s t (.failed .chipTimeout) (sendCalls s.cfg c busy.length) (Reply.ok x :: busy.map Reply.ok)
          ∧ t.ans = s.ans ∧ t.sink = s.sink)

/-- R113: MEM_WRITE on a bound device, all frames Ok and the first poll Idle: 25 write frames whatever declared_len is (log 20 for
one above 25), then SEND_CMD Mem, and the fixed report of 25. -/
def Obligations.MemWriteCompletes : Prop :=
  ∀ (d : Byte) (payload : Buffer) (s : State) (rs : List Byte) (idle : Byte),
    let calls := payload.toList.map (writeCall s.cfg .fifoData) ++ sendCalls s.cfg .mem 1
    s.bound = true → s.cfg.wf → isIdle idle = true → s.replies calls = (rs ++ [idle]).map Reply.ok → ∃ t,
      exec (.memWrite d payload) s = .next t
        ∧ Ended s t (.ok (.command (.bytesWritten 25)) (some 25)) calls ((rs ++ [idle]).map Reply.ok)
        ∧ t.ans = s.ans ∧ t.sink = s.sink

/-- R114: MEM_READ on a bound device, all frames Ok, the first poll Idle and a level of at most 25: the flush, SEND_CMD Mem, the
FIFO_RD into the answer buffer, and the level as the report. -/
def Obligations.MemReadCompletes : Prop :=
  ∀ (s : State) (x y idle lb : Byte) (bytes : List Byte),
    let calls := writeCall s.cfg .fifoLevel 0x80 :: sendCalls s.cfg .mem 1
      ++ readCall s.cfg .fifoLevel :: List.replicate bytes.length (readCall s.cfg .fifoData)
    let replies := Reply.ok x :: sendReplies y [] idle ++ Reply.ok lb :: bytes.map Reply.ok
    s.bound = true → s.cfg.wf → isIdle idle = true → bytes.length = lb.toNat % 128 → bytes.length ≤ 25 →
    s.replies calls = replies → ∃ t,
      exec .memRead s = .next t
        ∧ Ended s t (.ok (.command (.bytesRead bytes.length)) (some bytes.length)) calls replies
        ∧ t.ans.toList = bytes ++ s.ans.toList.drop bytes.length ∧ t.sink = s.sink

/-- R117, R152: GET_VERSION on a bound device: one read of Version; the two known bytes are the two versions, every other byte is
UnrecognizedDevice, Err is BusError. The answer buffer is not touched. -/
def Obligations.GetVersionCompletes : Prop :=
  ∀ (s : State), s.bound = true →
    (∀ b : Byte, s.replies [readCall s.cfg .version] = [.ok b] →
      (b = 0x91 → ∃ t, exec .getVersion s = .next t
        ∧ Ended s t (.ok (.version .version1) none) [readCall s.cfg .version] [.ok b] ∧ t.ans = s.ans ∧ t.sink = s.sink)
      ∧ (b = 0x92 → ∃ t, exec .getVersion s = .next t
        ∧ Ended s t (.ok (.version .version2) none) [readCall s.cfg .version] [.ok b] ∧ t.ans = s.ans ∧ t.sink = s.sink)
      ∧ (b ≠ 0x91 → b ≠ 0x92 → ∃ t, exec .getVersion s = .next t
        ∧ Ended s t (.failed (.unrecognizedDevice b)) [readCall s.cfg .version] [.ok b] ∧ t.ans = s.ans ∧ t.sink = s.sink))
    ∧ (s.replies [readCall s.cfg .version] = [.err] → ∃ t k, exec .getVersion s = .next t
        ∧ Ended s t (.failed (.busError k)) [readCall s.cfg .version] [.err] ∧ t.ans = s.ans ∧ t.sink = s.sink)

/-- R118, R120: GEN_RAND_ID on a bound device, every frame Ok, every first poll Idle and a level of at most 25, under the routing
the spec decides (D27): 25 zero bytes written, SEND_CMD Mem, SEND_CMD GenerateRandomId, the flush, SEND_CMD Mem, the FIFO_RD;
the bytes go to the sink in order, the answer buffer is not touched, and the result is NoAnswer. -/
def Obligations.GenRandIdCompletes : Prop :=
  ∀ (s : State) (rs : List Byte) (x1 x2 x3 x4 i1 i2 i3 lb : Byte) (bytes : List Byte),
    let calls := List.replicate 25 (writeCall s.cfg .fifoData 0) ++ sendCalls s.cfg .mem 1
      ++ sendCalls s.cfg .generateRandomId 1 ++ writeCall s.cfg .fifoLevel 0x80 :: sendCalls s.cfg .mem 1
      ++ readCall s.cfg .fifoLevel :: List.replicate bytes.length (readCall s.cfg .fifoData)
    let replies := rs.map Reply.ok ++ sendReplies x1 [] i1 ++ sendReplies x2 [] i2 ++ Reply.ok x3 :: sendReplies x4 [] i3
      ++ Reply.ok lb :: bytes.map Reply.ok
    s.bound = true → s.cfg.wf → s.cfg.routeRandomId = false → isIdle i1 = true → isIdle i2 = true → isIdle i3 = true →
    bytes.length = lb.toNat % 128 → bytes.length ≤ 25 → rs.length = 25 → s.replies calls = replies → ∃ t,
      exec .genRandId s = .next t ∧ Ended s t (.ok (.command .noAnswer) none) calls replies
        ∧ t.ans = s.ans ∧ t.sink = s.sink ++ bytes

/-- R122, R112, R113, R114, R118: the compound operations over their whole run, with no reset and no line that goes before their
polls (log 17, log 24), after any polls that the budget allows: MEM_WRITE with `25 + 1 + p` frames, MEM_READ with
`1 + (1 + p) + (1 + N)`, GEN_RAND_ID with `(26 + p1) + (1 + p2) + (3 + p3 + N)`. That each step of the run is one further poll is
the model's choice (log 5), and so is that a MEM_WRITE of a declared_len above 25 runs (log 20). -/
def Obligations.CompoundsAfterPolls : Prop :=
  ∀ (s : State) (rs : List Byte) (x1 x2 x3 x4 i1 i2 i3 lb : Byte) (b1 b2 b3 bytes : List Byte),
    let read := readCall s.cfg .fifoLevel :: List.replicate bytes.length (readCall s.cfg .fifoData)
    let readOk := Reply.ok lb :: bytes.map Reply.ok
    s.bound = true → s.cfg.wf → Quiet s → PollsOk s.cfg b1 i1 → rs.length = 25 →
    (∀ (d : Byte) (payload : Buffer),
      let calls := payload.toList.map (writeCall s.cfg .fifoData) ++ sendCalls s.cfg .mem (b1.length + 1)
      let replies := rs.map Reply.ok ++ sendReplies x1 b1 i1
      s.replies calls = replies → ∃ t0 t,
        exec (.memWrite d payload) s = .next t0 ∧ stepsTo b1.length t0 = some t
          ∧ Ended s t (.ok (.command (.bytesWritten 25)) (some 25)) calls replies ∧ t.ans = s.ans ∧ t.sink = s.sink)
    ∧ (bytes.length = lb.toNat % 128 → bytes.length ≤ 25 →
      (let calls := writeCall s.cfg .fifoLevel 0x80 :: sendCalls s.cfg .mem (b1.length + 1) ++ read
       let replies := Reply.ok x3 :: sendReplies x1 b1 i1 ++ readOk
       s.replies calls = replies → ∃ t0 t,
        exec .memRead s = .next t0 ∧ stepsTo b1.length t0 = some t
          ∧ Ended s t (.ok (.command (.bytesRead bytes.length)) (some bytes.length)) calls replies
          ∧ t.ans.toList = bytes ++ s.ans.toList.drop bytes.length ∧ t.sink = s.sink)
      ∧ (PollsOk s.cfg b2 i2 → PollsOk s.cfg b3 i3 → s.cfg.routeRandomId = false →
        let calls := List.replicate 25 (writeCall s.cfg .fifoData 0) ++ sendCalls s.cfg .mem (b1.length + 1)
          ++ sendCalls s.cfg .generateRandomId (b2.length + 1)
          ++ writeCall s.cfg .fifoLevel 0x80 :: sendCalls s.cfg .mem (b3.length + 1) ++ read
        let replies := rs.map Reply.ok ++ sendReplies x1 b1 i1 ++ sendReplies x2 b2 i2
          ++ Reply.ok x3 :: sendReplies x4 b3 i3 ++ readOk
        s.replies calls = replies → ∃ t0 t,
          exec .genRandId s = .next t0 ∧ stepsTo (b1.length + b2.length + b3.length) t0 = some t
            ∧ Ended s t (.ok (.command .noAnswer) none) calls replies ∧ t.ans = s.ans ∧ t.sink = s.sink ++ bytes))

/-- R115, R117, R153: how a compound operation can fail, at once or after waiting: the failures of MEM_WRITE, MEM_READ and
GEN_RAND_ID are DeviceNotBound, BusError, ChipTimeout and, for the two that read the FIFO, FifoLevelExceedsBuffer; those of
GET_VERSION are DeviceNotBound, BusError and UnrecognizedDevice. R114, R118, R101, R123: a level above 25, under the policy the
spec decides (D10), ends MEM_READ and GEN_RAND_ID, after any polls the budget allows (steps: log 5), with that
FifoLevelExceedsBuffer, after exactly their frames up to the level read, answer buffer and sink as they were. -/
def Obligations.CompoundFailures : Prop :=
  (∀ (s t : State) (f : Failure), t.resp = some (.failed f) →
    (∀ d payload, exec (.memWrite d payload) s = .next t → f = .deviceNotBound ∨ (∃ k, f = .busError k) ∨ f = .chipTimeout)
    ∧ ((exec .memRead s = .next t ∨ exec .genRandId s = .next t) →
      f = .deviceNotBound ∨ (∃ k, f = .busError k) ∨ f = .chipTimeout ∨ ∃ l, f = .fifoLevelExceedsBuffer l)
    ∧ (exec .getVersion s = .next t → f = .deviceNotBound ∨ (∃ k, f = .busError k) ∨ ∃ b, f = .unrecognizedDevice b))
  ∧ (∀ (s t : State) (f : Failure) (w : Wait), Waiting s w → Quiet s → step s = .next t → t.resp = some (.failed f) →
    f = .deviceNotBound ∨ (∃ k, f = .busError k) ∨ f = .chipTimeout
      ∨ (w ≠ .sendCmd ∧ w ≠ .memWrite ∧ ∃ l, f = .fifoLevelExceedsBuffer l))
  ∧ (∀ (s : State) (rs : List Byte) (x1 x2 x3 x4 i1 i2 i3 lb : Byte) (b1 b2 b3 : List Byte),
    s.bound = true → s.cfg.wf → s.cfg.levelOver = .fault → Quiet s → 25 < lb.toNat % 128 → PollsOk s.cfg b1 i1 →
    let ended := Response.failed (.fifoLevelExceedsBuffer (BitVec.ofNat 7 (lb.toNat % 128)))
    (let calls := writeCall s.cfg .fifoLevel 0x80 :: sendCalls s.cfg .mem (b1.length + 1) ++ [readCall s.cfg .fifoLevel]
     let replies := Reply.ok x3 :: sendReplies x1 b1 i1 ++ [Reply.ok lb]
     s.replies calls = replies → ∃ t0 t,
      exec .memRead s = .next t0 ∧ stepsTo b1.length t0 = some t
        ∧ Ended s t ended calls replies ∧ t.ans = s.ans ∧ t.sink = s.sink)
    ∧ (PollsOk s.cfg b2 i2 → PollsOk s.cfg b3 i3 → rs.length = 25 →
      let calls := List.replicate 25 (writeCall s.cfg .fifoData 0) ++ sendCalls s.cfg .mem (b1.length + 1)
        ++ sendCalls s.cfg .generateRandomId (b2.length + 1)
        ++ writeCall s.cfg .fifoLevel 0x80 :: sendCalls s.cfg .mem (b3.length + 1) ++ [readCall s.cfg .fifoLevel]
      let replies := rs.map Reply.ok ++ sendReplies x1 b1 i1 ++ sendReplies x2 b2 i2
        ++ Reply.ok x3 :: sendReplies x4 b3 i3 ++ [Reply.ok lb]
      s.replies calls = replies → ∃ t0 t,
        exec .genRandId s = .next t0 ∧ stepsTo (b1.length + b2.length + b3.length) t0 = some t
          ∧ Ended s t ended calls replies ∧ t.ans = s.ans ∧ t.sink = s.sink))

/-! ### Rules of the whole block -/

/-- R154: on a device that is not bound every operation that can issue a frame, its operands being ones it takes, ends with
DeviceNotBound, no frame issued and no state written; a pure operation does not test `bound`. -/
def Obligations.DeviceNotBound : Prop :=
  (∀ (i : Instr) (s : State), usesBus i = true → operandRefusal i = none → s.bound = false → ∃ t,
    exec i s = .next t ∧ AnswersOnly s t (.failed .deviceNotBound))
  ∧ (∀ (i : Instr) (s t : State) (b : Bool), usesBus i = false → exec i s = .next t →
    exec i { s with bound := b } = .next { t with bound := b })

/-- R59, R75, R156, R159: a reserved code of STAT_ENC or SEND_CMD and a count above 25 of REG_RD or FIFO_WR are refused with
their failure before anything else, bound or not, with no frame and nothing written. -/
def Obligations.OperandRefusals : Prop :=
  ∀ (s : State),
    let refuses := fun (i : Instr) (f : Failure) => ∃ t, exec i s = .next t ∧ AnswersOnly s t (.failed f)
    (∀ code ∈ [(5 : BitVec 4), 6, 9, 10, 11, 13],
      (∀ pwr rcv, refuses (.statEnc code pwr rcv) (.reservedCommandCode code))
        ∧ refuses (.sendCmd code) (.reservedCommandCode code))
    ∧ (∀ n : BitVec 5, 25 < n.toNat →
      (∀ r, refuses (.regRd r n) (.lengthOutOfRange n)) ∧ ∀ data, refuses (.fifoWr n data) (.lengthOutOfRange n))

/-- R42, R91, R123, R151, R160: every operation, and every further poll of one that waits, stops at its first failed frame: of the
frames it appends only the last can be Err, and it is Err exactly when the response is BusError. PARSE issues no frame (R130). -/
def Obligations.StopsAtFirstError : Prop :=
  ∀ (s t : State),
    (((∃ i, isTextRow i = false ∧ exec i s = .next t) ∨ (Waiting s s.seq.wait ∧ resume s = .next t)) → ∃ new,
      t.trace = s.trace ++ new ∧ stopsAtErr (∃ r, t.resp = some r ∧ isBusError r) new)
    ∧ (∀ i, isTextRow i = true → exec i s = .next t → t.trace = s.trace)

/-- R90: every transaction an operation or a further poll appends sends one byte and receives one, or sends two and receives
none; it is a frame of one of the four registers (R33, R34, R35). -/
def Obligations.FrameShapes : Prop :=
  ∀ (s t : State), ((∃ i, exec i s = .next t) ∨ resume s = .next t) → ∃ new, t.trace = s.trace ++ new ∧
    ∀ x ∈ new, Transaction.legal s.cfg x
      ∧ (∀ tx k, x.call = .wtr tx k → tx.length = 1 ∧ k = 1 ∧ ∀ rx, x.answer = .ok rx → rx.length = 1)
      ∧ (∀ tx, x.call = .w tx → tx.length = 2 ∧ ∀ rx, x.answer = .ok rx → rx = [])

/-- R11, R120, R169: of the operations only REG_RD, FIFO_RD and MEM_READ write the answer buffer, and only GEN_RAND_ID writes the
sink, and only behind what it holds, under the routing the spec decides (D27); the same for an operation that waits. -/
def Obligations.AnswerAndSinkWriters : Prop :=
  ∀ (s t : State), s.cfg.routeRandomId = false →
    (∀ i, exec i s = .next t →
      ((∀ r n, i ≠ .regRd r n) → i ≠ .fifoRd → i ≠ .memRead → t.ans = s.ans) ∧ (i ≠ .genRandId → t.sink = s.sink)
        ∧ ∃ bytes, t.sink = s.sink ++ bytes)
    ∧ (resume s = .next t →
      (s.seq.wait ≠ .memRead → t.ans = s.ans)
        ∧ (s.seq.wait.op ≠ some .genRandId → t.sink = s.sink)
        ∧ ∃ bytes, t.sink = s.sink ++ bytes)

/-- R12, R24, R27, R168: no operation and no further poll writes the device handle, the parameters, whose turn it is and what waits,
or another requester's answer buffer (log 27), and none keeps what PARSE returned before (R24). R130: PARSE writes
nothing but what it returns (seen in `parsed`, log 13). -/
def Obligations.OutsideUntouched : Prop :=
  ∀ (s t : State),
    (((∃ i, isTextRow i = false ∧ exec i s = .next t) ∨ resume s = .next t) → KeepsOutside s t)
    ∧ (∀ i, isTextRow i = true → exec i s = .next t → ∃ r, t = { s with parsed := some r })

/-- R13, R15, R16, R24, R163: every operation starts clean: what the sequencer, the latches and the response port hold from before,
and what PARSE returned before, make no difference to it. R130: PARSE reads no state at all: what it returns is the same on every state. -/
def Obligations.StartsClean : Prop :=
  (∀ (i : Instr) (s : State) (q : Seq) (l : Latches) (r p : Option Response), isTextRow i = false →
    exec i { s with seq := q, lat := l, resp := r, parsed := p } = exec i s)
  ∧ (∀ i : Instr, isTextRow i = true →
    (∃ f, ∀ s : State, exec i s = .refused f) ∨ ∃ r, ∀ s : State, exec i s = .next { s with parsed := some r })

/-- R11, R120, R169: no operation and no further poll reads the answer buffer or the sink. With other contents of them it gives
the same state but for those two; the bytes it puts in the first positions of the answer buffer and those it appends to the sink
are the same too, the free byte at a failed position (log 4) among them, and everything else in them is as it was. -/
def Obligations.NothingReadsAnswerOrSink : Prop :=
  ∀ (run : State → Host.Outcome State Fault Refusal), ((∃ i, run = exec i) ∨ run = resume) →
    ∀ (s t : State) (v : Buffer) (k : List Byte), run s = .next t → ∃ (t' : State) (written emitted : List Byte),
      run { s with ans := v, sink := k } = .next t' ∧ t' = { t with ans := t'.ans, sink := t'.sink }
        ∧ t.ans.toList = written ++ s.ans.toList.drop written.length
        ∧ t'.ans.toList = written ++ v.toList.drop written.length
        ∧ t.sink = s.sink ++ emitted ∧ t'.sink = k ++ emitted

/-- R13, R15, R38, R59, R160, R171: every operation answers, whatever the outside says: it ends with a response, the sequencer state
cleared and the lock free (that the latches are cleared too is log 11), or waits in a poll loop, with no response (log 12) and with
the `cur_op` that goes with that wait (log 29); PARSE returns (R130). Only op 0xF, and a text row with a length token `+digits`
(R140), is refused; none faults. -/
def Obligations.EveryOperationAnswers : Prop :=
  (∀ s : State, exec .reservedOp s = .refused .reservedOp)
  ∧ (∀ (i : Instr) (s : State),
    (isTextRow i = false ∧ ∃ t, exec i s = .next t ∧ ((∃ r, EndsWith t r) ∨ ∃ w, w ≠ .idle ∧ Waiting t w))
    ∨ (isTextRow i = true ∧ ∃ r, exec i s = .next { s with parsed := some r })
    ∨ (i = .reservedOp)
    ∨ (exec i s = .refused .plusSign ∧ ∃ l d, isPlusDigits l = true
        ∧ i ∈ [Instr.parseMemRead (.complex l d), .parseMemWrite (.complex l d), .parseGetVersion (.complex l d),
            .parseGenRandId (.complex l d)]))

/-- R111, R153, R181, R44: with a finite budget every wait ends: when no reset and no line goes before its polls (log 17, log 24),
within three times the budget further steps (log 5) the block is not owned, whatever the chip answers. -/
def Obligations.BoundedWaitEnds : Prop :=
  ∀ (s : State) (k : Nat), s.Inv → Quiet s → s.cfg.pollBudget = some k → ∃ j t,
    j ≤ 3 * k ∧ stepsTo j s = some t ∧ t.owned = false

/-- R111, R171, R181: with the budget `inf` a chip that goes on answering not Idle keeps the block waiting for any number of
steps (log 5), when no reset and no line goes before its polls (log 17, log 24), with no response (log 12) and `cur_op` as it was
(log 29). -/
def Obligations.UnboundedWaitStays : Prop :=
  ∀ (n : Nat) (s : State) (w : Wait) (bytes : List Byte), Quiet s → s.bound = true → Waiting s w → w ≠ .idle →
    s.cfg.pollBudget = none → bytes.length = n → (∀ b ∈ bytes, isIdle b = false) →
    s.replies (List.replicate n (readCall s.cfg .command)) = bytes.map Reply.ok → ∃ t,
      stepsTo n s = some t ∧ Waiting t w ∧ t.seq.polls = s.seq.polls + n

/-! ### The text front end -/

/-- R133, R130: what a line without ':' returns, and that nothing else changes (log 13 says where the two errors of an unmatched
name are answered). -/
def Obligations.SimpleTextForm : Prop :=
  ∀ (s : State),
    let parses := fun (line : List Byte) (r : Response) => runBytes .text line s = .next { s with parsed := some r }
    parses TextCommand.memRead.name (.ok (.operation .memRead) none)
      ∧ parses TextCommand.getVersion.name (.ok (.operation .getVersion) none)
      ∧ parses TextCommand.genRandId.name (.ok (.operation .genRandId) none)
      ∧ parses TextCommand.memWrite.name (.failed (.parse .invalidArgNumber))
      ∧ parses [] (.failed (.parse .emptyInput))
      ∧ parses [0x62, 0x6F, 0x67, 0x75, 0x73] (.failed (.parse .unknownCommand))
      ∧ (∀ line : List Byte, utf8Valid line = true → colon ∉ line → line ≠ [] → (∀ c : TextCommand, line ≠ c.name) →
        parses line (.failed (.parse .unknownCommand)))

/-- R133, R135, R136, R137: the four text rows, in the order of the document's tests. Simple form: the operation, or
InvalidArgNumber for mem_write. Complex form: an empty length token, one that is no unsigned byte, one above 25, a missing data
token; then an argument to a command that takes none; otherwise the MemWrite with the first 25 bytes of the data, padded. Nothing
else changes (R130). -/
def Obligations.ParseRowsComplete : Prop :=
  ∀ (s : State),
    let answers := fun (i : Instr) (r : Response) => exec i s = .next { s with parsed := some r }
    let rows := fun (args : TextArgs) =>
      [Instr.parseMemRead args, .parseMemWrite args, .parseGetVersion args, .parseGenRandId args]
    answers (.parseMemRead .simple) (.ok (.operation .memRead) none)
      ∧ answers (.parseGetVersion .simple) (.ok (.operation .getVersion) none)
      ∧ answers (.parseGenRandId .simple) (.ok (.operation .genRandId) none)
      ∧ answers (.parseMemWrite .simple) (.failed (.parse .invalidArgNumber))
      ∧ (∀ dataTok, ∀ i ∈ rows (.complex [] dataTok), answers i (.failed (.parse .invalidArgNumber)))
      ∧ (∀ lenTok dataTok, lenTok ≠ [] → isPlusDigits lenTok = false → unsignedByte lenTok = none →
        ∀ i ∈ rows (.complex lenTok dataTok), answers i (.failed (.parse .invalidDataLen)))
      ∧ (∀ lenTok dataTok d, unsignedByte lenTok = some d → 25 < d →
        ∀ i ∈ rows (.complex lenTok dataTok), answers i (.failed (.parse .dataLenTooBig)))
      ∧ (∀ lenTok d, unsignedByte lenTok = some d → d ≤ 25 →
        ∀ i ∈ rows (.complex lenTok none), answers i (.failed (.parse .invalidArgNumber)))
      ∧ (∀ lenTok data d, unsignedByte lenTok = some d → d ≤ 25 →
        answers (.parseMemRead (.complex lenTok (some data))) (.failed (.parse .invalidArgNumber))
          ∧ answers (.parseGetVersion (.complex lenTok (some data))) (.failed (.parse .invalidArgNumber))
          ∧ answers (.parseGenRandId (.complex lenTok (some data))) (.failed (.parse .invalidArgNumber))
          ∧ ∃ payload : Buffer,
            payload.toList = data.take 25 ++ List.replicate (25 - data.length) 0
              ∧ answers (.parseMemWrite (.complex lenTok (some data)))
                  (.ok (.operation (.memWrite (Fin.ofNat 26 d) payload)) none))

/-- R140, R135: the unsigned bytes are the decimal numerals up to 255, with any leading zeros; a numeral above 255, an empty
token and a token with any other byte are not. For a token `+` and digits, such as +5, R140 leaves that open
(PLUS_SIGN_ACCEPTED): that `unsignedByte` gives it none is the model's choice (log 15), which no line's result shows, since every
row refuses such a token before. -/
def Obligations.LengthTokens : Prop :=
  (∀ z d : Nat, unsignedByte (List.replicate z 0x30 ++ decimalBytes d) = if d ≤ 255 then some d else none)
    ∧ unsignedByte [] = none
    ∧ (∀ (tok : List Byte) (c : Byte), c ∈ tok → (c.toNat < 0x30 ∨ 0x39 < c.toNat) → unsignedByte tok = none)
    ∧ (∀ tok : List Byte, (∃ d, unsignedByte tok = some d) →
      ∃ z d : Nat, tok = List.replicate z 0x30 ++ decimalBytes d ∧ unsignedByte tok = some d)

/-- R142 (what is valid UTF-8 is log 14): `mem_write:n:` followed by the first `n` bytes of a buffer gives the MemWrite of `n` and
those bytes, padded, and nothing else changes. -/
def Obligations.MemWriteLine : Prop :=
  ∀ (p : Buffer) (n : Fin 26) (s : State), utf8Valid (p.toList.take n) = true → colon ∉ p.toList.take n →
    ∃ payload : Buffer, payload.toList = p.toList.take n ++ List.replicate (25 - n) 0
      ∧ runBytes .text (TextCommand.memWrite.name ++ colon :: (decimalBytes n ++ colon :: p.toList.take n)) s
          = .next { s with parsed := some (.ok (.operation (.memWrite n payload)) none) }

/-- R144: on its domain (valid UTF-8, which is log 14, at most two ':' bytes, no `+digits` length token) PARSE gives exactly one
operation or exactly one error, and nothing else happens. -/
def Obligations.ParseTotal : Prop :=
  ∀ (line : List Byte) (s : State), utf8Valid line = true → line.count colon ≤ 2 →
    (∀ name lenTok dataTok, lineParts line = some (name, .complex lenTok dataTok) → isPlusDigits lenTok = false) →
    ∃ r, runBytes .text line s = .next { s with parsed := some r }
      ∧ ((∃ o, r = .ok (.operation o) none) ∨ ∃ e, r = .failed (.parse e))

/-- R130, R140, R141: a line outside PARSE's domain has no result: not UTF-8; three or more ':' bytes; a known command with a
length token `+digits`, with a data token or without. -/
def Obligations.TextOutsideDomain : Prop :=
  ∀ (line : List Byte) (s : State),
    (utf8Valid line = false → runBytes .text line s = .refused .notUtf8)
    ∧ (utf8Valid line = true → 3 ≤ line.count colon → runBytes .text line s = .refused .extraFields)
    ∧ (∀ (c : TextCommand) (rest : List Byte) (dataTok : Option (List Byte)),
      rest ≠ [] → (∀ b ∈ rest, isDigit b = true) →
      (∀ i ∈ [Instr.parseMemRead (.complex (0x2B :: rest) dataTok), .parseMemWrite (.complex (0x2B :: rest) dataTok),
          .parseGetVersion (.complex (0x2B :: rest) dataTok), .parseGenRandId (.complex (0x2B :: rest) dataTok)],
        exec i s = .refused .plusSign)
      ∧ runBytes .text (c.name ++ colon :: 0x2B :: rest) s = .refused .plusSign
      ∧ (∀ data : List Byte, utf8Valid data = true → colon ∉ data →
        runBytes .text (c.name ++ colon :: 0x2B :: (rest ++ colon :: data)) s = .refused .plusSign))

/-- R139: an accepted line hands its operation to the Command Engine as the next input of its source (log 22), and each
operation is run as the operation of the block it names, on its source's own answer buffer (log 27). -/
def Obligations.TextLineRuns : Prop :=
  (∀ (s t : State) (src : Nat) (line : List Byte) (o : Operation), runBytes .text line s = .next t →
    t.parsed = some (.ok (.operation o) none) →
    serve src (.line line) s = .next { t with held := ⟨src, .operation o⟩ :: t.held })
  ∧ (∀ (s : State) (src : Nat), s.owned = false →
    let runs := fun (o : Operation) (i : Instr) =>
      s.held = [⟨src, .operation o⟩] → step s = exec i { s.turnTo src with held := [], tick := s.tick + 1, parsed := none }
    (∀ d p, runs (.memWrite d p) (.memWrite (BitVec.ofNat 8 d.val) p)) ∧ runs .memRead .memRead ∧ runs .getVersion .getVersion
      ∧ runs .genRandId .genRandId)

/-! ### Steps, inputs and reset -/

/-- R64, R175: a step of a block that is not owned and whose one waiting input is a request runs exactly the instruction its
bytes decode to, on the state with that input gone; its source owns the block, and its own answer buffer is in place
(`turnTo`, log 27), but for a line, which needs no ownership (R168, log 24). So does the word of the opcode table that
`withFetchWord` places (log 9). -/
def Obligations.StepRunsDecodedRequest : Prop :=
  (∀ (s : State) (src : Nat) (f : Format) (bytes : List Byte) (i : Instr), s.owned = false →
    s.held = [⟨src, .request f bytes⟩] → decode s.cfg f bytes = .instr i →
    step s = exec i { s.turnTo (if f = .text then s.owner else src) with
      held := [], tick := s.tick + 1, parsed := none })
  ∧ (∀ (s : State) (nbits w : Nat) (i : Instr), s.cfg = Config.params → decodeTableWord nbits w = some i →
    step (s.withFetchWord nbits w)
      = exec i { s.turnTo (if tableFormat nbits w = .text then s.owner else 0) with
          seq := Seq.cleared, lat := Latches.cleared, locked := false, held := []
          tick := s.tick + 1, parsed := none })

/-- R27, R168, R178: while an operation waits no request, bind or unbind is served, nor a write of the answer buffer (log 26): when
no reset (log 17) and no line of another source (log 24) goes before, a step goes on with the operation, every input that waits
still waits, and the other requesters' answer buffers are as they were (log 27). -/
def Obligations.HeldWhileOwned : Prop :=
  ∀ (s : State), Quiet s → s.owned = true →
    step s = resume s
      ∧ ∀ t, step s = .next t → t.held = s.held ∧ t.owner = s.owner ∧ t.bound = s.bound ∧ t.transport = s.transport
        ∧ ∀ g, g ≠ s.owner → t.ansOf g = s.ansOf g

/-- R168, R175, R11, R12, R177, R178: a block that is not owned serves one of the inputs that wait, the first of its source,
which one among sources being open (log 10); with none it waits. Its source owns the block, but for a line (log 24). Requesters
share the handle, the bus and the chip and nothing else (log 27): an input is served on its source's own answer buffer, and no
other requester's changes; the response to the requester before it and what PARSE returned before are values and gone
(R24, log 12, log 13). Bind, on a bound block too (log 18), unbind, which leaves the transport's number (log 18), and a write
of the answer buffer change that and nothing else of the block. -/
def Obligations.ServesOneInput : Prop :=
  ∀ (s : State), NoReset s → s.owned = false →
    (s.held = [] → step s = .next s)
    ∧ (s.held ≠ [] → ∃ h before after, s.held = before ++ h :: after ∧ (∀ g ∈ before, g.src ≠ h.src)
        ∧ step s = serve h.src h.ev
            { s.turnTo (if h.isText then s.owner else h.src) with
              held := before ++ after, tick := s.tick + 1, parsed := none })
    ∧ (∀ src, (∀ g, (s.turnTo src).ansOf g = s.ansOf g) ∧ ∃ rest, s.turnTo src =
        { s with owner := src, ans := s.ansOf src, answers := rest, resp := if src = s.owner then s.resp else none })
    ∧ (∀ t, step s = .next t → ∀ g, g ≠ t.owner → t.ansOf g = s.ansOf g)
    ∧ (∀ src v, serve src (.writeAns v) s = .next { s with ans := v })
    ∧ (∀ src k, serve src (.bind k) s = .next { s with bound := true, transport := k })
    ∧ (∀ src, serve src .unbind s = .next { s with bound := false })

/-- R25, R175, R176: after reset nothing is bound, in progress or locked, trace and sink are empty, and an external reset that
waits is served at once, even in the middle of a wait (log 17), with no frame issued and the chip's side untouched. -/
def Obligations.ResetLeaves : Prop :=
  (State.reset.bound = false ∧ State.reset.seq.busy = false ∧ State.reset.locked = false ∧ State.reset.trace = []
    ∧ State.reset.sink = [])
  ∧ ∀ (s : State) (src : Nat) (before after : List Held), s.held = before ++ ⟨src, .reset⟩ :: after →
    (∀ g ∈ before, g.src ≠ src ∧ g.ev ≠ .reset) → ∃ t, step s = .next t
      ∧ t.bound = false ∧ t.seq.busy = false ∧ t.locked = false ∧ t.trace = [] ∧ t.sink = []
      ∧ t.oracle = s.oracle ∧ t.cfg = s.cfg ∧ t.held = before ++ after

/-- R6, R25: the invariant holds after reset, and the three parameters the spec decides have the decided value. That the open
parameters are within their limits is log 1, that the decided ones are fields is log 19; that sequencer and latches are cleared,
of which R25 says nothing but `busy`, is log 2, and so is that no other requester's answer buffer is listed (log 27). -/
def Obligations.ResetMeetsInv : Prop := State.reset.Inv ∧ State.reset.cfg.decided

/-- R13, R14, R27, R33, R90, R110, R121, R178: every step of every state that meets the invariant gives one that meets it. R6: no
step changes a parameter, so the decided ones stay as decided (log 1, log 19). Cleared latches between operations are
log 11, the canonical form of `answers` is log 27, and that an operation that waits has no response and what `cur_op` names is log 12
and log 29. -/
def Obligations.StepKeepsInv : Prop :=
  ∀ s t : State, s.Inv → step s = .next t → t.Inv ∧ t.cfg = s.cfg ∧ (s.cfg.decided → t.cfg.decided)

/-- R171: no state that meets the invariant faults: every step answers or refuses. -/
def Obligations.NoFaultUnderInv : Prop := ∀ s : State, s.Inv → Safe (step s)

/-! ### Encodings -/

/-- R50 to R57, R64, R130, R131 (the layout of format R is log 6): for every well-formed instruction, decoding its encoding gives
it back, under any parameters R6 allows. -/
def Obligations.DecodeEncode : Prop :=
  ∀ (p : Params) (i : Instr), p.wf → i.wellFormed = true → decode p (encode p i).1 (encode p i).2 = .instr i

/-- R50 to R55, R130: in every format the source fixes, what decodes to an instruction is exactly that instruction's encoding,
and the instruction is well formed. -/
def Obligations.EncodeDecode : Prop :=
  ∀ (p : Params) (f : Format) (bytes : List Byte) (i : Instr), f ≠ .request → decode p f bytes = .instr i →
    encode p i = (f, bytes) ∧ i.wellFormed = true

/-- Words written out from the spec's encodings: REG_RD FifoLevel, 3 (op 3, reg 2, n 3 at bit 35, log 6); the status byte 0x21
(R52); the level bytes 0x80 written and 0x85 read (R53); the version byte 0x91 (R54); the read header of Version 0xEE and the
write frame 14 80 under the default parameters (R74, R98); the line `mem_read` (R131). -/
def Obligations.DecodeWords : Prop :=
  decode (.default true) .request ([0x23, 0, 0, 0, 0x18, 0] ++ List.replicate 25 0) = .instr (.regRd .fifoLevel 3)
    ∧ decode (.default true) .status [0x21] = .instr (.sMem 0 true false)
    ∧ decode (.default true) .levelWritten [0x80] = .instr .lFlush
    ∧ decode (.default true) .levelRead [0x85] = .instr (.lLevel true 5)
    ∧ decode (.default true) .version [0x91] = .instr .vVersion1
    ∧ decode (.default true) .address [0xEE] = .instr .aVersionRead
    ∧ decode (.default true) .frame [0x14, 0x80] = .instr (.writeFrame .fifoLevel 0x80)
    ∧ decode (.default true) .text [0x6D, 0x65, 0x6D, 0x5F, 0x72, 0x65, 0x61, 0x64] = .instr (.parseMemRead .simple)

/-! ### The reference peer -/

/-- R47, R113, R114: against the reference peer, with an empty FIFO, no failing transaction and Idle on the first poll, MEM_WRITE
leaves its payload in the peer's memory, whatever its declared length is (that it runs with one above 25 is log 20), and a
MEM_READ after it brings the 25 bytes back. It says nothing about the chip. -/
def Obligations.PeerRoundTrip : Prop :=
  ∀ (s : State) (peer : Peer) (d : Byte) (payload : Buffer), s.bound = true → s.cfg.wf → s.oracle = .peer peer →
    peer.fifo = [] → peer.failAt = none → peer.delay0 = 0 → ∃ t u peer',
      exec (.memWrite d payload) s = .next t ∧ t.oracle = .peer peer' ∧ peer'.memory = payload ∧ peer'.fifo = []
        ∧ exec .memRead t = .next u ∧ u.resp = some (.ok (.command (.bytesRead 25)) (some 25)) ∧ u.ans = payload

/-! ### Lines while the block is owned -/

/-- R130, R168: PARSE needs no turn. While an operation waits a step either goes on with it or takes a line of another source,
which one being open (log 24); a line changes nothing but what PARSE returns and what waits: it goes, and an operation it names
comes as the next input of its source (R139, log 22). The operation that waits is as it was. -/
def Obligations.LinesNeedNoTurn : Prop :=
  ∀ (s : State), NoReset s → s.owned = true →
    (step s = resume s ∨ ∃ h ∈ s.readyLines, step s = serve h.src h.ev (s.take h))
    ∧ ∀ h ∈ s.readyLines, h.src ≠ s.owner ∧ ∃ before after, s.held = before ++ h :: after ∧ (∀ g ∈ before, g.src ≠ h.src)
      ∧ ∀ t, serve h.src h.ev (s.take h) = .next t → ∃ r more,
        t = { s with parsed := some r, held := more ++ (before ++ after), tick := s.tick + 1 }
          ∧ (more = [] ∨ ∃ o, r = .ok (.operation o) none ∧ more = [⟨h.src, .operation o⟩])
end

