-- ==== Sys2Proof/Laws/State.lean ====
section
/-! SUPPORT. The small lemmas of every update of the state: one per field per update, true by rfl. -/

namespace Sys2Proof.Machine

@[simp] theorem setI_cfg (s : State) (i : Nat) : (s.setI i).cfg = s.cfg := rfl
@[simp] theorem setI_ans (s : State) (i : Nat) : (s.setI i).ans = s.ans := rfl
@[simp] theorem setI_bound (s : State) (i : Nat) : (s.setI i).bound = s.bound := rfl
@[simp] theorem setI_transport (s : State) (i : Nat) : (s.setI i).transport = s.transport := rfl
@[simp] theorem setI_seq_busy (s : State) (i : Nat) : (s.setI i).seq.busy = s.seq.busy := rfl
@[simp] theorem setI_seq_curOp (s : State) (i : Nat) : (s.setI i).seq.curOp = s.seq.curOp := rfl
@[simp] theorem setI_seq_i (s : State) (i : Nat) : (s.setI i).seq.i = i := rfl
@[simp] theorem setI_seq_n (s : State) (i : Nat) : (s.setI i).seq.n = s.seq.n := rfl
@[simp] theorem setI_seq_lvl (s : State) (i : Nat) : (s.setI i).seq.lvl = s.seq.lvl := rfl
@[simp] theorem setI_seq_tmp (s : State) (i : Nat) : (s.setI i).seq.tmp = s.seq.tmp := rfl
@[simp] theorem setI_seq_loc (s : State) (i : Nat) : (s.setI i).seq.loc = s.seq.loc := rfl
@[simp] theorem setI_seq_polls (s : State) (i : Nat) : (s.setI i).seq.polls = s.seq.polls := rfl
@[simp] theorem setI_seq_wait (s : State) (i : Nat) : (s.setI i).seq.wait = s.seq.wait := rfl
@[simp] theorem setI_lat (s : State) (i : Nat) : (s.setI i).lat = s.lat := rfl
@[simp] theorem setI_locked (s : State) (i : Nat) : (s.setI i).locked = s.locked := rfl
@[simp] theorem setI_trace (s : State) (i : Nat) : (s.setI i).trace = s.trace := rfl
@[simp] theorem setI_sink (s : State) (i : Nat) : (s.setI i).sink = s.sink := rfl
@[simp] theorem setI_resp (s : State) (i : Nat) : (s.setI i).resp = s.resp := rfl
@[simp] theorem setI_answers (s : State) (i : Nat) : (s.setI i).answers = s.answers := rfl
@[simp] theorem setI_parsed (s : State) (i : Nat) : (s.setI i).parsed = s.parsed := rfl
@[simp] theorem setI_owner (s : State) (i : Nat) : (s.setI i).owner = s.owner := rfl
@[simp] theorem setI_held (s : State) (i : Nat) : (s.setI i).held = s.held := rfl
@[simp] theorem setI_oracle (s : State) (i : Nat) : (s.setI i).oracle = s.oracle := rfl
@[simp] theorem setI_tick (s : State) (i : Nat) : (s.setI i).tick = s.tick := rfl

@[simp] theorem setN_cfg (s : State) (n : Nat) : (s.setN n).cfg = s.cfg := rfl
@[simp] theorem setN_ans (s : State) (n : Nat) : (s.setN n).ans = s.ans := rfl
@[simp] theorem setN_bound (s : State) (n : Nat) : (s.setN n).bound = s.bound := rfl
@[simp] theorem setN_transport (s : State) (n : Nat) : (s.setN n).transport = s.transport := rfl
@[simp] theorem setN_seq_busy (s : State) (n : Nat) : (s.setN n).seq.busy = s.seq.busy := rfl
@[simp] theorem setN_seq_curOp (s : State) (n : Nat) : (s.setN n).seq.curOp = s.seq.curOp := rfl
@[simp] theorem setN_seq_i (s : State) (n : Nat) : (s.setN n).seq.i = s.seq.i := rfl
@[simp] theorem setN_seq_n (s : State) (n : Nat) : (s.setN n).seq.n = n := rfl
@[simp] theorem setN_seq_lvl (s : State) (n : Nat) : (s.setN n).seq.lvl = s.seq.lvl := rfl
@[simp] theorem setN_seq_tmp (s : State) (n : Nat) : (s.setN n).seq.tmp = s.seq.tmp := rfl
@[simp] theorem setN_seq_loc (s : State) (n : Nat) : (s.setN n).seq.loc = s.seq.loc := rfl
@[simp] theorem setN_seq_polls (s : State) (n : Nat) : (s.setN n).seq.polls = s.seq.polls := rfl
@[simp] theorem setN_seq_wait (s : State) (n : Nat) : (s.setN n).seq.wait = s.seq.wait := rfl
@[simp] theorem setN_lat (s : State) (n : Nat) : (s.setN n).lat = s.lat := rfl
@[simp] theorem setN_locked (s : State) (n : Nat) : (s.setN n).locked = s.locked := rfl
@[simp] theorem setN_trace (s : State) (n : Nat) : (s.setN n).trace = s.trace := rfl
@[simp] theorem setN_sink (s : State) (n : Nat) : (s.setN n).sink = s.sink := rfl
@[simp] theorem setN_resp (s : State) (n : Nat) : (s.setN n).resp = s.resp := rfl
@[simp] theorem setN_answers (s : State) (n : Nat) : (s.setN n).answers = s.answers := rfl
@[simp] theorem setN_parsed (s : State) (n : Nat) : (s.setN n).parsed = s.parsed := rfl
@[simp] theorem setN_owner (s : State) (n : Nat) : (s.setN n).owner = s.owner := rfl
@[simp] theorem setN_held (s : State) (n : Nat) : (s.setN n).held = s.held := rfl
@[simp] theorem setN_oracle (s : State) (n : Nat) : (s.setN n).oracle = s.oracle := rfl
@[simp] theorem setN_tick (s : State) (n : Nat) : (s.setN n).tick = s.tick := rfl

@[simp] theorem setLvl_cfg (s : State) (l : BitVec 7) : (s.setLvl l).cfg = s.cfg := rfl
@[simp] theorem setLvl_ans (s : State) (l : BitVec 7) : (s.setLvl l).ans = s.ans := rfl
@[simp] theorem setLvl_bound (s : State) (l : BitVec 7) : (s.setLvl l).bound = s.bound := rfl
@[simp] theorem setLvl_transport (s : State) (l : BitVec 7) : (s.setLvl l).transport = s.transport := rfl
@[simp] theorem setLvl_seq_busy (s : State) (l : BitVec 7) : (s.setLvl l).seq.busy = s.seq.busy := rfl
@[simp] theorem setLvl_seq_curOp (s : State) (l : BitVec 7) : (s.setLvl l).seq.curOp = s.seq.curOp := rfl
@[simp] theorem setLvl_seq_i (s : State) (l : BitVec 7) : (s.setLvl l).seq.i = s.seq.i := rfl
@[simp] theorem setLvl_seq_n (s : State) (l : BitVec 7) : (s.setLvl l).seq.n = s.seq.n := rfl
@[simp] theorem setLvl_seq_lvl (s : State) (l : BitVec 7) : (s.setLvl l).seq.lvl = l := rfl
@[simp] theorem setLvl_seq_tmp (s : State) (l : BitVec 7) : (s.setLvl l).seq.tmp = s.seq.tmp := rfl
@[simp] theorem setLvl_seq_loc (s : State) (l : BitVec 7) : (s.setLvl l).seq.loc = s.seq.loc := rfl
@[simp] theorem setLvl_seq_polls (s : State) (l : BitVec 7) : (s.setLvl l).seq.polls = s.seq.polls := rfl
@[simp] theorem setLvl_seq_wait (s : State) (l : BitVec 7) : (s.setLvl l).seq.wait = s.seq.wait := rfl
@[simp] theorem setLvl_lat (s : State) (l : BitVec 7) : (s.setLvl l).lat = s.lat := rfl
@[simp] theorem setLvl_locked (s : State) (l : BitVec 7) : (s.setLvl l).locked = s.locked := rfl
@[simp] theorem setLvl_trace (s : State) (l : BitVec 7) : (s.setLvl l).trace = s.trace := rfl
@[simp] theorem setLvl_sink (s : State) (l : BitVec 7) : (s.setLvl l).sink = s.sink := rfl
@[simp] theorem setLvl_resp (s : State) (l : BitVec 7) : (s.setLvl l).resp = s.resp := rfl
@[simp] theorem setLvl_answers (s : State) (l : BitVec 7) : (s.setLvl l).answers = s.answers := rfl
@[simp] theorem setLvl_parsed (s : State) (l : BitVec 7) : (s.setLvl l).parsed = s.parsed := rfl
@[simp] theorem setLvl_owner (s : State) (l : BitVec 7) : (s.setLvl l).owner = s.owner := rfl
@[simp] theorem setLvl_held (s : State) (l : BitVec 7) : (s.setLvl l).held = s.held := rfl
@[simp] theorem setLvl_oracle (s : State) (l : BitVec 7) : (s.setLvl l).oracle = s.oracle := rfl
@[simp] theorem setLvl_tick (s : State) (l : BitVec 7) : (s.setLvl l).tick = s.tick := rfl

@[simp] theorem setPolls_cfg (s : State) (k : Nat) : (s.setPolls k).cfg = s.cfg := rfl
@[simp] theorem setPolls_ans (s : State) (k : Nat) : (s.setPolls k).ans = s.ans := rfl
@[simp] theorem setPolls_bound (s : State) (k : Nat) : (s.setPolls k).bound = s.bound := rfl
@[simp] theorem setPolls_transport (s : State) (k : Nat) : (s.setPolls k).transport = s.transport := rfl
@[simp] theorem setPolls_seq_busy (s : State) (k : Nat) : (s.setPolls k).seq.busy = s.seq.busy := rfl
@[simp] theorem setPolls_seq_curOp (s : State) (k : Nat) : (s.setPolls k).seq.curOp = s.seq.curOp := rfl
@[simp] theorem setPolls_seq_i (s : State) (k : Nat) : (s.setPolls k).seq.i = s.seq.i := rfl
@[simp] theorem setPolls_seq_n (s : State) (k : Nat) : (s.setPolls k).seq.n = s.seq.n := rfl
@[simp] theorem setPolls_seq_lvl (s : State) (k : Nat) : (s.setPolls k).seq.lvl = s.seq.lvl := rfl
@[simp] theorem setPolls_seq_tmp (s : State) (k : Nat) : (s.setPolls k).seq.tmp = s.seq.tmp := rfl
@[simp] theorem setPolls_seq_loc (s : State) (k : Nat) : (s.setPolls k).seq.loc = s.seq.loc := rfl
@[simp] theorem setPolls_seq_polls (s : State) (k : Nat) : (s.setPolls k).seq.polls = k := rfl
@[simp] theorem setPolls_seq_wait (s : State) (k : Nat) : (s.setPolls k).seq.wait = s.seq.wait := rfl
@[simp] theorem setPolls_lat (s : State) (k : Nat) : (s.setPolls k).lat = s.lat := rfl
@[simp] theorem setPolls_locked (s : State) (k : Nat) : (s.setPolls k).locked = s.locked := rfl
@[simp] theorem setPolls_trace (s : State) (k : Nat) : (s.setPolls k).trace = s.trace := rfl
@[simp] theorem setPolls_sink (s : State) (k : Nat) : (s.setPolls k).sink = s.sink := rfl
@[simp] theorem setPolls_resp (s : State) (k : Nat) : (s.setPolls k).resp = s.resp := rfl
@[simp] theorem setPolls_answers (s : State) (k : Nat) : (s.setPolls k).answers = s.answers := rfl
@[simp] theorem setPolls_parsed (s : State) (k : Nat) : (s.setPolls k).parsed = s.parsed := rfl
@[simp] theorem setPolls_owner (s : State) (k : Nat) : (s.setPolls k).owner = s.owner := rfl
@[simp] theorem setPolls_held (s : State) (k : Nat) : (s.setPolls k).held = s.held := rfl
@[simp] theorem setPolls_oracle (s : State) (k : Nat) : (s.setPolls k).oracle = s.oracle := rfl
@[simp] theorem setPolls_tick (s : State) (k : Nat) : (s.setPolls k).tick = s.tick := rfl

@[simp] theorem setWait_cfg (s : State) (w : Wait) : (s.setWait w).cfg = s.cfg := rfl
@[simp] theorem setWait_ans (s : State) (w : Wait) : (s.setWait w).ans = s.ans := rfl
@[simp] theorem setWait_bound (s : State) (w : Wait) : (s.setWait w).bound = s.bound := rfl
@[simp] theorem setWait_transport (s : State) (w : Wait) : (s.setWait w).transport = s.transport := rfl
@[simp] theorem setWait_seq_busy (s : State) (w : Wait) : (s.setWait w).seq.busy = s.seq.busy := rfl
@[simp] theorem setWait_seq_curOp (s : State) (w : Wait) : (s.setWait w).seq.curOp = s.seq.curOp := rfl
@[simp] theorem setWait_seq_i (s : State) (w : Wait) : (s.setWait w).seq.i = s.seq.i := rfl
@[simp] theorem setWait_seq_n (s : State) (w : Wait) : (s.setWait w).seq.n = s.seq.n := rfl
@[simp] theorem setWait_seq_lvl (s : State) (w : Wait) : (s.setWait w).seq.lvl = s.seq.lvl := rfl
@[simp] theorem setWait_seq_tmp (s : State) (w : Wait) : (s.setWait w).seq.tmp = s.seq.tmp := rfl
@[simp] theorem setWait_seq_loc (s : State) (w : Wait) : (s.setWait w).seq.loc = s.seq.loc := rfl
@[simp] theorem setWait_seq_polls (s : State) (w : Wait) : (s.setWait w).seq.polls = s.seq.polls := rfl
@[simp] theorem setWait_seq_wait (s : State) (w : Wait) : (s.setWait w).seq.wait = w := rfl
@[simp] theorem setWait_lat (s : State) (w : Wait) : (s.setWait w).lat = s.lat := rfl
@[simp] theorem setWait_locked (s : State) (w : Wait) : (s.setWait w).locked = s.locked := rfl
@[simp] theorem setWait_trace (s : State) (w : Wait) : (s.setWait w).trace = s.trace := rfl
@[simp] theorem setWait_sink (s : State) (w : Wait) : (s.setWait w).sink = s.sink := rfl
@[simp] theorem setWait_resp (s : State) (w : Wait) : (s.setWait w).resp = s.resp := rfl
@[simp] theorem setWait_answers (s : State) (w : Wait) : (s.setWait w).answers = s.answers := rfl
@[simp] theorem setWait_parsed (s : State) (w : Wait) : (s.setWait w).parsed = s.parsed := rfl
@[simp] theorem setWait_owner (s : State) (w : Wait) : (s.setWait w).owner = s.owner := rfl
@[simp] theorem setWait_held (s : State) (w : Wait) : (s.setWait w).held = s.held := rfl
@[simp] theorem setWait_oracle (s : State) (w : Wait) : (s.setWait w).oracle = s.oracle := rfl
@[simp] theorem setWait_tick (s : State) (w : Wait) : (s.setWait w).tick = s.tick := rfl

@[simp] theorem draw_cfg (s : State) : s.draw.cfg = s.cfg := rfl
@[simp] theorem draw_ans (s : State) : s.draw.ans = s.ans := rfl
@[simp] theorem draw_bound (s : State) : s.draw.bound = s.bound := rfl
@[simp] theorem draw_transport (s : State) : s.draw.transport = s.transport := rfl
@[simp] theorem draw_seq (s : State) : s.draw.seq = s.seq := rfl
@[simp] theorem draw_lat (s : State) : s.draw.lat = s.lat := rfl
@[simp] theorem draw_locked (s : State) : s.draw.locked = s.locked := rfl
@[simp] theorem draw_trace (s : State) : s.draw.trace = s.trace := rfl
@[simp] theorem draw_sink (s : State) : s.draw.sink = s.sink := rfl
@[simp] theorem draw_resp (s : State) : s.draw.resp = s.resp := rfl
@[simp] theorem draw_answers (s : State) : s.draw.answers = s.answers := rfl
@[simp] theorem draw_parsed (s : State) : s.draw.parsed = s.parsed := rfl
@[simp] theorem draw_owner (s : State) : s.draw.owner = s.owner := rfl
@[simp] theorem draw_held (s : State) : s.draw.held = s.held := rfl
@[simp] theorem draw_oracle (s : State) : s.draw.oracle = s.oracle := rfl
@[simp] theorem draw_tick (s : State) : s.draw.tick = s.tick + 1 := rfl

@[simp] theorem afterCall_cfg (s : State) (c : BusCall) : (s.afterCall c).cfg = s.cfg := rfl
@[simp] theorem afterCall_ans (s : State) (c : BusCall) : (s.afterCall c).ans = s.ans := rfl
@[simp] theorem afterCall_bound (s : State) (c : BusCall) : (s.afterCall c).bound = s.bound := rfl
@[simp] theorem afterCall_transport (s : State) (c : BusCall) : (s.afterCall c).transport = s.transport := rfl
@[simp] theorem afterCall_seq (s : State) (c : BusCall) : (s.afterCall c).seq = s.seq := rfl
@[simp] theorem afterCall_lat (s : State) (c : BusCall) : (s.afterCall c).lat = s.lat := rfl
@[simp] theorem afterCall_locked (s : State) (c : BusCall) : (s.afterCall c).locked = s.locked := rfl
@[simp] theorem afterCall_trace (s : State) (c : BusCall) : (s.afterCall c).trace = s.trace ++ [⟨c, recorded c (s.answerOf c).1⟩] := rfl
@[simp] theorem afterCall_sink (s : State) (c : BusCall) : (s.afterCall c).sink = s.sink := rfl
@[simp] theorem afterCall_resp (s : State) (c : BusCall) : (s.afterCall c).resp = s.resp := rfl
@[simp] theorem afterCall_answers (s : State) (c : BusCall) : (s.afterCall c).answers = s.answers := rfl
@[simp] theorem afterCall_parsed (s : State) (c : BusCall) : (s.afterCall c).parsed = s.parsed := rfl
@[simp] theorem afterCall_owner (s : State) (c : BusCall) : (s.afterCall c).owner = s.owner := rfl
@[simp] theorem afterCall_held (s : State) (c : BusCall) : (s.afterCall c).held = s.held := rfl
@[simp] theorem afterCall_oracle (s : State) (c : BusCall) : (s.afterCall c).oracle = (s.answerOf c).2 := rfl
@[simp] theorem afterCall_tick (s : State) (c : BusCall) : (s.afterCall c).tick = s.tick + 1 := rfl

@[simp] theorem begin_cfg (s : State) (op : OpName) (l : Latches) : (s.begin op l).cfg = s.cfg := rfl
@[simp] theorem begin_ans (s : State) (op : OpName) (l : Latches) : (s.begin op l).ans = s.ans := rfl
@[simp] theorem begin_bound (s : State) (op : OpName) (l : Latches) : (s.begin op l).bound = s.bound := rfl
@[simp] theorem begin_transport (s : State) (op : OpName) (l : Latches) : (s.begin op l).transport = s.transport := rfl
@[simp] theorem begin_seq (s : State) (op : OpName) (l : Latches) : (s.begin op l).seq = { Seq.cleared with busy := true, curOp := some op } := rfl
@[simp] theorem begin_lat (s : State) (op : OpName) (l : Latches) : (s.begin op l).lat = l := rfl
@[simp] theorem begin_locked (s : State) (op : OpName) (l : Latches) : (s.begin op l).locked = s.locked := rfl
@[simp] theorem begin_trace (s : State) (op : OpName) (l : Latches) : (s.begin op l).trace = s.trace := rfl
@[simp] theorem begin_sink (s : State) (op : OpName) (l : Latches) : (s.begin op l).sink = s.sink := rfl
@[simp] theorem begin_resp (s : State) (op : OpName) (l : Latches) : (s.begin op l).resp = none := rfl
@[simp] theorem begin_answers (s : State) (op : OpName) (l : Latches) : (s.begin op l).answers = s.answers := rfl
@[simp] theorem begin_parsed (s : State) (op : OpName) (l : Latches) : (s.begin op l).parsed = none := rfl
@[simp] theorem begin_owner (s : State) (op : OpName) (l : Latches) : (s.begin op l).owner = s.owner := rfl
@[simp] theorem begin_held (s : State) (op : OpName) (l : Latches) : (s.begin op l).held = s.held := rfl
@[simp] theorem begin_oracle (s : State) (op : OpName) (l : Latches) : (s.begin op l).oracle = s.oracle := rfl
@[simp] theorem begin_tick (s : State) (op : OpName) (l : Latches) : (s.begin op l).tick = s.tick := rfl

@[simp] theorem beginLocked_cfg (s : State) (op : OpName) (l : Latches) : (s.beginLocked op l).cfg = s.cfg := rfl
@[simp] theorem beginLocked_ans (s : State) (op : OpName) (l : Latches) : (s.beginLocked op l).ans = s.ans := rfl
@[simp] theorem beginLocked_bound (s : State) (op : OpName) (l : Latches) : (s.beginLocked op l).bound = s.bound := rfl
@[simp] theorem beginLocked_transport (s : State) (op : OpName) (l : Latches) : (s.beginLocked op l).transport = s.transport := rfl
@[simp] theorem beginLocked_seq (s : State) (op : OpName) (l : Latches) : (s.beginLocked op l).seq = { Seq.cleared with busy := true, curOp := some op } := rfl
@[simp] theorem beginLocked_lat (s : State) (op : OpName) (l : Latches) : (s.beginLocked op l).lat = l := rfl
@[simp] theorem beginLocked_locked (s : State) (op : OpName) (l : Latches) : (s.beginLocked op l).locked = true := rfl
@[simp] theorem beginLocked_trace (s : State) (op : OpName) (l : Latches) : (s.beginLocked op l).trace = s.trace := rfl
@[simp] theorem beginLocked_sink (s : State) (op : OpName) (l : Latches) : (s.beginLocked op l).sink = s.sink := rfl
@[simp] theorem beginLocked_resp (s : State) (op : OpName) (l : Latches) : (s.beginLocked op l).resp = none := rfl
@[simp] theorem beginLocked_answers (s : State) (op : OpName) (l : Latches) : (s.beginLocked op l).answers = s.answers := rfl
@[simp] theorem beginLocked_parsed (s : State) (op : OpName) (l : Latches) : (s.beginLocked op l).parsed = none := rfl
@[simp] theorem beginLocked_owner (s : State) (op : OpName) (l : Latches) : (s.beginLocked op l).owner = s.owner := rfl
@[simp] theorem beginLocked_held (s : State) (op : OpName) (l : Latches) : (s.beginLocked op l).held = s.held := rfl
@[simp] theorem beginLocked_oracle (s : State) (op : OpName) (l : Latches) : (s.beginLocked op l).oracle = s.oracle := rfl
@[simp] theorem beginLocked_tick (s : State) (op : OpName) (l : Latches) : (s.beginLocked op l).tick = s.tick := rfl

@[simp] theorem finish_cfg (s : State) (r : Response) : (s.finish r).cfg = s.cfg := rfl
@[simp] theorem finish_ans (s : State) (r : Response) : (s.finish r).ans = s.ans := rfl
@[simp] theorem finish_bound (s : State) (r : Response) : (s.finish r).bound = s.bound := rfl
@[simp] theorem finish_transport (s : State) (r : Response) : (s.finish r).transport = s.transport := rfl
@[simp] theorem finish_seq (s : State) (r : Response) : (s.finish r).seq = Seq.cleared := rfl
@[simp] theorem finish_lat (s : State) (r : Response) : (s.finish r).lat = Latches.cleared := rfl
@[simp] theorem finish_locked (s : State) (r : Response) : (s.finish r).locked = false := rfl
@[simp] theorem finish_trace (s : State) (r : Response) : (s.finish r).trace = s.trace := rfl
@[simp] theorem finish_sink (s : State) (r : Response) : (s.finish r).sink = s.sink := rfl
@[simp] theorem finish_resp (s : State) (r : Response) : (s.finish r).resp = some r := rfl
@[simp] theorem finish_answers (s : State) (r : Response) : (s.finish r).answers = s.answers := rfl
@[simp] theorem finish_parsed (s : State) (r : Response) : (s.finish r).parsed = none := rfl
@[simp] theorem finish_owner (s : State) (r : Response) : (s.finish r).owner = s.owner := rfl
@[simp] theorem finish_held (s : State) (r : Response) : (s.finish r).held = s.held := rfl
@[simp] theorem finish_oracle (s : State) (r : Response) : (s.finish r).oracle = s.oracle := rfl
@[simp] theorem finish_tick (s : State) (r : Response) : (s.finish r).tick = s.tick := rfl

@[simp] theorem dropParsed_cfg (s : State) : s.dropParsed.cfg = s.cfg := rfl
@[simp] theorem dropParsed_ans (s : State) : s.dropParsed.ans = s.ans := rfl
@[simp] theorem dropParsed_bound (s : State) : s.dropParsed.bound = s.bound := rfl
@[simp] theorem dropParsed_transport (s : State) : s.dropParsed.transport = s.transport := rfl
@[simp] theorem dropParsed_seq (s : State) : s.dropParsed.seq = s.seq := rfl
@[simp] theorem dropParsed_lat (s : State) : s.dropParsed.lat = s.lat := rfl
@[simp] theorem dropParsed_locked (s : State) : s.dropParsed.locked = s.locked := rfl
@[simp] theorem dropParsed_trace (s : State) : s.dropParsed.trace = s.trace := rfl
@[simp] theorem dropParsed_sink (s : State) : s.dropParsed.sink = s.sink := rfl
@[simp] theorem dropParsed_resp (s : State) : s.dropParsed.resp = s.resp := rfl
@[simp] theorem dropParsed_answers (s : State) : s.dropParsed.answers = s.answers := rfl
@[simp] theorem dropParsed_parsed (s : State) : s.dropParsed.parsed = none := rfl
@[simp] theorem dropParsed_owner (s : State) : s.dropParsed.owner = s.owner := rfl
@[simp] theorem dropParsed_held (s : State) : s.dropParsed.held = s.held := rfl
@[simp] theorem dropParsed_oracle (s : State) : s.dropParsed.oracle = s.oracle := rfl
@[simp] theorem dropParsed_tick (s : State) : s.dropParsed.tick = s.tick := rfl

@[simp] theorem latch_cfg (s : State) (l : Latches) : (s.latch l).cfg = s.cfg := rfl
@[simp] theorem latch_ans (s : State) (l : Latches) : (s.latch l).ans = s.ans := rfl
@[simp] theorem latch_bound (s : State) (l : Latches) : (s.latch l).bound = s.bound := rfl
@[simp] theorem latch_transport (s : State) (l : Latches) : (s.latch l).transport = s.transport := rfl
@[simp] theorem latch_seq (s : State) (l : Latches) : (s.latch l).seq = s.seq := rfl
@[simp] theorem latch_lat (s : State) (l : Latches) : (s.latch l).lat = l := rfl
@[simp] theorem latch_locked (s : State) (l : Latches) : (s.latch l).locked = s.locked := rfl
@[simp] theorem latch_trace (s : State) (l : Latches) : (s.latch l).trace = s.trace := rfl
@[simp] theorem latch_sink (s : State) (l : Latches) : (s.latch l).sink = s.sink := rfl
@[simp] theorem latch_resp (s : State) (l : Latches) : (s.latch l).resp = s.resp := rfl
@[simp] theorem latch_answers (s : State) (l : Latches) : (s.latch l).answers = s.answers := rfl
@[simp] theorem latch_parsed (s : State) (l : Latches) : (s.latch l).parsed = s.parsed := rfl
@[simp] theorem latch_owner (s : State) (l : Latches) : (s.latch l).owner = s.owner := rfl
@[simp] theorem latch_held (s : State) (l : Latches) : (s.latch l).held = s.held := rfl
@[simp] theorem latch_oracle (s : State) (l : Latches) : (s.latch l).oracle = s.oracle := rfl
@[simp] theorem latch_tick (s : State) (l : Latches) : (s.latch l).tick = s.tick := rfl

@[simp] theorem parseReturns_cfg (s : State) (r : Response) : (s.parseReturns r).cfg = s.cfg := rfl
@[simp] theorem parseReturns_ans (s : State) (r : Response) : (s.parseReturns r).ans = s.ans := rfl
@[simp] theorem parseReturns_bound (s : State) (r : Response) : (s.parseReturns r).bound = s.bound := rfl
@[simp] theorem parseReturns_transport (s : State) (r : Response) : (s.parseReturns r).transport = s.transport := rfl
@[simp] theorem parseReturns_seq (s : State) (r : Response) : (s.parseReturns r).seq = s.seq := rfl
@[simp] theorem parseReturns_lat (s : State) (r : Response) : (s.parseReturns r).lat = s.lat := rfl
@[simp] theorem parseReturns_locked (s : State) (r : Response) : (s.parseReturns r).locked = s.locked := rfl
@[simp] theorem parseReturns_trace (s : State) (r : Response) : (s.parseReturns r).trace = s.trace := rfl
@[simp] theorem parseReturns_sink (s : State) (r : Response) : (s.parseReturns r).sink = s.sink := rfl
@[simp] theorem parseReturns_resp (s : State) (r : Response) : (s.parseReturns r).resp = s.resp := rfl
@[simp] theorem parseReturns_answers (s : State) (r : Response) : (s.parseReturns r).answers = s.answers := rfl
@[simp] theorem parseReturns_parsed (s : State) (r : Response) : (s.parseReturns r).parsed = some r := rfl
@[simp] theorem parseReturns_owner (s : State) (r : Response) : (s.parseReturns r).owner = s.owner := rfl
@[simp] theorem parseReturns_held (s : State) (r : Response) : (s.parseReturns r).held = s.held := rfl
@[simp] theorem parseReturns_oracle (s : State) (r : Response) : (s.parseReturns r).oracle = s.oracle := rfl
@[simp] theorem parseReturns_tick (s : State) (r : Response) : (s.parseReturns r).tick = s.tick := rfl

@[simp] theorem emit_cfg (s : State) (bytes : List Byte) : (s.emit bytes).cfg = s.cfg := rfl
@[simp] theorem emit_ans (s : State) (bytes : List Byte) : (s.emit bytes).ans = s.ans := rfl
@[simp] theorem emit_bound (s : State) (bytes : List Byte) : (s.emit bytes).bound = s.bound := rfl
@[simp] theorem emit_transport (s : State) (bytes : List Byte) : (s.emit bytes).transport = s.transport := rfl
@[simp] theorem emit_seq (s : State) (bytes : List Byte) : (s.emit bytes).seq = s.seq := rfl
@[simp] theorem emit_lat (s : State) (bytes : List Byte) : (s.emit bytes).lat = s.lat := rfl
@[simp] theorem emit_locked (s : State) (bytes : List Byte) : (s.emit bytes).locked = s.locked := rfl
@[simp] theorem emit_trace (s : State) (bytes : List Byte) : (s.emit bytes).trace = s.trace := rfl
@[simp] theorem emit_sink (s : State) (bytes : List Byte) : (s.emit bytes).sink = s.sink ++ bytes := rfl
@[simp] theorem emit_resp (s : State) (bytes : List Byte) : (s.emit bytes).resp = s.resp := rfl
@[simp] theorem emit_answers (s : State) (bytes : List Byte) : (s.emit bytes).answers = s.answers := rfl
@[simp] theorem emit_parsed (s : State) (bytes : List Byte) : (s.emit bytes).parsed = s.parsed := rfl
@[simp] theorem emit_owner (s : State) (bytes : List Byte) : (s.emit bytes).owner = s.owner := rfl
@[simp] theorem emit_held (s : State) (bytes : List Byte) : (s.emit bytes).held = s.held := rfl
@[simp] theorem emit_oracle (s : State) (bytes : List Byte) : (s.emit bytes).oracle = s.oracle := rfl
@[simp] theorem emit_tick (s : State) (bytes : List Byte) : (s.emit bytes).tick = s.tick := rfl

@[simp] theorem turnTo_cfg (s : State) (src : Nat) : (s.turnTo src).cfg = s.cfg := rfl
@[simp] theorem turnTo_ans (s : State) (src : Nat) : (s.turnTo src).ans = s.ansOf src := rfl
@[simp] theorem turnTo_bound (s : State) (src : Nat) : (s.turnTo src).bound = s.bound := rfl
@[simp] theorem turnTo_transport (s : State) (src : Nat) : (s.turnTo src).transport = s.transport := rfl
@[simp] theorem turnTo_seq (s : State) (src : Nat) : (s.turnTo src).seq = s.seq := rfl
@[simp] theorem turnTo_lat (s : State) (src : Nat) : (s.turnTo src).lat = s.lat := rfl
@[simp] theorem turnTo_locked (s : State) (src : Nat) : (s.turnTo src).locked = s.locked := rfl
@[simp] theorem turnTo_trace (s : State) (src : Nat) : (s.turnTo src).trace = s.trace := rfl
@[simp] theorem turnTo_sink (s : State) (src : Nat) : (s.turnTo src).sink = s.sink := rfl
@[simp] theorem turnTo_resp (s : State) (src : Nat) : (s.turnTo src).resp = if src = s.owner then s.resp else none := rfl
@[simp] theorem turnTo_parsed (s : State) (src : Nat) : (s.turnTo src).parsed = s.parsed := rfl
@[simp] theorem turnTo_owner (s : State) (src : Nat) : (s.turnTo src).owner = src := rfl
@[simp] theorem turnTo_held (s : State) (src : Nat) : (s.turnTo src).held = s.held := rfl
@[simp] theorem turnTo_oracle (s : State) (src : Nat) : (s.turnTo src).oracle = s.oracle := rfl
@[simp] theorem turnTo_tick (s : State) (src : Nat) : (s.turnTo src).tick = s.tick := rfl

@[simp] theorem take_cfg (s : State) (h : Held) : (s.take h).cfg = s.cfg := rfl
@[simp] theorem take_ans (s : State) (h : Held) : (s.take h).ans = s.ansOf (s.turnFor h) := rfl
@[simp] theorem take_bound (s : State) (h : Held) : (s.take h).bound = s.bound := rfl
@[simp] theorem take_transport (s : State) (h : Held) : (s.take h).transport = s.transport := rfl
@[simp] theorem take_seq (s : State) (h : Held) : (s.take h).seq = s.seq := rfl
@[simp] theorem take_lat (s : State) (h : Held) : (s.take h).lat = s.lat := rfl
@[simp] theorem take_locked (s : State) (h : Held) : (s.take h).locked = s.locked := rfl
@[simp] theorem take_trace (s : State) (h : Held) : (s.take h).trace = s.trace := rfl
@[simp] theorem take_sink (s : State) (h : Held) : (s.take h).sink = s.sink := rfl
@[simp] theorem take_resp (s : State) (h : Held) : (s.take h).resp = if s.turnFor h = s.owner then s.resp else none := rfl
@[simp] theorem take_parsed (s : State) (h : Held) : (s.take h).parsed = none := rfl
@[simp] theorem take_owner (s : State) (h : Held) : (s.take h).owner = s.turnFor h := rfl
@[simp] theorem take_held (s : State) (h : Held) : (s.take h).held = dropFirst h.src s.held := rfl
@[simp] theorem take_oracle (s : State) (h : Held) : (s.take h).oracle = s.oracle := rfl
@[simp] theorem take_tick (s : State) (h : Held) : (s.take h).tick = s.tick + 1 := rfl

@[simp] theorem resetKeeping_cfg (s : State) : s.resetKeeping.cfg = s.cfg := rfl
@[simp] theorem resetKeeping_ans (s : State) : s.resetKeeping.ans = Buffer.zero := rfl
@[simp] theorem resetKeeping_bound (s : State) : s.resetKeeping.bound = false := rfl
@[simp] theorem resetKeeping_transport (s : State) : s.resetKeeping.transport = 0 := rfl
@[simp] theorem resetKeeping_seq (s : State) : s.resetKeeping.seq = Seq.cleared := rfl
@[simp] theorem resetKeeping_lat (s : State) : s.resetKeeping.lat = Latches.cleared := rfl
@[simp] theorem resetKeeping_locked (s : State) : s.resetKeeping.locked = false := rfl
@[simp] theorem resetKeeping_trace (s : State) : s.resetKeeping.trace = [] := rfl
@[simp] theorem resetKeeping_sink (s : State) : s.resetKeeping.sink = [] := rfl
@[simp] theorem resetKeeping_resp (s : State) : s.resetKeeping.resp = none := rfl
@[simp] theorem resetKeeping_answers (s : State) : s.resetKeeping.answers = [] := rfl
@[simp] theorem resetKeeping_parsed (s : State) : s.resetKeeping.parsed = none := rfl
@[simp] theorem resetKeeping_owner (s : State) : s.resetKeeping.owner = 0 := rfl
@[simp] theorem resetKeeping_held (s : State) : s.resetKeeping.held = s.held := rfl
@[simp] theorem resetKeeping_oracle (s : State) : s.resetKeeping.oracle = s.oracle := rfl
@[simp] theorem resetKeeping_tick (s : State) : s.resetKeeping.tick = s.tick := rfl

@[simp] theorem writeDest_cfg (s : State) (d : Dest) (i : Nat) (b : Byte) : (s.writeDest d i b).cfg = s.cfg := by
  cases d <;> rfl
@[simp] theorem writeDest_bound (s : State) (d : Dest) (i : Nat) (b : Byte) : (s.writeDest d i b).bound = s.bound := by
  cases d <;> rfl
@[simp] theorem writeDest_transport (s : State) (d : Dest) (i : Nat) (b : Byte) : (s.writeDest d i b).transport = s.transport := by
  cases d <;> rfl
@[simp] theorem writeDest_lat (s : State) (d : Dest) (i : Nat) (b : Byte) : (s.writeDest d i b).lat = s.lat := by
  cases d <;> rfl
@[simp] theorem writeDest_locked (s : State) (d : Dest) (i : Nat) (b : Byte) : (s.writeDest d i b).locked = s.locked := by
  cases d <;> rfl
@[simp] theorem writeDest_trace (s : State) (d : Dest) (i : Nat) (b : Byte) : (s.writeDest d i b).trace = s.trace := by
  cases d <;> rfl
@[simp] theorem writeDest_sink (s : State) (d : Dest) (i : Nat) (b : Byte) : (s.writeDest d i b).sink = s.sink := by
  cases d <;> rfl
@[simp] theorem writeDest_resp (s : State) (d : Dest) (i : Nat) (b : Byte) : (s.writeDest d i b).resp = s.resp := by
  cases d <;> rfl
@[simp] theorem writeDest_answers (s : State) (d : Dest) (i : Nat) (b : Byte) : (s.writeDest d i b).answers = s.answers := by
  cases d <;> rfl
@[simp] theorem writeDest_parsed (s : State) (d : Dest) (i : Nat) (b : Byte) : (s.writeDest d i b).parsed = s.parsed := by
  cases d <;> rfl
@[simp] theorem writeDest_owner (s : State) (d : Dest) (i : Nat) (b : Byte) : (s.writeDest d i b).owner = s.owner := by
  cases d <;> rfl
@[simp] theorem writeDest_held (s : State) (d : Dest) (i : Nat) (b : Byte) : (s.writeDest d i b).held = s.held := by
  cases d <;> rfl
@[simp] theorem writeDest_oracle (s : State) (d : Dest) (i : Nat) (b : Byte) : (s.writeDest d i b).oracle = s.oracle := by
  cases d <;> rfl
@[simp] theorem writeDest_tick (s : State) (d : Dest) (i : Nat) (b : Byte) : (s.writeDest d i b).tick = s.tick := by
  cases d <;> rfl
@[simp] theorem writeDest_seq_busy (s : State) (d : Dest) (i : Nat) (b : Byte) :
    (s.writeDest d i b).seq.busy = s.seq.busy := by
  cases d <;> rfl
@[simp] theorem writeDest_seq_curOp (s : State) (d : Dest) (i : Nat) (b : Byte) :
    (s.writeDest d i b).seq.curOp = s.seq.curOp := by
  cases d <;> rfl
@[simp] theorem writeDest_seq_i (s : State) (d : Dest) (i : Nat) (b : Byte) :
    (s.writeDest d i b).seq.i = s.seq.i := by
  cases d <;> rfl
@[simp] theorem writeDest_seq_n (s : State) (d : Dest) (i : Nat) (b : Byte) :
    (s.writeDest d i b).seq.n = s.seq.n := by
  cases d <;> rfl
@[simp] theorem writeDest_seq_lvl (s : State) (d : Dest) (i : Nat) (b : Byte) :
    (s.writeDest d i b).seq.lvl = s.seq.lvl := by
  cases d <;> rfl
@[simp] theorem writeDest_seq_polls (s : State) (d : Dest) (i : Nat) (b : Byte) :
    (s.writeDest d i b).seq.polls = s.seq.polls := by
  cases d <;> rfl
@[simp] theorem writeDest_seq_wait (s : State) (d : Dest) (i : Nat) (b : Byte) :
    (s.writeDest d i b).seq.wait = s.seq.wait := by
  cases d <;> rfl

@[simp] theorem writeDest_ans_ans (s : State) (i : Nat) (b : Byte) :
    (s.writeDest .ans i b).ans = s.ans.setIfInBounds i b := rfl
@[simp] theorem writeDest_ans_seq (s : State) (i : Nat) (b : Byte) : (s.writeDest .ans i b).seq = s.seq := rfl
@[simp] theorem writeDest_tmp_ans (s : State) (i : Nat) (b : Byte) : (s.writeDest .tmp i b).ans = s.ans := rfl
@[simp] theorem writeDest_tmp_tmp (s : State) (i : Nat) (b : Byte) : (s.writeDest .tmp i b).seq.tmp = b := rfl
@[simp] theorem writeDest_tmp_loc (s : State) (i : Nat) (b : Byte) : (s.writeDest .tmp i b).seq.loc = s.seq.loc := rfl
@[simp] theorem writeDest_loc_ans (s : State) (i : Nat) (b : Byte) : (s.writeDest .loc i b).ans = s.ans := rfl
@[simp] theorem writeDest_loc_tmp (s : State) (i : Nat) (b : Byte) : (s.writeDest .loc i b).seq.tmp = s.seq.tmp := rfl
@[simp] theorem writeDest_loc_loc (s : State) (i : Nat) (b : Byte) :
    (s.writeDest .loc i b).seq.loc = s.seq.loc.setIfInBounds i b := rfl

end Sys2Proof.Machine
end

