-- ==== Sys2Proof/Laws/Answers.lean ====
section
/-! SUPPORT. Each requester's own answer buffer: reading after recording, whose turn it is, and the canonical form. -/

namespace Sys2Proof.Machine

/-! ### The list -/

@[simp] theorem answerAt_dropAnswer_self (src : Nat) (l : List (Nat × Buffer)) : answerAt (dropAnswer src l) src = Buffer.zero := by
  induction l with
  | nil => rfl
  | cons e l ih => by_cases h : e.1 = src <;> simp_all [dropAnswer, answerAt]

theorem answerAt_dropAnswer (l : List (Nat × Buffer)) {src g : Nat} (h : g ≠ src) : answerAt (dropAnswer src l) g = answerAt l g := by
  induction l with
  | nil => rfl
  | cons e l ih =>
    unfold dropAnswer at *
    by_cases he : e.1 = src
    · have hg : src ≠ g := fun hg => h hg.symm
      simpa [he, answerAt, hg] using ih
    · simp [he, answerAt, ih]

theorem answerAt_insertAnswer_self (src : Nat) (p : Buffer) (l : List (Nat × Buffer)) (h : ∀ e ∈ l, e.1 ≠ src) :
    answerAt (insertAnswer src p l) src = p := by
  induction l with
  | nil => simp [insertAnswer, answerAt]
  | cons e l ih =>
    unfold insertAnswer
    split
    · simp [answerAt]
    · simp [answerAt, h e (by simp), ih fun x hx => h x (by simp [hx])]

theorem answerAt_insertAnswer (p : Buffer) (l : List (Nat × Buffer)) {src g : Nat} (h : g ≠ src) :
    answerAt (insertAnswer src p l) g = answerAt l g := by
  induction l with
  | nil => simp [insertAnswer, answerAt, h.symm]
  | cons e l ih =>
    unfold insertAnswer
    split
    · simp [answerAt, h.symm]
    · simp [answerAt, ih]

theorem ne_of_mem_dropAnswer {src : Nat} {l : List (Nat × Buffer)} {e : Nat × Buffer} (h : e ∈ dropAnswer src l) : e.1 ≠ src := by
  simpa using (List.mem_filter.mp h).2

/-- Recording a requester's answer buffer is read back. -/
@[simp] theorem answerAt_setAnswer_self (src : Nat) (p : Buffer) (l : List (Nat × Buffer)) : answerAt (setAnswer src p l) src = p := by
  unfold setAnswer
  split
  · next h => rw [answerAt_dropAnswer_self, h]
  · exact answerAt_insertAnswer_self _ _ _ fun e he => ne_of_mem_dropAnswer he

/-- It leaves every other requester's alone. -/
theorem answerAt_setAnswer (p : Buffer) (l : List (Nat × Buffer)) {src g : Nat} (h : g ≠ src) :
    answerAt (setAnswer src p l) g = answerAt l g := by
  unfold setAnswer
  split
  · exact answerAt_dropAnswer l h
  · rw [answerAt_insertAnswer p _ h, answerAt_dropAnswer l h]

theorem mem_insertAnswer {src : Nat} {p : Buffer} {l : List (Nat × Buffer)} {e : Nat × Buffer} :
    e ∈ insertAnswer src p l ↔ e = (src, p) ∨ e ∈ l := by
  induction l with
  | nil => simp [insertAnswer]
  | cons a l ih =>
    unfold insertAnswer
    split
    · simp
    · simp [ih, or_left_comm]

theorem pairwise_insertAnswer {src : Nat} (p : Buffer) {l : List (Nat × Buffer)} (hl : l.Pairwise fun a b => a.1 < b.1)
    (h : ∀ e ∈ l, e.1 ≠ src) : (insertAnswer src p l).Pairwise fun a b => a.1 < b.1 := by
  induction l with
  | nil => simp [insertAnswer]
  | cons a l ih =>
    have ha := List.pairwise_cons.mp hl
    unfold insertAnswer
    split
    · next hlt =>
      refine List.pairwise_cons.mpr ⟨fun e he => ?_, hl⟩
      rcases List.mem_cons.mp he with rfl | he
      · exact hlt
      · exact Nat.lt_trans hlt (ha.1 e he)
    · next hge =>
      have hne : a.1 ≠ src := h a (by simp)
      refine List.pairwise_cons.mpr ⟨fun e he => ?_, ih ha.2 fun e he => h e (by simp [he])⟩
      rcases mem_insertAnswer.mp he with rfl | he
      · show a.1 < src
        omega
      · exact ha.1 e he

/-! ### Whose turn it is -/

/-- It is already this requester's turn. -/
@[simp] theorem turnTo_owner_self (s : State) : s.turnTo s.owner = s := by
  simp [State.turnTo, State.ansOf]

/-- Every requester's answer buffer is the same whoever's turn it is (R168). -/
@[simp] theorem ansOf_turnTo (s : State) (src g : Nat) : (s.turnTo src).ansOf g = s.ansOf g := by
  by_cases hs : src = s.owner
  · subst hs
    rw [turnTo_owner_self]
  · by_cases hg : g = src
    · subst hg
      simp [State.turnTo, State.ansOf]
    · by_cases ho : g = s.owner
      · subst ho
        simp [State.turnTo, State.ansOf, hg, hs]
      · simp [State.turnTo, State.ansOf, hg, hs, ho, answerAt_setAnswer _ _ ho, answerAt_dropAnswer _ hg]

@[simp] theorem ansOf_take (s : State) (h : Held) (g : Nat) : (s.take h).ansOf g = s.ansOf g :=
  ansOf_turnTo s (s.turnFor h) g

/-- Another requester's answer buffer is not touched by what changes neither whose turn it is nor what is kept for the others. -/
theorem ansOf_of_kept {s t : State} (ho : t.owner = s.owner) (hp : t.answers = s.answers) {g : Nat} (hg : g ≠ s.owner) :
    t.ansOf g = s.ansOf g := by
  simp [State.ansOf, ho, hp, hg]

/-- A response is a value: it is gone when it is another requester's turn (R24). -/
theorem resp_turnTo_of_ne (s : State) {src : Nat} (h : src ≠ s.owner) : (s.turnTo src).resp = none := by
  simp [h]

/-- A line takes nobody's turn. -/
theorem take_of_isText (s : State) {h : Held} (ht : h.isText = true) :
    s.take h = { s with held := dropFirst h.src s.held, tick := s.tick + 1, parsed := none } := by
  simp [State.take, State.turnFor, ht]

/-- The canonical form is kept when it is another requester's turn. -/
theorem answersWf_turnTo (s : State) (src : Nat) (h : answersWf s.owner s.answers) :
    answersWf (s.turnTo src).owner (s.turnTo src).answers := by
  by_cases hs : src = s.owner
  · subst hs
    rwa [turnTo_owner_self]
  · have hd : ∀ a, (dropAnswer a (dropAnswer src s.answers)).Pairwise fun a b => a.1 < b.1 := fun a => (h.1.filter _).filter _
    have hm : ∀ e ∈ dropAnswer s.owner (dropAnswer src s.answers), e.1 ≠ src ∧ e.2 ≠ Buffer.zero := fun e he =>
      ⟨ne_of_mem_dropAnswer (List.mem_filter.mp he).1, (h.2 e (List.mem_filter.mp (List.mem_filter.mp he).1).1).2⟩
    show answersWf src (if src = s.owner then s.answers else setAnswer s.owner s.ans (dropAnswer src s.answers))
    rw [if_neg hs]
    unfold setAnswer
    split
    · exact ⟨hd _, hm⟩
    · next hne =>
      refine ⟨pairwise_insertAnswer _ (hd _) fun e he => ne_of_mem_dropAnswer he, fun e he => ?_⟩
      rcases mem_insertAnswer.mp he with rfl | he
      · exact ⟨fun h => hs h.symm, hne⟩
      · exact hm e he

end Sys2Proof.Machine
end

