-- ==== Sys2Proof/Laws/Encoding.lean ====
section
/-! SUPPORT. The small lemmas of the encodings: bytes and numbers, the fields of format R, the fields of a text line, and the
fields of a status byte and a level byte. -/

namespace Sys2Proof

/-! ### Bytes and numbers -/

theorem bytesLE_length (k w : Nat) : (bytesLE k w).length = k := by
  induction k generalizing w with
  | zero => rfl
  | succ k ih => simp [bytesLE, ih]

theorem natLE_bytesLE (k w : Nat) : natLE (bytesLE k w) = w % 256 ^ k := by
  induction k generalizing w with
  | zero => simp [bytesLE, natLE, Nat.mod_one]
  | succ k ih =>
    simp only [bytesLE, natLE, ih, BitVec.toNat_ofNat]
    have split := @Nat.mod_mul 256 (256 ^ k) w
    have power : 256 ^ (k + 1) = 256 * 256 ^ k := by rw [Nat.pow_succ, Nat.mul_comm]
    rw [power, split]

theorem bufferOf_toList (d : Buffer) : bufferOf d.toList = d := by
  apply Vector.toList_inj.1
  show (d.toList ++ List.replicate 25 0).take 25 = _
  simp

/-- The 25 bytes of a list: its first 25, then zeros (R136). -/
theorem bufferOf_bytes (l : List Byte) : (bufferOf l).toList = l.take 25 ++ List.replicate (25 - l.length) 0 := by
  show (l ++ List.replicate 25 0).take 25 = _
  rw [List.take_append, List.take_replicate, Nat.min_eq_left (by omega)]

/-! ### Format R -/

theorem Request.header_lt (r : Request) : r.header < 256 ^ 6 := by
  have h1 := r.op.isLt; have h2 := r.reg.isLt; have h4 := r.a.isLt; have h5 := r.code.isLt
  have h6 := r.b.isLt; have h7 := r.v.isLt; have h8 := r.n.isLt; have h9 := r.declaredLen.isLt
  have b1 := Bool.toNat_lt r.m; have b2 := Bool.toNat_lt r.pwr; have b3 := Bool.toNat_lt r.rcv
  unfold Request.header bitNat
  omega

theorem natBit_eq {w k : Nat} {b : Bool} (h : w / 2 ^ k % 2 = b.toNat) : natBit w k = b := by
  unfold natBit; rw [h]; cases b <;> rfl

/-- Every field of a request stands where `Request.header` puts it (log 6). -/
theorem Request.ofHeader_header (r : Request) : Request.ofHeader r.header r.data = r := by
  have h1 := r.op.isLt; have h2 := r.reg.isLt; have h4 := r.a.isLt; have h5 := r.code.isLt
  have h6 := r.b.isLt; have h7 := r.v.isLt; have h8 := r.n.isLt; have h9 := r.declaredLen.isLt
  have b1 := Bool.toNat_lt r.m; have b2 := Bool.toNat_lt r.pwr; have b3 := Bool.toNat_lt r.rcv
  have e1 : BitVec.ofNat 4 r.header = r.op := by
    apply BitVec.eq_of_toNat_eq; rw [BitVec.toNat_ofNat]; unfold Request.header bitNat; omega
  have e2 : BitVec.ofNat 2 (r.header / 2 ^ 4) = r.reg := by
    apply BitVec.eq_of_toNat_eq; rw [BitVec.toNat_ofNat]; unfold Request.header bitNat; omega
  have e3 : natBit r.header 6 = r.m := natBit_eq (by unfold Request.header bitNat; omega)
  have e4 : BitVec.ofNat 6 (r.header / 2 ^ 7) = r.a := by
    apply BitVec.eq_of_toNat_eq; rw [BitVec.toNat_ofNat]; unfold Request.header bitNat; omega
  have e5 : BitVec.ofNat 4 (r.header / 2 ^ 13) = r.code := by
    apply BitVec.eq_of_toNat_eq; rw [BitVec.toNat_ofNat]; unfold Request.header bitNat; omega
  have e6 : natBit r.header 17 = r.pwr := natBit_eq (by unfold Request.header bitNat; omega)
  have e7 : natBit r.header 18 = r.rcv := natBit_eq (by unfold Request.header bitNat; omega)
  have e8 : BitVec.ofNat 8 (r.header / 2 ^ 19) = r.b := by
    apply BitVec.eq_of_toNat_eq; rw [BitVec.toNat_ofNat]; unfold Request.header bitNat; omega
  have e9 : BitVec.ofNat 8 (r.header / 2 ^ 27) = r.v := by
    apply BitVec.eq_of_toNat_eq; rw [BitVec.toNat_ofNat]; unfold Request.header bitNat; omega
  have e10 : BitVec.ofNat 5 (r.header / 2 ^ 35) = r.n := by
    apply BitVec.eq_of_toNat_eq; rw [BitVec.toNat_ofNat]; unfold Request.header bitNat; omega
  have e11 : BitVec.ofNat 8 (r.header / 2 ^ 40) = r.declaredLen := by
    apply BitVec.eq_of_toNat_eq; rw [BitVec.toNat_ofNat]; unfold Request.header bitNat; omega
  unfold Request.ofHeader
  rw [e1, e2, e3, e4, e5, e6, e7, e8, e9, e10, e11]

theorem Request.bytes_length (r : Request) : r.bytes.length = 31 := by
  simp [Request.bytes, bytesLE_length]

theorem Request.ofBytes_bytes (r : Request) : Request.ofBytes r.bytes = some r := by
  have hl := bytesLE_length 6 r.header
  unfold Request.ofBytes
  rw [if_pos r.bytes_length]
  unfold Request.bytes
  rw [List.take_append_of_le_length (by omega), List.take_of_length_le (by omega),
    List.drop_append_of_le_length (by omega), List.drop_of_length_le (by omega), List.nil_append, natLE_bytesLE,
    Nat.mod_eq_of_lt r.header_lt, bufferOf_toList, Request.ofHeader_header]

theorem decode_request (p : Params) (r : Request) : decode p .request r.bytes = .instr (decodeFields r) := by
  show decodeRequest r.bytes = _
  unfold decodeRequest; rw [Request.ofBytes_bytes]

theorem Reg.ofCode_code (r : Reg) : Reg.ofCode r.code = r := by cases r <;> rfl

/-! ### Status bytes and level bytes -/

theorem statusRowByte_fields (rsv : BitVec 2) (rcv pwr : Bool) (code : BitVec 4) :
    (statusRowByte rsv rcv pwr code).extractLsb' 6 2 = rsv ∧ rcvOf (statusRowByte rsv rcv pwr code) = rcv
      ∧ pwrOf (statusRowByte rsv rcv pwr code) = pwr ∧ (statusRowByte rsv rcv pwr code).extractLsb' 0 4 = code := by
  decide +revert

theorem statusRowByte_of_fields (b : Byte) :
    statusRowByte (b.extractLsb' 6 2) (rcvOf b) (pwrOf b) (b.extractLsb' 0 4) = b := by
  decide +revert

theorem levelRowByte_fields (x : Bool) (n : BitVec 7) :
    (levelRowByte x n).getLsbD 7 = x ∧ levelOf (levelRowByte x n) = n := by
  decide +revert

theorem levelRowByte_of_fields (b : Byte) : levelRowByte (b.getLsbD 7) (levelOf b) = b := by
  decide +revert

/-! ### Text lines -/

theorem splitColon_single {l : List Byte} (h : colon ∉ l) : splitColon l = [l] := by
  induction l with
  | nil => rfl
  | cons c cs ih =>
    simp at h
    rw [splitColon, if_neg fun e => h.1 e.symm, ih h.2]

theorem splitColon_append {l : List Byte} (m : List Byte) (h : colon ∉ l) :
    splitColon (l ++ colon :: m) = l :: splitColon m := by
  induction l with
  | nil => simp [splitColon]
  | cons c cs ih =>
    simp at h
    rw [List.cons_append, splitColon, if_neg fun e => h.1 e.symm, ih h.2]

/-- A line has one field more than ':' bytes (R132). -/
theorem splitColon_length (l : List Byte) : (splitColon l).length = l.count colon + 1 := by
  induction l with
  | nil => rfl
  | cons c cs ih =>
    by_cases hc : c = colon
    · subst hc; simp [splitColon, ih]
    · rw [splitColon, if_neg hc, List.count_cons_of_ne (by simpa using hc)]
      cases h : splitColon cs with
      | nil => rw [h] at ih; simp at ih
      | cons f fs => rw [h] at ih; simpa using ih

theorem name_noColon (c : TextCommand) : colon ∉ c.name := by cases c <;> decide

theorem resolve_name (c : TextCommand) : resolve c.name = .inl c := by cases c <;> decide

theorem resolve_inl {tok : List Byte} {c : TextCommand} (h : resolve tok = .inl c) : tok = c.name := by
  unfold resolve at h
  repeat' split at h
  all_goals first | (cases h; assumption) | cases h

/-- ASCII bytes in front of a line do not change whether it is UTF-8. -/
theorem utf8From_ascii {l : List Byte} (m : List Byte) (h : ∀ b ∈ l, b.toNat < 0x80) :
    utf8From (l ++ m) 0 0x80 0xBF = utf8From m 0 0x80 0xBF := by
  induction l with
  | nil => rfl
  | cons b l ih =>
    rw [List.cons_append, utf8From]
    simp only [utf8Lead, if_pos (h b (by simp))]
    exact ih fun x hx => h x (by simp [hx])

theorem name_ascii (c : TextCommand) : ∀ b ∈ c.name, b.toNat < 0x80 := by cases c <;> decide

end Sys2Proof
end

