-- ==== Sys2Proof/Laws/Ops.lean ====
section
/-! SUPPORT. What each shared operation can do, said once: the pieces of an operation when every frame is answered Ok and
when one fails, and what every piece does whatever the outside answers. -/

namespace Sys2Proof.Machine

/-! ### Running pieces of an operation -/

@[simp] theorem andThen_ok {α β : Type} (a : α) (s : State) (k : α → State → Run β) : (Run.ok a s).andThen k = k a s := rfl
@[simp] theorem andThen_fail {α β : Type} (f : Failure) (s : State) (k : α → State → Run β) :
    (Run.fail f s : Run α).andThen k = .fail f s := rfl
@[simp] theorem andThen_wait {α β : Type} (s : State) (k : α → State → Run β) :
    (Run.wait s : Run α).andThen k = .wait s := rfl

@[simp] theorem conclude_ok (a : Result) (s : State) : conclude (.ok a s) = .next (s.succeed a) := rfl
@[simp] theorem conclude_fail (f : Failure) (s : State) : conclude (.fail f s) = .next (s.failed f) := rfl
@[simp] theorem conclude_wait (s : State) : conclude (.wait s) = .next s.dropParsed := rfl

theorem ifBound_bound {α : Type} (k : State → Run α) {s : State} (h : s.bound = true) : ifBound k s = k s := by
  simp [ifBound, h]

theorem ifBound_unbound {α : Type} (k : State → Run α) {s : State} (h : s.bound = false) :
    ifBound k s = .fail .deviceNotBound s := by
  simp [ifBound, h]

/-! ### Transactions -/

theorem transact_ok {c : BusCall} {s : State} {b : Byte} (h : (s.answerOf c).1 = .ok b) :
    transact c s = .ok b (s.afterCall c) := by
  simp [transact, h]

theorem transact_err {c : BusCall} {s : State} (h : (s.answerOf c).1 = .err) :
    transact c s = .fail (.busError none) (s.afterCall c) := by
  simp [transact, h]

/-- One transaction, whatever the answer: one call more, a byte or BusError. -/
theorem transact_cases (c : BusCall) (s : State) :
    (∃ b, (s.answerOf c).1 = .ok b ∧ transact c s = .ok b (s.afterCall c))
      ∨ ((s.answerOf c).1 = .err ∧ transact c s = .fail (.busError none) (s.afterCall c)) := by
  cases h : (s.answerOf c).1 with
  | ok b => exact .inl ⟨b, rfl, transact_ok h⟩
  | err => exact .inr ⟨rfl, transact_err h⟩

/-! ### What the outside answers does not depend on the sequencer or the buffers -/

@[simp] theorem answerOf_setI (s : State) (i : Nat) (c : BusCall) : (s.setI i).answerOf c = s.answerOf c := rfl
@[simp] theorem answerOf_setN (s : State) (n : Nat) (c : BusCall) : (s.setN n).answerOf c = s.answerOf c := rfl
@[simp] theorem answerOf_writeDest (s : State) (d : Dest) (i : Nat) (b : Byte) (c : BusCall) :
    (s.writeDest d i b).answerOf c = s.answerOf c := by
  cases d <;> rfl

theorem afterCall_setI (s : State) (i : Nat) (c : BusCall) : (s.setI i).afterCall c = (s.afterCall c).setI i := rfl
theorem afterCall_writeDest (s : State) (d : Dest) (i : Nat) (b : Byte) (c : BusCall) :
    (s.writeDest d i b).afterCall c = (s.afterCall c).writeDest d i b := by
  cases d <;> rfl

/-- Two states the outside cannot tell apart: it answers both alike (R38). -/
def EnvEq (s t : State) : Prop :=
  s.cfg = t.cfg ∧ s.oracle = t.oracle ∧ s.transport = t.transport ∧ s.tick = t.tick ∧ s.trace = t.trace

theorem EnvEq.answerOf {s t : State} (h : EnvEq s t) (c : BusCall) : s.answerOf c = t.answerOf c := by
  obtain ⟨h1, h2, h3, h4, h5⟩ := h
  simp only [State.answerOf, h1, h2, h3, h4, h5]

theorem EnvEq.afterCall {s t : State} (h : EnvEq s t) (c : BusCall) : EnvEq (s.afterCall c) (t.afterCall c) := by
  have ha := h.answerOf c
  obtain ⟨h1, h2, h3, h4, h5⟩ := h
  exact ⟨h1, by simp [ha], h3, by simp [h4], by simp [h5, ha]⟩

theorem EnvEq.replies {s t : State} (h : EnvEq s t) (cs : List BusCall) : s.replies cs = t.replies cs := by
  induction cs generalizing s t with
  | nil => rfl
  | cons c cs ih => simp only [State.replies, h.answerOf c, ih (h.afterCall c)]

theorem EnvEq.afterCalls {s t : State} (h : EnvEq s t) (cs : List BusCall) : EnvEq (s.afterCalls cs) (t.afterCalls cs) := by
  induction cs generalizing s t with
  | nil => exact h
  | cons c cs ih => exact ih (h.afterCall c)

theorem EnvEq.oracle_afterCalls {s t : State} (h : EnvEq s t) (cs : List BusCall) :
    (s.afterCalls cs).oracle = (t.afterCalls cs).oracle := (h.afterCalls cs).2.1

theorem envEq_setI (s : State) (i : Nat) : EnvEq (s.setI i) s := ⟨rfl, rfl, rfl, rfl, rfl⟩
theorem envEq_setN (s : State) (i : Nat) : EnvEq (s.setN i) s := ⟨rfl, rfl, rfl, rfl, rfl⟩
theorem envEq_setLvl (s : State) (l : BitVec 7) : EnvEq (s.setLvl l) s := ⟨rfl, rfl, rfl, rfl, rfl⟩
theorem envEq_setPolls (s : State) (k : Nat) : EnvEq (s.setPolls k) s := ⟨rfl, rfl, rfl, rfl, rfl⟩
theorem envEq_setWait (s : State) (w : Wait) : EnvEq (s.setWait w) s := ⟨rfl, rfl, rfl, rfl, rfl⟩
theorem envEq_begin (s : State) (op : OpName) (l : Latches) : EnvEq (s.begin op l) s := ⟨rfl, rfl, rfl, rfl, rfl⟩
theorem envEq_beginLocked (s : State) (op : OpName) (l : Latches) : EnvEq (s.beginLocked op l) s :=
  ⟨rfl, rfl, rfl, rfl, rfl⟩
theorem envEq_writeDest (s : State) (d : Dest) (i : Nat) (b : Byte) : EnvEq (s.writeDest d i b) s := by
  cases d <;> exact ⟨rfl, rfl, rfl, rfl, rfl⟩

/-! ### A sequence of calls -/

/-- What calls leave alone. -/
theorem afterCalls_keeps (s : State) (cs : List BusCall) :
    (s.afterCalls cs).cfg = s.cfg ∧ (s.afterCalls cs).ans = s.ans ∧ (s.afterCalls cs).bound = s.bound
      ∧ (s.afterCalls cs).transport = s.transport ∧ (s.afterCalls cs).seq = s.seq ∧ (s.afterCalls cs).lat = s.lat
      ∧ (s.afterCalls cs).locked = s.locked ∧ (s.afterCalls cs).sink = s.sink ∧ (s.afterCalls cs).resp = s.resp
      ∧ (s.afterCalls cs).owner = s.owner ∧ (s.afterCalls cs).held = s.held ∧ (s.afterCalls cs).parsed = s.parsed
      ∧ (s.afterCalls cs).answers = s.answers := by
  induction cs generalizing s with
  | nil => simp [State.afterCalls]
  | cons c cs ih => simpa [State.afterCalls] using ih (s.afterCall c)

@[simp] theorem afterCalls_cfg (s : State) (cs : List BusCall) : (s.afterCalls cs).cfg = s.cfg := (afterCalls_keeps s cs).1
@[simp] theorem afterCalls_ans (s : State) (cs : List BusCall) : (s.afterCalls cs).ans = s.ans := (afterCalls_keeps s cs).2.1
@[simp] theorem afterCalls_bound (s : State) (cs : List BusCall) : (s.afterCalls cs).bound = s.bound :=
  (afterCalls_keeps s cs).2.2.1
@[simp] theorem afterCalls_transport (s : State) (cs : List BusCall) : (s.afterCalls cs).transport = s.transport :=
  (afterCalls_keeps s cs).2.2.2.1
@[simp] theorem afterCalls_seq (s : State) (cs : List BusCall) : (s.afterCalls cs).seq = s.seq :=
  (afterCalls_keeps s cs).2.2.2.2.1
@[simp] theorem afterCalls_lat (s : State) (cs : List BusCall) : (s.afterCalls cs).lat = s.lat :=
  (afterCalls_keeps s cs).2.2.2.2.2.1
@[simp] theorem afterCalls_locked (s : State) (cs : List BusCall) : (s.afterCalls cs).locked = s.locked :=
  (afterCalls_keeps s cs).2.2.2.2.2.2.1
@[simp] theorem afterCalls_sink (s : State) (cs : List BusCall) : (s.afterCalls cs).sink = s.sink :=
  (afterCalls_keeps s cs).2.2.2.2.2.2.2.1
@[simp] theorem afterCalls_resp (s : State) (cs : List BusCall) : (s.afterCalls cs).resp = s.resp :=
  (afterCalls_keeps s cs).2.2.2.2.2.2.2.2.1
@[simp] theorem afterCalls_owner (s : State) (cs : List BusCall) : (s.afterCalls cs).owner = s.owner :=
  (afterCalls_keeps s cs).2.2.2.2.2.2.2.2.2.1
@[simp] theorem afterCalls_held (s : State) (cs : List BusCall) : (s.afterCalls cs).held = s.held :=
  (afterCalls_keeps s cs).2.2.2.2.2.2.2.2.2.2.1
@[simp] theorem afterCalls_parsed (s : State) (cs : List BusCall) : (s.afterCalls cs).parsed = s.parsed :=
  (afterCalls_keeps s cs).2.2.2.2.2.2.2.2.2.2.2.1
@[simp] theorem afterCalls_answers (s : State) (cs : List BusCall) : (s.afterCalls cs).answers = s.answers :=
  (afterCalls_keeps s cs).2.2.2.2.2.2.2.2.2.2.2.2

/-- The trace after calls: one entry for each, in order (R42). -/
theorem afterCalls_trace (s : State) (cs : List BusCall) :
    (s.afterCalls cs).trace = s.trace ++ List.zipWith entry cs (s.replies cs) := by
  induction cs generalizing s with
  | nil => simp [State.afterCalls, State.replies]
  | cons c cs ih => simp [State.afterCalls, State.replies, ih, entry]

theorem afterCalls_append (s : State) (cs ds : List BusCall) :
    s.afterCalls (cs ++ ds) = (s.afterCalls cs).afterCalls ds := by
  induction cs generalizing s with
  | nil => rfl
  | cons c cs ih => exact ih (s.afterCall c)

theorem replies_append (s : State) (cs ds : List BusCall) :
    s.replies (cs ++ ds) = s.replies cs ++ (s.afterCalls cs).replies ds := by
  induction cs generalizing s with
  | nil => rfl
  | cons c cs ih => simp [State.replies, State.afterCalls, ih]

@[simp] theorem replies_length (s : State) (cs : List BusCall) : (s.replies cs).length = cs.length := by
  induction cs generalizing s with
  | nil => rfl
  | cons c cs ih => simp [State.replies, ih]

theorem afterCalls_setI (s : State) (i : Nat) (cs : List BusCall) :
    (s.setI i).afterCalls cs = (s.afterCalls cs).setI i := by
  induction cs generalizing s with
  | nil => rfl
  | cons c cs ih => exact ih (s.afterCall c)

theorem afterCalls_writeDest (s : State) (d : Dest) (i : Nat) (b : Byte) (cs : List BusCall) :
    (s.writeDest d i b).afterCalls cs = (s.afterCalls cs).writeDest d i b := by
  induction cs generalizing s with
  | nil => rfl
  | cons c cs ih =>
    simp only [State.afterCalls, afterCall_writeDest, ih]

/-! ### REG_RD's loop -/

/-- Bytes written to rising positions of a destination. -/
def State.fill (s : State) (d : Dest) (i : Nat) : List Byte → State
  | [] => s
  | b :: bs => (s.writeDest d i b).fill d (i + 1) bs

theorem fill_setI (s : State) (d : Dest) (i j : Nat) (bs : List Byte) : (s.setI j).fill d i bs = (s.fill d i bs).setI j := by
  induction bs generalizing s i with
  | nil => rfl
  | cons b bs ih =>
    have : (s.setI j).writeDest d i b = (s.writeDest d i b).setI j := by cases d <;> rfl
    simp only [State.fill, this, ih]

theorem setI_setI (s : State) (i j : Nat) : (s.setI i).setI j = s.setI j := rfl

/-- The loop when every frame is answered Ok (R85): `k` frames, the bytes in rising positions. -/
theorem readLoop_ok (r : Reg) (d : Dest) (k : Nat) (s : State) (bytes : List Byte)
    (h : s.replies (List.replicate k (readCall s.cfg r)) = bytes.map Reply.ok) :
    readLoop r d k s
      = .ok () (((s.afterCalls (List.replicate k (readCall s.cfg r))).fill d s.seq.i bytes).setI (s.seq.i + k)) := by
  induction k generalizing s bytes with
  | zero =>
    obtain rfl : bytes = [] := List.map_eq_nil_iff.mp h.symm
    rfl
  | succ k ih =>
    obtain ⟨b, bs, rfl⟩ : ∃ b bs, bytes = b :: bs := by
      cases bytes with
      | nil => simp [List.replicate_succ, State.replies] at h
      | cons b bs => exact ⟨b, bs, rfl⟩
    simp only [List.replicate_succ, State.replies, List.map_cons, List.cons.injEq] at h
    obtain ⟨h1, h2⟩ := h
    rw [readLoop, memRead1, transact_ok h1]
    simp only [afterCall_seq]
    set s1 := (((s.afterCall (readCall s.cfg r)).writeDest d s.seq.i b).setI (s.seq.i + 1)) with hs1
    have henv : EnvEq s1 (s.afterCall (readCall s.cfg r)) := by
      cases d <;> exact ⟨rfl, rfl, rfl, rfl, rfl⟩
    have hcfg : s1.cfg = s.cfg := by simp [hs1]
    have h3 : s1.replies (List.replicate k (readCall s1.cfg r)) = bs.map Reply.ok := by
      rw [hcfg, henv.replies, h2]
    rw [ih s1 bs h3]
    have hi : s1.seq.i = s.seq.i + 1 := rfl
    rw [hi, hcfg, List.replicate_succ, State.afterCalls, hs1, afterCalls_setI, afterCalls_writeDest, fill_setI, setI_setI,
      State.fill, Nat.add_assoc, Nat.add_comm 1 k]

/-- The loop when a frame fails (R85, R48): the frames before it are answered Ok; the byte at its position is the free
value. -/
theorem readLoop_err (r : Reg) (d : Dest) (k m : Nat) (s : State) (bytes : List Byte)
    (h : s.replies (List.replicate (m + 1) (readCall s.cfg r)) = bytes.map Reply.ok ++ [.err]) (hk : m < k) :
    readLoop r d k s
      = .fail (.busError (some (s.seq.i + m)))
          (((s.afterCalls (List.replicate (m + 1) (readCall s.cfg r))).fill d s.seq.i
              (bytes ++ [Config.freeByte (s.afterCalls (List.replicate (m + 1) (readCall s.cfg r))).tick])).setI
            (s.seq.i + m)).draw := by
  induction m generalizing s bytes k with
  | zero =>
    obtain ⟨k, rfl⟩ : ∃ k', k = k' + 1 := ⟨k - 1, by omega⟩
    obtain rfl : bytes = [] := by
      have := congrArg List.length h
      simpa using this
    simp only [Nat.zero_add, List.replicate_one, State.replies, List.map_nil, List.nil_append, List.cons.injEq,
      and_true] at h
    rw [readLoop, memRead1, transact_err h]
    cases d <;> rfl
  | succ m ih =>
    obtain ⟨k, rfl⟩ : ∃ k', k = k' + 1 := ⟨k - 1, by omega⟩
    obtain ⟨b, bs, rfl⟩ : ∃ b bs, bytes = b :: bs := by
      cases bytes with
      | nil =>
        have := congrArg List.length h
        simp at this
      | cons b bs => exact ⟨b, bs, rfl⟩
    rw [List.replicate_succ] at h
    simp only [State.replies, List.map_cons, List.cons_append, List.cons.injEq] at h
    obtain ⟨h1, h2⟩ := h
    rw [readLoop, memRead1, transact_ok h1]
    simp only [afterCall_seq]
    set s1 := (((s.afterCall (readCall s.cfg r)).writeDest d s.seq.i b).setI (s.seq.i + 1)) with hs1
    have henv : EnvEq s1 (s.afterCall (readCall s.cfg r)) := by
      cases d <;> exact ⟨rfl, rfl, rfl, rfl, rfl⟩
    have hcfg : s1.cfg = s.cfg := by simp [hs1]
    have h3 : s1.replies (List.replicate (m + 1) (readCall s1.cfg r)) = bs.map Reply.ok ++ [.err] := by
      rw [hcfg, henv.replies, h2]
    rw [ih k s1 bs h3 (by omega)]
    have hi : s1.seq.i = s.seq.i + 1 := rfl
    have ht : (s1.afterCalls (List.replicate (m + 1) (readCall s.cfg r))).tick
        = ((s.afterCall (readCall s.cfg r)).afterCalls (List.replicate (m + 1) (readCall s.cfg r))).tick :=
      (henv.afterCalls _).2.2.2.1
    have hr : s.afterCalls (List.replicate (m + 1 + 1) (readCall s.cfg r))
        = (s.afterCall (readCall s.cfg r)).afterCalls (List.replicate (m + 1) (readCall s.cfg r)) := rfl
    rw [hi, hcfg, ht, hr, hs1, afterCalls_setI, afterCalls_writeDest, fill_setI, setI_setI, List.cons_append, State.fill,
      Nat.add_assoc, Nat.add_comm 1 m]

/-! ### Where the bytes go -/

theorem fill_ans_toList (s : State) (i : Nat) (bs : List Byte) (h : i + bs.length ≤ 25) :
    (s.fill .ans i bs).ans.toList = s.ans.toList.take i ++ bs ++ s.ans.toList.drop (i + bs.length) := by
  induction bs generalizing s i with
  | nil => simp [State.fill]
  | cons b bs ih =>
    simp only [List.length_cons] at h
    rw [State.fill, ih _ _ (by omega)]
    have hlt : i < s.ans.toList.length := by simp; omega
    simp only [writeDest_ans_ans, Vector.toList_setIfInBounds, List.length_cons]
    apply List.ext_getElem?
    intro j
    grind

theorem fill_loc_toList (s : State) (i : Nat) (bs : List Byte) (h : i + bs.length ≤ 25) :
    (s.fill .loc i bs).seq.loc.toList = s.seq.loc.toList.take i ++ bs ++ s.seq.loc.toList.drop (i + bs.length) := by
  induction bs generalizing s i with
  | nil => simp [State.fill]
  | cons b bs ih =>
    simp only [List.length_cons] at h
    rw [State.fill, ih _ _ (by omega)]
    have hlt : i < s.seq.loc.toList.length := by simp; omega
    simp only [writeDest_loc_loc, Vector.toList_setIfInBounds, List.length_cons]
    apply List.ext_getElem?
    intro j
    grind

/-! ### Pieces of an operation

`Piece s s' calls`: a piece of an operation ran from `s` to `s'`, issued these calls, and left alone everything but the
index, count, level, scratch byte, local buffer, poll count and answer buffer. -/

structure Piece (s s' : State) (calls : List BusCall) : Prop where
  env : EnvEq s' (s.afterCalls calls)
  bound : s'.bound = s.bound
  lat : s'.lat = s.lat
  locked : s'.locked = s.locked
  sink : s'.sink = s.sink
  resp : s'.resp = s.resp
  owner : s'.owner = s.owner
  answers : s'.answers = s.answers
  held : s'.held = s.held
  busy : s'.seq.busy = s.seq.busy
  curOp : s'.seq.curOp = s.seq.curOp
  wait : s'.seq.wait = s.seq.wait

theorem EnvEq.refl (s : State) : EnvEq s s := ⟨rfl, rfl, rfl, rfl, rfl⟩
theorem EnvEq.symm {s t : State} (h : EnvEq s t) : EnvEq t s :=
  ⟨h.1.symm, h.2.1.symm, h.2.2.1.symm, h.2.2.2.1.symm, h.2.2.2.2.symm⟩
theorem EnvEq.trans {s t u : State} (h : EnvEq s t) (g : EnvEq t u) : EnvEq s u :=
  ⟨h.1.trans g.1, h.2.1.trans g.2.1, h.2.2.1.trans g.2.2.1, h.2.2.2.1.trans g.2.2.2.1, h.2.2.2.2.trans g.2.2.2.2⟩

theorem Piece.refl (s : State) : Piece s s [] := ⟨.refl s, rfl, rfl, rfl, rfl, rfl, rfl, rfl, rfl, rfl, rfl, rfl⟩

theorem Piece.trans {s s1 s2 : State} {cs ds : List BusCall} (h : Piece s s1 cs) (g : Piece s1 s2 ds) :
    Piece s s2 (cs ++ ds) where
  env := by
    rw [afterCalls_append]
    exact g.env.trans (h.env.afterCalls ds)
  bound := g.bound.trans h.bound
  lat := g.lat.trans h.lat
  locked := g.locked.trans h.locked
  sink := g.sink.trans h.sink
  resp := g.resp.trans h.resp
  owner := g.owner.trans h.owner
  answers := g.answers.trans h.answers
  held := g.held.trans h.held
  busy := g.busy.trans h.busy
  curOp := g.curOp.trans h.curOp
  wait := g.wait.trans h.wait

/-- What PARSE returned is no part of an operation. -/
theorem Piece.dropParsed {s s' : State} {cs : List BusCall} (h : Piece s s' cs) : Piece s s'.dropParsed cs :=
  ⟨h.env, h.bound, h.lat, h.locked, h.sink, h.resp, h.owner, h.answers, h.held, h.busy, h.curOp, h.wait⟩

theorem Piece.cfg {s s' : State} {cs : List BusCall} (h : Piece s s' cs) : s'.cfg = s.cfg := by
  simpa using h.env.1

theorem Piece.transport {s s' : State} {cs : List BusCall} (h : Piece s s' cs) : s'.transport = s.transport := by
  simpa using h.env.2.2.1

/-- What the outside answers after a piece is what it answers after the piece's calls. -/
theorem Piece.replies {s s' : State} {cs : List BusCall} (h : Piece s s' cs) (ds : List BusCall) :
    s'.replies ds = (s.afterCalls cs).replies ds := h.env.replies ds

theorem Piece.issued {s s' : State} {cs : List BusCall} {rs : List Reply} (h : Piece s s' cs) (hr : s.replies cs = rs) :
    Issued s s' cs rs :=
  ⟨hr, by rw [h.env.2.2.2.2, afterCalls_trace, hr], h.env.2.1⟩

/-- The replies to a sequence of calls, split. -/
theorem replies_split {s : State} {cs ds : List BusCall} {xs ys : List Reply}
    (h : s.replies (cs ++ ds) = xs ++ ys) (hl : cs.length = xs.length) :
    s.replies cs = xs ∧ (s.afterCalls cs).replies ds = ys := by
  rw [replies_append] at h
  exact List.append_inj h (by simp [hl])

/-! ### Specs of the pieces -/

theorem fill_piece (s : State) (d : Dest) (i : Nat) (bs : List Byte) : Piece s (s.fill d i bs) [] := by
  induction bs generalizing s i with
  | nil => exact .refl s
  | cons b bs ih =>
    have h : Piece s (s.writeDest d i b) [] := by
      cases d <;> exact ⟨⟨rfl, rfl, rfl, rfl, rfl⟩, rfl, rfl, rfl, rfl, rfl, rfl, rfl, rfl, rfl, rfl, rfl⟩
    exact h.trans (ih _ _)

theorem fill_ans_of_ne (s : State) (d : Dest) (i : Nat) (bs : List Byte) (hd : d ≠ .ans) : (s.fill d i bs).ans = s.ans := by
  induction bs generalizing s i with
  | nil => rfl
  | cons b bs ih =>
    rw [State.fill, ih]
    cases d <;> first | rfl | exact absurd rfl hd

theorem fill_loc_of_ne (s : State) (d : Dest) (i : Nat) (bs : List Byte) (hd : d ≠ .loc) :
    (s.fill d i bs).seq.loc = s.seq.loc := by
  induction bs generalizing s i with
  | nil => rfl
  | cons b bs ih =>
    rw [State.fill, ih]
    cases d <;> first | rfl | exact absurd rfl hd

theorem fill_polls (s : State) (d : Dest) (i : Nat) (bs : List Byte) : (s.fill d i bs).seq.polls = s.seq.polls := by
  induction bs generalizing s i with
  | nil => rfl
  | cons b bs ih =>
    rw [State.fill, ih]
    cases d <;> rfl

theorem afterCalls_piece (s : State) (cs : List BusCall) : Piece s (s.afterCalls cs) cs :=
  ⟨.refl _, by simp, by simp, by simp, by simp, by simp, by simp, by simp, by simp, by simp, by simp, by simp⟩

theorem setI_piece (s : State) (i : Nat) : Piece s (s.setI i) [] :=
  ⟨⟨rfl, rfl, rfl, rfl, rfl⟩, rfl, rfl, rfl, rfl, rfl, rfl, rfl, rfl, rfl, rfl, rfl⟩
theorem setN_piece (s : State) (n : Nat) : Piece s (s.setN n) [] :=
  ⟨⟨rfl, rfl, rfl, rfl, rfl⟩, rfl, rfl, rfl, rfl, rfl, rfl, rfl, rfl, rfl, rfl, rfl⟩
theorem setLvl_piece (s : State) (l : BitVec 7) : Piece s (s.setLvl l) [] :=
  ⟨⟨rfl, rfl, rfl, rfl, rfl⟩, rfl, rfl, rfl, rfl, rfl, rfl, rfl, rfl, rfl, rfl, rfl⟩
theorem setPolls_piece (s : State) (k : Nat) : Piece s (s.setPolls k) [] :=
  ⟨⟨rfl, rfl, rfl, rfl, rfl⟩, rfl, rfl, rfl, rfl, rfl, rfl, rfl, rfl, rfl, rfl, rfl⟩

/-- REG_RD answered Ok throughout (R85): the bytes in the first positions of the destination, the rest as it was. -/
theorem regRd_ok {r : Reg} {d : Dest} {s : State} {bytes : List Byte} (hb : s.bound = true)
    (h : s.replies (List.replicate bytes.length (readCall s.cfg r)) = bytes.map Reply.ok) (hn : bytes.length ≤ 25) :
    ∃ s', regRd r bytes.length d s = .ok () s'
      ∧ Piece s s' (List.replicate bytes.length (readCall s.cfg r))
      ∧ s'.seq.polls = s.seq.polls
      ∧ (d = .ans → s'.ans.toList = bytes ++ s.ans.toList.drop bytes.length)
      ∧ (d ≠ .ans → s'.ans = s.ans)
      ∧ (d = .loc → s'.seq.loc.toList = bytes ++ s.seq.loc.toList.drop bytes.length)
      ∧ (d ≠ .loc → s'.seq.loc = s.seq.loc)
      ∧ (d = .tmp → ∀ b, bytes.getLast? = some b → s'.seq.tmp = b) := by
  set s0 := (s.setN bytes.length).setI 0 with hs0
  have h0 : Piece s s0 [] := (setN_piece s _).trans (setI_piece _ 0)
  have hr : s0.replies (List.replicate bytes.length (readCall s0.cfg r)) = bytes.map Reply.ok := (h0.replies _).trans h
  refine ⟨_, (ifBound_bound _ hb).trans (readLoop_ok r d bytes.length s0 bytes hr), ?_, ?_, ?_, ?_, ?_, ?_, ?_⟩
  · have h1 := (afterCalls_piece s0 (List.replicate bytes.length (readCall s.cfg r))).trans
      ((fill_piece _ d s0.seq.i bytes).trans (setI_piece _ (s0.seq.i + bytes.length)))
    show Piece s (((s0.afterCalls (List.replicate bytes.length (readCall s.cfg r))).fill d s0.seq.i bytes).setI
      (s0.seq.i + bytes.length)) _
    simpa using h0.trans h1
  · simp only [setI_seq_polls, fill_polls, afterCalls_seq]
    rfl
  · rintro rfl
    rw [setI_ans, fill_ans_toList _ _ _ (by simpa [hs0] using hn)]
    simp [hs0]
  · intro hd
    rw [setI_ans, fill_ans_of_ne _ _ _ _ hd]
    simp [hs0]
  · rintro rfl
    rw [setI_seq_loc, fill_loc_toList _ _ _ (by simpa [hs0] using hn)]
    simp [hs0]
  · intro hd
    rw [setI_seq_loc, fill_loc_of_ne _ _ _ _ hd]
    simp [hs0]
  · rintro rfl b hlast
    have : ∀ (t : State) (i : Nat) (bs : List Byte), bs.getLast? = some b → (t.fill .tmp i bs).seq.tmp = b := by
      intro t i bs
      induction bs generalizing t i with
      | nil => simp
      | cons x xs ih =>
        intro hx
        cases xs with
        | nil =>
          simp at hx
          subst hx
          rfl
        | cons y ys =>
          rw [State.fill]
          exact ih _ _ (by simpa using hx)
    simpa using this _ _ _ hlast

/-- REG_RD with a failing frame (R85, R48): BusError at its index; the bytes before it are kept, the position of the failed
byte is unspecified, the positions after it are as they were. -/
theorem regRd_err {r : Reg} {d : Dest} {s : State} {n : Nat} {bytes : List Byte} (hb : s.bound = true)
    (h : s.replies (List.replicate (bytes.length + 1) (readCall s.cfg r)) = bytes.map Reply.ok ++ [.err])
    (hk : bytes.length < n) (hn : n ≤ 25) :
    ∃ s', regRd r n d s = .fail (.busError (some bytes.length)) s'.draw
      ∧ Piece s s' (List.replicate (bytes.length + 1) (readCall s.cfg r))
      ∧ s'.seq.polls = s.seq.polls
      ∧ (d = .ans → s'.ans.toList.take bytes.length = bytes
          ∧ s'.ans.toList.drop (bytes.length + 1) = s.ans.toList.drop (bytes.length + 1))
      ∧ (d ≠ .ans → s'.ans = s.ans) := by
  set s0 := (s.setN n).setI 0 with hs0
  have h0 : Piece s s0 [] := (setN_piece s _).trans (setI_piece _ 0)
  have hr : s0.replies (List.replicate (bytes.length + 1) (readCall s0.cfg r)) = bytes.map Reply.ok ++ [.err] :=
    (h0.replies _).trans h
  have hi : s0.seq.i = 0 := rfl
  have key := readLoop_err r d n bytes.length s0 bytes hr hk
  rw [show readCall s0.cfg r = readCall s.cfg r from rfl, hi, Nat.zero_add] at key
  refine ⟨_, (ifBound_bound _ hb).trans key, ?_, ?_, ?_, ?_⟩
  · have h1 := (afterCalls_piece s0 (List.replicate (bytes.length + 1) (readCall s.cfg r))).trans
      ((fill_piece _ d 0 (bytes ++ [Config.freeByte (s0.afterCalls (List.replicate (bytes.length + 1)
        (readCall s.cfg r))).tick])).trans (setI_piece _ bytes.length))
    simpa using h0.trans h1
  · simp only [setI_seq_polls, fill_polls, afterCalls_seq]
    rfl
  · rintro rfl
    rw [setI_ans, fill_ans_toList _ _ _ (by simp; omega)]
    simp [hs0]
  · intro hd
    rw [setI_ans, fill_ans_of_ne _ _ _ _ hd]
    simp [hs0]

/-- REG_WR answered Ok (R87). -/
theorem regWr_ok {r : Reg} {v : Byte} {s : State} {b : Byte} (hb : s.bound = true)
    (h : s.replies [writeCall s.cfg r v] = [.ok b]) :
    regWr r v s = .ok () (s.afterCall (writeCall s.cfg r v)) := by
  have h1 : (s.answerOf (writeCall s.cfg r v)).1 = .ok b := by simpa [State.replies] using h
  rw [regWr, ifBound_bound _ hb, memWrite1, transact_ok h1, andThen_ok]

/-- REG_WR answered Err (R87, R48). -/
theorem regWr_err {r : Reg} {v : Byte} {s : State} (hb : s.bound = true)
    (h : s.replies [writeCall s.cfg r v] = [.err]) :
    regWr r v s = .fail (.busError none) (s.afterCall (writeCall s.cfg r v)) := by
  have h1 : (s.answerOf (writeCall s.cfg r v)).1 = .err := by simpa [State.replies] using h
  rw [regWr, ifBound_bound _ hb, memWrite1, transact_err h1, andThen_fail]

theorem afterCall_piece (s : State) (c : BusCall) : Piece s (s.afterCall c) [c] := afterCalls_piece s [c]

/-- FIFO_WR's loop answered Ok throughout (R103). -/
theorem writeLoop_ok {data rs : List Byte} {s : State} (hb : s.bound = true)
    (h : s.replies (data.map (writeCall s.cfg .fifoData)) = rs.map Reply.ok) :
    writeLoop data s
      = .ok () ((s.afterCalls (data.map (writeCall s.cfg .fifoData))).setI (s.seq.i + data.length)) := by
  induction data generalizing s rs with
  | nil => rfl
  | cons b bs ih =>
    obtain ⟨x, xs, rfl⟩ : ∃ x xs, rs = x :: xs := by
      cases rs with
      | nil => simp [State.replies] at h
      | cons x xs => exact ⟨x, xs, rfl⟩
    simp only [List.map_cons, State.replies, List.cons.injEq] at h
    obtain ⟨h1, h2⟩ := h
    rw [writeLoop, regWr_ok (b := x) hb (by simp [State.replies, h1])]
    simp only [afterCall_seq]
    have henv := envEq_setI (s.afterCall (writeCall s.cfg .fifoData b)) (s.seq.i + 1)
    rw [ih (by simpa using hb) (by rw [← h2]; exact henv.replies _)]
    simp only [List.map_cons, State.afterCalls, afterCalls_setI, setI_cfg, afterCall_cfg, setI_setI, setI_seq_i,
      List.length_cons, Nat.add_assoc, Nat.add_comm 1 bs.length]

/-- FIFO_WR answered Ok throughout (R103). -/
theorem fifoWr_ok {data rs : List Byte} {s : State} (hb : s.bound = true)
    (h : s.replies (data.map (writeCall s.cfg .fifoData)) = rs.map Reply.ok) :
    ∃ s', fifoWr data s = .ok () s' ∧ Piece s s' (data.map (writeCall s.cfg .fifoData))
      ∧ s'.ans = s.ans ∧ s'.seq.loc = s.seq.loc ∧ s'.seq.polls = s.seq.polls := by
  set s0 := (s.setN data.length).setI 0 with hs0
  have h0 : Piece s s0 [] := (setN_piece s _).trans (setI_piece _ 0)
  have key := writeLoop_ok (data := data) (rs := rs) (s := s0) hb ((h0.replies _).trans h)
  rw [show s0.cfg = s.cfg from rfl] at key
  refine ⟨_, (ifBound_bound _ hb).trans key, ?_, ?_, ?_, ?_⟩
  · have h1 := (afterCalls_piece s0 (data.map (writeCall s.cfg .fifoData))).trans
      (setI_piece _ (s0.seq.i + data.length))
    simpa using h0.trans h1
  all_goals simp [hs0]

/-- FIFO_WR with a failing frame (R103): BusError at its index, nothing sent after it. -/
theorem writeLoop_err {data rs : List Byte} {b : Byte} {rest : List Byte} {s : State} (hb : s.bound = true)
    (hd : data.length = rs.length)
    (h : s.replies ((data ++ [b]).map (writeCall s.cfg .fifoData)) = rs.map Reply.ok ++ [.err]) :
    writeLoop (data ++ b :: rest) s
      = .fail (.busError (some (s.seq.i + data.length)))
          ((s.afterCalls ((data ++ [b]).map (writeCall s.cfg .fifoData))).setI (s.seq.i + data.length)) := by
  induction data generalizing s rs with
  | nil =>
    obtain rfl : rs = [] := List.length_eq_zero_iff.mp hd.symm
    simp only [List.nil_append, List.map_cons, List.map_nil] at h
    rw [List.nil_append, writeLoop, regWr_err hb h]
    rfl
  | cons x xs ih =>
    obtain ⟨y, ys, rfl⟩ : ∃ y ys, rs = y :: ys := by
      cases rs with
      | nil => simp at hd
      | cons y ys => exact ⟨y, ys, rfl⟩
    simp only [List.cons_append, List.map_cons, State.replies, List.cons.injEq] at h
    obtain ⟨h1, h2⟩ := h
    rw [List.cons_append, writeLoop, regWr_ok (b := y) hb (by simp [State.replies, h1])]
    simp only [afterCall_seq]
    have henv := envEq_setI (s.afterCall (writeCall s.cfg .fifoData x)) (s.seq.i + 1)
    rw [ih (rs := ys) (by simpa using hb) (by simpa using hd) (by rw [← h2]; exact henv.replies _)]
    simp only [List.cons_append, List.map_cons, State.afterCalls, afterCalls_setI, setI_cfg, afterCall_cfg, setI_setI,
      setI_seq_i, List.length_cons, Nat.add_assoc, Nat.add_comm 1 xs.length]

/-- FIFO_WR with a failing frame (R103). -/
theorem fifoWr_err {data rs : List Byte} {b : Byte} {rest : List Byte} {s : State} (hb : s.bound = true)
    (hd : data.length = rs.length)
    (h : s.replies ((data ++ [b]).map (writeCall s.cfg .fifoData)) = rs.map Reply.ok ++ [.err]) :
    ∃ s', fifoWr (data ++ b :: rest) s = .fail (.busError (some data.length)) s'
      ∧ Piece s s' ((data ++ [b]).map (writeCall s.cfg .fifoData)) ∧ s'.ans = s.ans := by
  set s0 := (s.setN (data ++ b :: rest).length).setI 0 with hs0
  have h0 : Piece s s0 [] := (setN_piece s _).trans (setI_piece _ 0)
  have key := writeLoop_err (data := data) (rs := rs) (b := b) (rest := rest) (s := s0) hb hd ((h0.replies _).trans h)
  rw [show s0.seq.i = 0 from rfl, Nat.zero_add, show s0.cfg = s.cfg from rfl] at key
  refine ⟨_, (ifBound_bound _ hb).trans key, ?_, ?_⟩
  · have h1 := (afterCalls_piece s0 ((data ++ [b]).map (writeCall s.cfg .fifoData))).trans (setI_piece _ data.length)
    exact h0.trans (h1.trans (ds := []) (.refl _)) |> fun p => by simpa using p
  · simp [hs0]

/-- One read of a register into the scratch byte (R85, R86). -/
theorem regRd_tmp_ok {r : Reg} {s : State} {b : Byte} (hb : s.bound = true)
    (h : s.replies [readCall s.cfg r] = [.ok b]) :
    ∃ s', regRd r 1 .tmp s = .ok () s' ∧ Piece s s' [readCall s.cfg r] ∧ s'.seq.tmp = b ∧ s'.ans = s.ans
      ∧ s'.seq.loc = s.seq.loc ∧ s'.seq.polls = s.seq.polls := by
  obtain ⟨s', h1, h2, h3, -, h5, -, h7, h8⟩ := regRd_ok (r := r) (d := .tmp) (bytes := [b]) hb h (by simp)
  exact ⟨s', h1, h2, h8 rfl b rfl, h5 (by simp), h7 (by simp), h3⟩

/-- One read of a register that fails. -/
theorem regRd_tmp_err {r : Reg} {s : State} (hb : s.bound = true) (h : s.replies [readCall s.cfg r] = [.err]) :
    ∃ s', regRd r 1 .tmp s = .fail (.busError (some 0)) s'.draw ∧ Piece s s' [readCall s.cfg r] ∧ s'.ans = s.ans := by
  obtain ⟨s', h1, h2, -, -, h5⟩ :=
    regRd_err (r := r) (d := .tmp) (n := 1) (bytes := []) hb (by simpa using h) (by simp) (by simp)
  exact ⟨s', h1, h2, h5 (by simp)⟩

/-- FIFO_LVL answered Ok (R95, R96). -/
theorem fifoLvl_ok {s : State} {b : Byte} (hb : s.bound = true) (h : s.replies [readCall s.cfg .fifoLevel] = [.ok b]) :
    ∃ s', fifoLvl s = .ok (levelOf b) s' ∧ Piece s s' [readCall s.cfg .fifoLevel] ∧ s'.ans = s.ans
      ∧ s'.seq.loc = s.seq.loc ∧ s'.seq.polls = s.seq.polls ∧ s'.seq.lvl = levelOf b := by
  obtain ⟨s', h1, h2, h3, h4, h5, h6⟩ := regRd_tmp_ok hb h
  refine ⟨s'.setLvl (levelOf b), ?_, ?_, h4, h5, h6, rfl⟩
  · rw [fifoLvl, h1, andThen_ok, h3]
  · simpa using h2.trans (setLvl_piece s' (levelOf b))

/-- FIFO_RD answered Ok throughout with a level of at most 25 (R100). -/
theorem fifoRd_ok {d : Dest} {s : State} {lb : Byte} {bytes : List Byte} (hb : s.bound = true)
    (hl : (levelOf lb).toNat = bytes.length) (hn : bytes.length ≤ 25)
    (h : s.replies (readCall s.cfg .fifoLevel :: List.replicate bytes.length (readCall s.cfg .fifoData))
      = Reply.ok lb :: bytes.map Reply.ok) :
    ∃ s', fifoRd d s = .ok (levelOf lb) s'
      ∧ Piece s s' (readCall s.cfg .fifoLevel :: List.replicate bytes.length (readCall s.cfg .fifoData))
      ∧ (d = .ans → s'.ans.toList = bytes ++ s.ans.toList.drop bytes.length)
      ∧ (d ≠ .ans → s'.ans = s.ans)
      ∧ (d = .loc → s'.seq.loc.toList = bytes ++ s.seq.loc.toList.drop bytes.length) := by
  obtain ⟨ha, hd⟩ := replies_split (cs := [readCall s.cfg .fifoLevel]) (xs := [Reply.ok lb]) h rfl
  obtain ⟨s1, h1, p1, a1, l1, -, -⟩ := fifoLvl_ok hb ha
  have hb1 : s1.bound = true := p1.bound.trans hb
  have hr : s1.replies (List.replicate bytes.length (readCall s1.cfg .fifoData)) = bytes.map Reply.ok := by
    rw [p1.cfg, p1.replies, hd]
  obtain ⟨s2, h2, p2, -, a2, a3, l2, -, -⟩ := regRd_ok (d := d) hb1 hr hn
  refine ⟨s2, ?_, ?_, ?_, ?_, ?_⟩
  · rw [fifoRd, h1, andThen_ok, if_pos (by rw [hl]; exact hn), hl, h2, andThen_ok]
  · rw [p1.cfg] at p2
    exact p1.trans p2
  · intro h
    rw [a2 h, a1]
  · intro h
    rw [a3 h, a1]
  · intro h
    rw [l2 h, l1]

/-- FIFO_RD with a failing data byte (R100). -/
theorem fifoRd_err {s : State} {lb : Byte} {bytes : List Byte} {d : Dest} (hb : s.bound = true)
    (hl : bytes.length < (levelOf lb).toNat) (hn : (levelOf lb).toNat ≤ 25)
    (h : s.replies (readCall s.cfg .fifoLevel :: List.replicate (bytes.length + 1) (readCall s.cfg .fifoData))
      = Reply.ok lb :: (bytes.map Reply.ok ++ [.err])) :
    ∃ s', fifoRd d s = .fail (.busError (some bytes.length)) s'.draw
      ∧ Piece s s' (readCall s.cfg .fifoLevel :: List.replicate (bytes.length + 1) (readCall s.cfg .fifoData))
      ∧ (d = .ans → s'.ans.toList.take bytes.length = bytes
          ∧ s'.ans.toList.drop (bytes.length + 1) = s.ans.toList.drop (bytes.length + 1)) := by
  obtain ⟨ha, hd⟩ := replies_split (cs := [readCall s.cfg .fifoLevel]) (xs := [Reply.ok lb]) h rfl
  obtain ⟨s1, h1, p1, a1, l1, -, -⟩ := fifoLvl_ok hb ha
  obtain ⟨s2, h2, p2, -, a2, -⟩ := regRd_err (d := d) (n := (levelOf lb).toNat) (p1.bound.trans hb)
    (by rw [p1.cfg, p1.replies]; exact hd) hl hn
  refine ⟨s2, ?_, ?_, ?_⟩
  · rw [fifoRd, h1, andThen_ok, if_pos (show (levelOf lb).toNat ≤ bufLen from hn), h2, andThen_fail]
  · rw [p1.cfg] at p2
    exact p1.trans p2
  · intro h
    rw [← a1]
    exact a2 h

/-- FIFO_RD with a level above 25 under the policy `fault` (R101). -/
theorem fifoRd_over {d : Dest} {s : State} {lb : Byte} (hb : s.bound = true) (hp : s.cfg.levelOver = .fault)
    (hl : 25 < (levelOf lb).toNat) (h : s.replies [readCall s.cfg .fifoLevel] = [.ok lb]) :
    ∃ s', fifoRd d s = .fail (.fifoLevelExceedsBuffer (levelOf lb)) s' ∧ Piece s s' [readCall s.cfg .fifoLevel]
      ∧ s'.ans = s.ans := by
  obtain ⟨s1, h1, p1, a1, -, -, -⟩ := fifoLvl_ok hb h
  refine ⟨s1, ?_, p1, a1⟩
  rw [fifoRd, h1, andThen_ok, if_neg (by simp [bufLen]; omega), p1.cfg, hp]

/-! ### SEND_CMD -/

/-- The write of SEND_CMD answered Ok (R110). -/
theorem sendStart_ok {c : CommandCode} {s : State} {x : Byte} (hb : s.bound = true)
    (h : s.replies [writeCall s.cfg .command (commandByte s.cfg c)] = [.ok x]) :
    ∃ s', sendStart c s = .ok () s' ∧ Piece s s' [writeCall s.cfg .command (commandByte s.cfg c)] ∧ s'.ans = s.ans
      ∧ s'.seq.loc = s.seq.loc ∧ s'.seq.polls = 0 := by
  refine ⟨_, by rw [sendStart, ifBound_bound _ hb, regWr_ok hb h, andThen_ok], ?_, ?_, ?_, rfl⟩
  · exact (afterCall_piece s _).trans (setPolls_piece _ 0)
  · simp
  · simp

/-- One poll answered Ok within the budget (R110). -/
theorem pollOnce_ok {s : State} {b : Byte} (hb : s.bound = true) (hbud : budgetSpent s.cfg.pollBudget s.seq.polls = false)
    (h : s.replies [readCall s.cfg .command] = [.ok b]) :
    ∃ s', pollOnce s = .ok (isIdle b) s' ∧ Piece s s' [readCall s.cfg .command] ∧ s'.ans = s.ans
      ∧ s'.seq.loc = s.seq.loc ∧ s'.seq.polls = s.seq.polls + 1 ∧ s'.seq.tmp = b := by
  obtain ⟨s', h1, h2, h3, h4, h5, h6⟩ := regRd_tmp_ok hb h
  refine ⟨s'.setPolls (s'.seq.polls + 1), ?_, ?_, h4, h5, by simp [h6], h3⟩
  · rw [pollOnce, hbud]
    simp [h1, h3]
  · simpa using h2.trans (setPolls_piece s' _)

/-- The budget is spent (R110, R153). -/
theorem pollOnce_timeout {s : State} (hbud : budgetSpent s.cfg.pollBudget s.seq.polls = true) :
    pollOnce s = .fail .chipTimeout s := by
  rw [pollOnce, hbud, if_pos rfl]

/-- A budget that R6 allows is not spent before the first poll. -/
theorem budgetSpent_zero {p : Params} (h : p.wf) : budgetSpent p.pollBudget 0 = false := by
  cases hp : p.pollBudget with
  | none => rfl
  | some k =>
    have := h.2
    rw [hp] at this
    simp only [budgetSpent, decide_eq_false_iff_not]
    rintro rfl
    exact this rfl

/-! ### What every piece does, whatever the outside answers

`Run.All P r`: the state a run ends in meets `P`, whichever way it ends. `Grows s r`: it went on from `s` by frames of the
two shapes only, stopped at the first Err, kept the index within the count, and left alone what no piece writes. -/

/-- The state a run ends in meets a property. -/
def Run.All {α : Type} (P : State → Prop) : Run α → Prop
  | .ok _ s => P s
  | .fail _ s => P s
  | .wait s => P s

theorem All_andThen {α β : Type} {P : State → Prop} {r : Run α} {k : α → State → Run β} (h : r.All P)
    (hk : ∀ a s, P s → (k a s).All P) : (r.andThen k).All P := by
  cases r with
  | ok a s => exact hk a s h
  | fail f s => exact h
  | wait s => exact h

/-- What no piece of an operation writes. -/
structure Kept (s s' : State) : Prop where
  cfg : s'.cfg = s.cfg
  bound : s'.bound = s.bound
  transport : s'.transport = s.transport
  owner : s'.owner = s.owner
  answers : s'.answers = s.answers
  held : s'.held = s.held
  lat : s'.lat = s.lat
  locked : s'.locked = s.locked
  resp : s'.resp = s.resp
  busy : s'.seq.busy = s.seq.busy
  curOp : s'.seq.curOp = s.seq.curOp

theorem Kept.refl (s : State) : Kept s s := ⟨rfl, rfl, rfl, rfl, rfl, rfl, rfl, rfl, rfl, rfl, rfl⟩
theorem Kept.trans {s t u : State} (h : Kept s t) (g : Kept t u) : Kept s u :=
  ⟨g.cfg.trans h.cfg, g.bound.trans h.bound, g.transport.trans h.transport, g.owner.trans h.owner, g.answers.trans h.answers,
    g.held.trans h.held, g.lat.trans h.lat, g.locked.trans h.locked, g.resp.trans h.resp, g.busy.trans h.busy, g.curOp.trans h.curOp⟩

/-- The index stays within the count and the count within 25 (R13). -/
def IndexOk (s : State) : Prop := s.seq.i ≤ s.seq.n ∧ s.seq.n ≤ 25

/-- From `s` to `s'` with these new entries of the trace. -/
structure Grew (s s' : State) (new : List Transaction) : Prop where
  kept : Kept s s'
  trace : s'.trace = s.trace ++ new
  legal : ∀ x ∈ new, Transaction.legal s.cfg x
  index : IndexOk s → IndexOk s'

theorem Grew.refl (s : State) : Grew s s [] := ⟨.refl s, by simp, by simp, id⟩
theorem Grew.trans {s t u : State} {a b : List Transaction} (h : Grew s t a) (g : Grew t u b) : Grew s u (a ++ b) where
  kept := h.kept.trans g.kept
  trace := by rw [g.trace, h.trace, List.append_assoc]
  legal := by
    intro x hx
    rcases List.mem_append.mp hx with hx | hx
    · exact h.legal x hx
    · rw [← h.kept.cfg]
      exact g.legal x hx
  index := fun hi => g.index (h.index hi)

/-- A failure is BusError. -/
def isBus (f : Failure) : Prop := ∃ i, f = .busError i

@[simp] theorem isBus_atIndex (i : Nat) (f : Failure) : isBus (atIndex i f) ↔ isBus f := by
  cases f <;> simp [isBus, atIndex]

/-- How a run went on from a state, whatever the outside answered. -/
def Grows {α : Type} (s : State) : Run α → Prop
  | .ok _ s' => ∃ new, Grew s s' new ∧ noErr new
  | .fail f s' => ∃ new, Grew s s' new ∧ stopsAtErr (isBus f) new
  | .wait s' => ∃ new, Grew s s' new ∧ noErr new

theorem noErr_append {a b : List Transaction} (ha : noErr a) (hb : noErr b) : noErr (a ++ b) := by
  intro x hx
  rcases List.mem_append.mp hx with h | h
  · exact ha x h
  · exact hb x h

theorem stopsAtErr_append {P : Prop} {a b : List Transaction} (ha : noErr a) (hb : stopsAtErr P b) :
    stopsAtErr P (a ++ b) := by
  obtain ⟨h1, h2⟩ := hb
  rcases List.eq_nil_or_concat b with rfl | ⟨l, x, rfl⟩
  · refine ⟨fun y hy => ha y (List.mem_of_mem_dropLast (by simpa using hy)), ?_⟩
    rw [h2]
    simp only [List.getLast?_nil, List.append_nil]
    constructor
    · rintro ⟨x, hx, -⟩
      cases hx
    · rintro ⟨x, hx, he⟩
      exact absurd he (ha x (List.mem_of_getLast? hx))
  · rw [List.concat_eq_append] at *
    refine ⟨?_, ?_⟩
    · rw [← List.append_assoc, List.dropLast_concat]
      rw [List.dropLast_concat] at h1
      exact noErr_append ha h1
    · rw [h2, ← List.append_assoc]
      simp

theorem stopsAtErr_nil {P : Prop} (h : ¬P) : stopsAtErr P [] := by
  refine ⟨by simp [noErr], ?_⟩
  simp [h]

theorem Grows_andThen {α β : Type} {s : State} {r : Run α} {k : α → State → Run β} (h : Grows s r)
    (hk : ∀ a s', Grows s' (k a s')) : Grows s (r.andThen k) := by
  cases r with
  | ok a s1 =>
    obtain ⟨n1, g1, e1⟩ := h
    have h2 := hk a s1
    rw [andThen_ok]
    revert h2
    cases k a s1 with
    | ok b s2 =>
      rintro ⟨n2, g2, e2⟩
      exact ⟨n1 ++ n2, g1.trans g2, noErr_append e1 e2⟩
    | fail f s2 =>
      rintro ⟨n2, g2, e2⟩
      exact ⟨n1 ++ n2, g1.trans g2, stopsAtErr_append e1 e2⟩
    | wait s2 =>
      rintro ⟨n2, g2, e2⟩
      exact ⟨n1 ++ n2, g1.trans g2, noErr_append e1 e2⟩
  | fail f s1 => exact h
  | wait s1 => exact h

/-- Going on from a state reached without a frame. -/
theorem Grows_from {α : Type} {s s1 : State} {new : List Transaction} (g : Grew s s1 new) (e : noErr new) {r : Run α}
    (h : Grows s1 r) : Grows s r := by
  have := Grows_andThen (r := (Run.ok () s1)) (k := fun _ _ => r) (s := s) ⟨new, g, e⟩
  revert h
  cases r with
  | ok b s2 =>
    rintro ⟨n2, g2, e2⟩
    exact ⟨_, g.trans g2, noErr_append e e2⟩
  | fail f s2 =>
    rintro ⟨n2, g2, e2⟩
    exact ⟨_, g.trans g2, stopsAtErr_append e e2⟩
  | wait s2 =>
    rintro ⟨n2, g2, e2⟩
    exact ⟨_, g.trans g2, noErr_append e e2⟩

theorem noErr_nil : noErr [] := by simp [noErr]

theorem Grows_ok {α : Type} (a : α) (s : State) : Grows s (.ok a s) := ⟨[], .refl s, noErr_nil⟩

theorem Grows_fail {α : Type} {f : Failure} (h : ¬isBus f) (s : State) : Grows s (.fail f s : Run α) :=
  ⟨[], .refl s, stopsAtErr_nil h⟩

theorem Grows_ifBound {α : Type} {k : State → Run α} {s : State} (h : Grows s (k s)) : Grows s (ifBound k s) := by
  unfold ifBound
  split
  · exact h
  · exact Grows_fail (by simp [isBus]) s

/-- One transaction of a legal call. -/
theorem Grows_transact {c : BusCall} {s : State} (h : ∀ r, Transaction.legal s.cfg (entry c r)) : Grows s (transact c s) := by
  have g : Grew s (s.afterCall c) [entry c (s.answerOf c).1] :=
    ⟨⟨rfl, rfl, rfl, rfl, rfl, rfl, rfl, rfl, rfl, rfl, rfl⟩, rfl, by simpa using h _, id⟩
  rcases transact_cases c s with ⟨b, hb, ht⟩ | ⟨hb, ht⟩
  · rw [ht]
    refine ⟨_, g, ?_⟩
    rw [hb]
    intro x hx
    simp only [List.mem_singleton] at hx
    subst hx
    cases c <;> simp [entry, recorded]
  · rw [ht]
    refine ⟨_, g, ?_⟩
    rw [hb]
    refine ⟨by simp [noErr], ?_⟩
    simp [isBus, entry, recorded]

theorem legal_read (p : Params) (r : Reg) (x : Reply) : Transaction.legal p (entry (readCall p r) x) := .inl ⟨r, x, rfl⟩
theorem legal_write (p : Params) (r : Reg) (v : Byte) (x : Reply) : Transaction.legal p (entry (writeCall p r v) x) :=
  .inr ⟨r, v, x, rfl⟩

theorem Grows_memRead1 (r : Reg) (s : State) : Grows s (memRead1 r s) := Grows_transact fun x => legal_read _ r x

theorem Grows_memWrite1 (r : Reg) (v : Byte) (s : State) : Grows s (memWrite1 r v s) :=
  Grows_andThen (Grows_transact fun x => legal_write _ r v x) fun _ s' => Grows_ok _ s'

theorem Grows_regWr (r : Reg) (v : Byte) (s : State) : Grows s (regWr r v s) := Grows_ifBound (Grows_memWrite1 r v s)

theorem transact_seq (c : BusCall) (s : State) : (transact c s).All fun s' => s'.seq = s.seq := by
  unfold transact
  split <;> rfl

theorem regWr_seq (r : Reg) (v : Byte) (s : State) : (regWr r v s).All fun s' => s'.seq = s.seq := by
  unfold regWr ifBound
  split
  · exact All_andThen (transact_seq _ s) fun _ s' h => h
  · rfl

/-- The loop of REG_RD, whatever the answers, with room for the bytes that are left. -/
theorem Grows_readLoop (r : Reg) (d : Dest) (k : Nat) (s : State) (h : s.seq.i + k ≤ s.seq.n) :
    Grows s (readLoop r d k s) := by
  induction k generalizing s with
  | zero => exact Grows_ok () s
  | succ k ih =>
    have hg := Grows_memRead1 r s
    have hs : (memRead1 r s).All fun s' => s'.seq = s.seq := transact_seq _ s
    unfold readLoop
    revert hg hs
    cases memRead1 r s with
    | ok b s1 =>
      rintro ⟨n1, g1, e1⟩ hs
      have hs1 : s1.seq = s.seq := hs
      have g2 : Grew s1 ((s1.writeDest d s1.seq.i b).setI (s1.seq.i + 1)) [] := by
        refine ⟨?_, ?_, by simp, ?_⟩
        · cases d <;> exact ⟨rfl, rfl, rfl, rfl, rfl, rfl, rfl, rfl, rfl, rfl, rfl⟩
        · cases d <;> simp
        · rintro ⟨-, h2⟩
          have hi : s1.seq.i + 1 ≤ s1.seq.n := by rw [hs1]; omega
          cases d <;> exact ⟨hi, h2⟩
      have hroom : ((s1.writeDest d s1.seq.i b).setI (s1.seq.i + 1)).seq.i + k
          ≤ ((s1.writeDest d s1.seq.i b).setI (s1.seq.i + 1)).seq.n := by
        have : (s1.writeDest d s1.seq.i b).seq.n = s1.seq.n := by cases d <;> rfl
        rw [setI_seq_i, setI_seq_n, this, hs1]
        omega
      exact Grows_from (g1.trans g2) (by simpa using e1) (ih _ hroom)
    | fail f s1 =>
      rintro ⟨n1, g1, e1⟩ hs
      have g2 : Grew s1 ((s1.writeDest d s1.seq.i (Config.freeByte s1.tick)).draw) [] := by
        refine ⟨?_, ?_, by simp, ?_⟩
        · cases d <;> exact ⟨rfl, rfl, rfl, rfl, rfl, rfl, rfl, rfl, rfl, rfl, rfl⟩
        · cases d <;> simp
        · intro h2
          cases d <;> exact h2
      refine ⟨n1 ++ [], g1.trans g2, ?_⟩
      obtain ⟨h1, h2⟩ := e1
      exact ⟨by simpa using h1, by simpa using h2⟩
    | wait s1 =>
      intro hg _
      exact hg

theorem Grows_regRd (r : Reg) (n : Nat) (d : Dest) (s : State) (hn : n ≤ 25) : Grows s (regRd r n d s) := by
  refine Grows_ifBound (Grows_from (s1 := (s.setN n).setI 0) (new := []) ⟨?_, ?_, by simp, ?_⟩ noErr_nil ?_)
  · exact ⟨rfl, rfl, rfl, rfl, rfl, rfl, rfl, rfl, rfl, rfl, rfl⟩
  · simp
  · exact fun _ => ⟨Nat.zero_le _, hn⟩
  · exact Grows_readLoop _ _ _ _ (by simp)

theorem Grows_setLvl (s : State) (l : BitVec 7) : Grew s (s.setLvl l) [] :=
  ⟨⟨rfl, rfl, rfl, rfl, rfl, rfl, rfl, rfl, rfl, rfl, rfl⟩, by simp, by simp, id⟩
theorem Grows_setPolls (s : State) (k : Nat) : Grew s (s.setPolls k) [] :=
  ⟨⟨rfl, rfl, rfl, rfl, rfl, rfl, rfl, rfl, rfl, rfl, rfl⟩, by simp, by simp, id⟩
theorem Grows_setWait (s : State) (w : Wait) : Grew s (s.setWait w) [] :=
  ⟨⟨rfl, rfl, rfl, rfl, rfl, rfl, rfl, rfl, rfl, rfl, rfl⟩, by simp, by simp, id⟩
theorem Grows_emit (s : State) (l : List Byte) : Grew s (s.emit l) [] :=
  ⟨⟨rfl, rfl, rfl, rfl, rfl, rfl, rfl, rfl, rfl, rfl, rfl⟩, by simp [State.emit], by simp, id⟩

theorem Grows_fifoLvl (s : State) : Grows s (fifoLvl s) :=
  Grows_andThen (Grows_regRd _ _ _ _ (by decide)) fun _ s' => ⟨[], Grows_setLvl s' _, noErr_nil⟩

theorem Grows_fifoFlush (s : State) : Grows s (fifoFlush s) := Grows_regWr _ _ s

theorem Grows_fifoRd (d : Dest) (s : State) : Grows s (fifoRd d s) := by
  refine Grows_andThen (Grows_fifoLvl s) fun l s1 => ?_
  split
  · next h => exact Grows_andThen (Grows_regRd _ _ _ _ h) fun _ s2 => Grows_ok _ s2
  · split
    · exact Grows_fail (by simp [isBus]) s1
    · exact Grows_andThen (Grows_regRd _ _ _ _ (by decide)) fun _ s2 => Grows_ok _ s2

theorem Grows_writeLoop (data : List Byte) (s : State) (h : s.seq.i + data.length ≤ s.seq.n) :
    Grows s (writeLoop data s) := by
  induction data generalizing s with
  | nil => exact Grows_ok () s
  | cons b rest ih =>
    simp only [List.length_cons] at h
    have hg := Grows_regWr .fifoData b s
    have hs := regWr_seq .fifoData b s
    unfold writeLoop
    revert hg hs
    cases regWr .fifoData b s with
    | ok u s1 =>
      rintro ⟨n1, g1, e1⟩ hs
      have hs1 : s1.seq = s.seq := hs
      have g2 : Grew s1 (s1.setI (s1.seq.i + 1)) [] := by
        refine ⟨⟨rfl, rfl, rfl, rfl, rfl, rfl, rfl, rfl, rfl, rfl, rfl⟩, by simp, by simp, ?_⟩
        rintro ⟨-, h2⟩
        refine ⟨?_, h2⟩
        simp only [setI_seq_i, setI_seq_n, hs1]
        omega
      exact Grows_from (g1.trans g2) (by simpa using e1) (ih _ (by simp only [setI_seq_i, setI_seq_n, hs1]; omega))
    | fail f s1 =>
      rintro ⟨n1, g1, e1⟩ -
      exact ⟨n1, g1, by simpa using e1⟩
    | wait s1 =>
      intro hg _
      exact hg

theorem Grows_fifoWr (data : List Byte) (s : State) (hn : data.length ≤ 25) : Grows s (fifoWr data s) := by
  refine Grows_ifBound (Grows_from (s1 := (s.setN data.length).setI 0) (new := []) ⟨?_, ?_, by simp, ?_⟩ noErr_nil ?_)
  · exact ⟨rfl, rfl, rfl, rfl, rfl, rfl, rfl, rfl, rfl, rfl, rfl⟩
  · simp
  · exact fun _ => ⟨Nat.zero_le _, hn⟩
  · exact Grows_writeLoop _ _ (by simp)

theorem Grows_sendStart (c : CommandCode) (s : State) : Grows s (sendStart c s) :=
  Grows_ifBound (Grows_andThen (Grows_regWr _ _ _) fun _ s' => ⟨[], Grows_setPolls s' 0, noErr_nil⟩)

theorem Grows_pollOnce (s : State) : Grows s (pollOnce s) := by
  unfold pollOnce
  split
  · exact Grows_fail (by simp [isBus]) s
  · exact Grows_andThen (Grows_regRd _ _ _ _ (by decide)) fun _ s' => ⟨[], Grows_setPolls s' _, noErr_nil⟩

theorem Grows_pollThen {k : State → Run Result} (hk : ∀ s, Grows s (k s)) (s : State) : Grows s (pollThen k s) := by
  refine Grows_andThen (Grows_pollOnce s) fun idle s' => ?_
  split
  · exact hk s'
  · exact ⟨[], .refl s', noErr_nil⟩

theorem Grows_sendCmdThen {k : State → Run Result} (c : CommandCode) (w : Wait) (hk : ∀ s, Grows s (k s)) (s : State) :
    Grows s (sendCmdThen c w k s) :=
  Grows_andThen (Grows_sendStart c s) fun _ s' => Grows_from (Grows_setWait s' w) noErr_nil (Grows_pollThen hk _)

theorem Grows_afterSendCmd (s : State) : Grows s (afterSendCmd s) := Grows_ok _ s
theorem Grows_afterMemWrite (s : State) : Grows s (afterMemWrite s) := Grows_ok _ s
theorem Grows_afterMemRead (s : State) : Grows s (afterMemRead s) :=
  Grows_andThen (Grows_fifoRd _ s) fun _ s' => Grows_ok _ s'
theorem Grows_afterGenFetch (s : State) : Grows s (afterGenFetch s) := by
  unfold afterGenFetch
  split
  · exact Grows_andThen (Grows_fifoRd _ s) fun _ s' => Grows_ok _ s'
  · exact Grows_andThen (Grows_fifoRd _ s) fun _ s' => ⟨[], Grows_emit s' _, noErr_nil⟩
theorem Grows_afterGenGenerate (s : State) : Grows s (afterGenGenerate s) :=
  Grows_ifBound (Grows_andThen (Grows_fifoFlush s) fun _ s' => Grows_sendCmdThen _ _ Grows_afterGenFetch s')
theorem Grows_afterGenClear (s : State) : Grows s (afterGenClear s) := Grows_sendCmdThen _ _ Grows_afterGenGenerate s
theorem Grows_getVersion (s : State) : Grows s (getVersion s) := by
  refine Grows_andThen (Grows_regRd _ _ _ _ (by decide)) fun _ s' => ?_
  split
  · exact Grows_fail (by simp [isBus]) s'
  · exact Grows_ok _ s'

end Sys2Proof.Machine
end

