-- ==== Sys2Proof/Laws/PerInstr.lean ====
section
/-! SUPPORT. A fact for every constructor of the syntax: the words of a well-formed instruction have the size its format
gives them. -/

namespace Sys2Proof

/-- The size of a format's bytes: 31 for a request (log 6), one for an address, status, level or version byte (R50), one or
two for a frame (R55), and a line is valid UTF-8 (R130). -/
def sizeOk (word : Format × List Byte) : Bool :=
  match word.1 with
  | .request => word.2.length == 31
  | .text => utf8Valid word.2
  | .frame => word.2.length == 1 || word.2.length == 2
  | _ => word.2.length == 1

/-- The words of a well-formed instruction have the size of its format. -/
def Laws.Row.Statement (i : Instr) : Prop := ∀ p : Params, i.wellFormed = true → sizeOk (encode p i) = true

theorem sizeOk_request (r : Request) : sizeOk (encodeRequest r) = true := by
  show (r.bytes.length == 31) = true
  rw [r.bytes_length]; rfl

theorem sizeOk_text {c : TextCommand} {args : TextArgs} (h : textArgsOk c args = true) :
    sizeOk (.text, lineOf c args) = true := by
  unfold textArgsOk at h
  exact (Bool.and_eq_true _ _ ▸ h).2

namespace Laws.Row

theorem addrEnc (m : Bool) (a : Nat) : Statement (.addrEnc m a) := fun _ _ => sizeOk_request _
theorem statEnc (code : BitVec 4) (pwr rcv : Bool) : Statement (.statEnc code pwr rcv) := fun _ _ => sizeOk_request _
theorem statDec (b : Byte) : Statement (.statDec b) := fun _ _ => sizeOk_request _
theorem regRd (reg : Reg) (n : BitVec 5) : Statement (.regRd reg n) := fun _ _ => sizeOk_request _
theorem regWr (reg : Reg) (v : Byte) : Statement (.regWr reg v) := fun _ _ => sizeOk_request _
theorem fifoLvl : Statement .fifoLvl := fun _ _ => sizeOk_request _
theorem fifoFlush : Statement .fifoFlush := fun _ _ => sizeOk_request _
theorem fifoRd : Statement .fifoRd := fun _ _ => sizeOk_request _
theorem fifoWr (n : BitVec 5) (data : Buffer) : Statement (.fifoWr n data) := fun _ _ => sizeOk_request _
theorem sendCmd (code : BitVec 4) : Statement (.sendCmd code) := fun _ _ => sizeOk_request _
theorem memWrite (declaredLen : Byte) (payload : Buffer) : Statement (.memWrite declaredLen payload) := fun _ _ => sizeOk_request _
theorem memRead : Statement .memRead := fun _ _ => sizeOk_request _
theorem getVersion : Statement .getVersion := fun _ _ => sizeOk_request _
theorem genRandId : Statement .genRandId := fun _ _ => sizeOk_request _
theorem verCls (b : Byte) : Statement (.verCls b) := fun _ _ => sizeOk_request _
theorem reservedOp : Statement .reservedOp := fun _ _ => sizeOk_request _
theorem parseMemRead (args : TextArgs) : Statement (.parseMemRead args) := fun _ h => sizeOk_text h
theorem parseMemWrite (args : TextArgs) : Statement (.parseMemWrite args) := fun _ h => sizeOk_text h
theorem parseGetVersion (args : TextArgs) : Statement (.parseGetVersion args) := fun _ h => sizeOk_text h
theorem parseGenRandId (args : TextArgs) : Statement (.parseGenRandId args) := fun _ h => sizeOk_text h
theorem aCommandRead : Statement .aCommandRead := fun _ _ => rfl
theorem aCommandWrite : Statement .aCommandWrite := fun _ _ => rfl
theorem aFifoDataRead : Statement .aFifoDataRead := fun _ _ => rfl
theorem aFifoDataWrite : Statement .aFifoDataWrite := fun _ _ => rfl
theorem aFifoLevelRead : Statement .aFifoLevelRead := fun _ _ => rfl
theorem aFifoLevelWrite : Statement .aFifoLevelWrite := fun _ _ => rfl
theorem aVersionRead : Statement .aVersionRead := fun _ _ => rfl
theorem aVersionWrite : Statement .aVersionWrite := fun _ _ => rfl
theorem sIdle (rsv : BitVec 2) (rcv pwr : Bool) : Statement (.sIdle rsv rcv pwr) := fun _ _ => rfl
theorem sMem (rsv : BitVec 2) (rcv pwr : Bool) : Statement (.sMem rsv rcv pwr) := fun _ _ => rfl
theorem sGenerateRandomId (rsv : BitVec 2) (rcv pwr : Bool) : Statement (.sGenerateRandomId rsv rcv pwr) := fun _ _ => rfl
theorem sCalcCrc (rsv : BitVec 2) (rcv pwr : Bool) : Statement (.sCalcCrc rsv rcv pwr) := fun _ _ => rfl
theorem sTransmit (rsv : BitVec 2) (rcv pwr : Bool) : Statement (.sTransmit rsv rcv pwr) := fun _ _ => rfl
theorem sNoCmdChange (rsv : BitVec 2) (rcv pwr : Bool) : Statement (.sNoCmdChange rsv rcv pwr) := fun _ _ => rfl
theorem sReceive (rsv : BitVec 2) (rcv pwr : Bool) : Statement (.sReceive rsv rcv pwr) := fun _ _ => rfl
theorem sTransceive (rsv : BitVec 2) (rcv pwr : Bool) : Statement (.sTransceive rsv rcv pwr) := fun _ _ => rfl
theorem sMfAuthent (rsv : BitVec 2) (rcv pwr : Bool) : Statement (.sMfAuthent rsv rcv pwr) := fun _ _ => rfl
theorem sSoftReset (rsv : BitVec 2) (rcv pwr : Bool) : Statement (.sSoftReset rsv rcv pwr) := fun _ _ => rfl
theorem sUnknown5 (rsv : BitVec 2) (rcv pwr : Bool) : Statement (.sUnknown5 rsv rcv pwr) := fun _ _ => rfl
theorem sUnknown6 (rsv : BitVec 2) (rcv pwr : Bool) : Statement (.sUnknown6 rsv rcv pwr) := fun _ _ => rfl
theorem sUnknown9 (rsv : BitVec 2) (rcv pwr : Bool) : Statement (.sUnknown9 rsv rcv pwr) := fun _ _ => rfl
theorem sUnknown10 (rsv : BitVec 2) (rcv pwr : Bool) : Statement (.sUnknown10 rsv rcv pwr) := fun _ _ => rfl
theorem sUnknown11 (rsv : BitVec 2) (rcv pwr : Bool) : Statement (.sUnknown11 rsv rcv pwr) := fun _ _ => rfl
theorem sUnknown13 (rsv : BitVec 2) (rcv pwr : Bool) : Statement (.sUnknown13 rsv rcv pwr) := fun _ _ => rfl
theorem lFlush : Statement .lFlush := fun _ _ => rfl
theorem lLevel (flushBit : Bool) (level : BitVec 7) : Statement (.lLevel flushBit level) := fun _ _ => rfl
theorem vVersion1 : Statement .vVersion1 := fun _ _ => rfl
theorem vVersion2 : Statement .vVersion2 := fun _ _ => rfl
theorem vUnknown (b : Byte) : Statement (.vUnknown b) := fun _ _ => rfl
theorem readFrame (reg : Reg) : Statement (.readFrame reg) := fun _ _ => rfl
theorem writeFrame (reg : Reg) (d : Byte) : Statement (.writeFrame reg d) := fun _ _ => rfl

end Laws.Row

end Sys2Proof
end

