-- ==== Sys2Proof/Laws/Polls.lean ====
section
/-! SUPPORT. From a piece to the end of its operation, and polling over several steps. -/

namespace Sys2Proof.Machine

/-! ### From a piece to the end of an operation -/

/-- As `Piece`, but which SEND_CMD polls may have changed. -/
structure Reached (s s' : State) (calls : List BusCall) : Prop where
  env : EnvEq s' (s.afterCalls calls)
  bound : s'.bound = s.bound
  lat : s'.lat = s.lat
  locked : s'.locked = s.locked
  sink : s'.sink = s.sink
  resp : s'.resp = s.resp
  owner : s'.owner = s.owner
  answers : s'.answers = s.answers
  held : s'.held = s.held
  busy : s'.seq.busy = s.seq.busy
  curOp : s'.seq.curOp = s.seq.curOp

theorem Piece.reached {s s' : State} {cs : List BusCall} (h : Piece s s' cs) : Reached s s' cs :=
  ⟨h.env, h.bound, h.lat, h.locked, h.sink, h.resp, h.owner, h.answers, h.held, h.busy, h.curOp⟩

theorem setWait_reached (s : State) (w : Wait) : Reached s (s.setWait w) [] :=
  ⟨⟨rfl, rfl, rfl, rfl, rfl⟩, rfl, rfl, rfl, rfl, rfl, rfl, rfl, rfl, rfl, rfl⟩

theorem Reached.trans {s t u : State} {cs ds : List BusCall} (h : Reached s t cs) (g : Reached t u ds) :
    Reached s u (cs ++ ds) where
  env := by
    rw [afterCalls_append]
    exact g.env.trans (h.env.afterCalls ds)
  bound := g.bound.trans h.bound
  lat := g.lat.trans h.lat
  locked := g.locked.trans h.locked
  sink := g.sink.trans h.sink
  resp := g.resp.trans h.resp
  owner := g.owner.trans h.owner
  answers := g.answers.trans h.answers
  held := g.held.trans h.held
  busy := g.busy.trans h.busy
  curOp := g.curOp.trans h.curOp

theorem Reached.cfg {s s' : State} {cs : List BusCall} (h : Reached s s' cs) : s'.cfg = s.cfg := by
  simpa using h.env.1

theorem Reached.replies {s s' : State} {cs : List BusCall} (h : Reached s s' cs) (ds : List BusCall) :
    s'.replies ds = (s.afterCalls cs).replies ds := h.env.replies ds

/-- What calls leave when they start in a state the outside cannot tell from `s`, with the same handle and inputs. -/
theorem Reached.left {s s0 s' : State} {calls : List BusCall} {rs : List Reply} (h : Reached s0 s' calls)
    (e : EnvEq s0 s) (hb : s0.bound = s.bound) (ho : s0.owner = s.owner)
    (hq : s0.answers = s.answers) (hh : s0.held = s.held) (hr : s.replies calls = rs) : KeepsOutside s s'.dropParsed ∧ Issued s s'.dropParsed calls rs := by
  have henv : EnvEq s' (s.afterCalls calls) := h.env.trans (e.afterCalls calls)
  obtain ⟨h1, h2, h3, -, h5⟩ := henv
  refine ⟨⟨by simpa using h1, h.bound.trans hb, by simpa using h3, h.owner.trans ho, h.answers.trans hq,
    h.held.trans hh, rfl⟩, hr, ?_, h2⟩
  rw [dropParsed_trace, h5, afterCalls_trace, hr]

/-- An operation that began in `s` and issued these calls, ended. -/
theorem Reached.ended {s s0 s' : State} {calls : List BusCall} {rs : List Reply} (h : Reached s0 s' calls) (r : Response)
    (e : EnvEq s0 s) (hb : s0.bound = s.bound) (ho : s0.owner = s.owner)
    (hq : s0.answers = s.answers) (hh : s0.held = s.held) (hr : s.replies calls = rs) : Ended s (s'.finish r) r calls rs := by
  obtain ⟨h1, h2⟩ := h.left e hb ho hq hh hr
  exact ⟨⟨rfl, rfl, rfl, rfl⟩, h1, h2⟩

theorem Reached.ended_begin {s s' : State} {op : OpName} {l : Latches} {calls : List BusCall} {rs : List Reply}
    (h : Reached (s.begin op l) s' calls) (r : Response) (hr : s.replies calls = rs) : Ended s (s'.finish r) r calls rs :=
  h.ended r (envEq_begin s op l) rfl rfl rfl rfl hr

theorem Reached.ended_beginLocked {s s' : State} {op : OpName} {l : Latches} {calls : List BusCall} {rs : List Reply}
    (h : Reached (s.beginLocked op l) s' calls) (r : Response) (hr : s.replies calls = rs) :
    Ended s (s'.finish r) r calls rs :=
  h.ended r (envEq_beginLocked s op l) rfl rfl rfl rfl hr

theorem replies_begin (s : State) (op : OpName) (l : Latches) (cs : List BusCall) :
    (s.begin op l).replies cs = s.replies cs := (envEq_begin s op l).replies cs
theorem replies_beginLocked (s : State) (op : OpName) (l : Latches) (cs : List BusCall) :
    (s.beginLocked op l).replies cs = s.replies cs := (envEq_beginLocked s op l).replies cs

/-! ### Polling over several steps -/

/-- What follows the Idle of the SEND_CMD that waits (R112). -/
def restOf : Wait → State → Run Result
  | .idle => afterSendCmd
  | .sendCmd => afterSendCmd
  | .memWrite => afterMemWrite
  | .memRead => afterMemRead
  | .genClear => afterGenClear
  | .genGenerate => afterGenGenerate
  | .genFetch => afterGenFetch

/-- A further step of an operation that waits is one turn of its poll loop. -/
theorem resume_eq {s : State} (h : s.seq.wait ≠ .idle) : resume s = conclude (pollThen (restOf s.seq.wait) s) := by
  unfold resume
  split <;> simp_all [restOf]

theorem lineNow_none {s : State} (h : s.readyLines = []) : s.lineNow = none := by
  unfold State.lineNow
  rw [h]

/-- A step of a block that is owned and has no reset and no line to serve goes on with the operation. -/
theorem step_owned {s : State} (hn : Quiet s) (ho : s.owned = true) : step s = resume s := by
  unfold step
  rw [show s.resetNow = none from hn.1, lineNow_none hn.2]
  simp [ho]

theorem quiet_of_held {s t : State} (h : Quiet s) (hh : t.held = s.held) (ho : t.owner = s.owner) : Quiet t := by
  unfold Quiet NoReset State.resetNow State.readyLines at *
  rw [hh, ho]
  exact h

/-- An outcome leads to `t` after `n` further steps. -/
def LeadsTo (o : Host.Outcome State Fault Refusal) (n : Nat) (t : State) : Prop :=
  ∃ u, o = .next u ∧ stepsTo n u = some t

theorem leadsTo_zero {o : Host.Outcome State Fault Refusal} {t : State} (h : o = .next t) : LeadsTo o 0 t := ⟨t, h, rfl⟩

theorem leadsTo_step {s t : State} {n : Nat} (h : LeadsTo (step s) n t) : stepsTo (n + 1) s = some t := by
  obtain ⟨u, h1, h2⟩ := h
  rw [stepsTo, h1]
  exact h2

/-- One poll that is not Idle (R110): the operation waits. -/
theorem pollThen_busy {k : State → Run Result} {s : State} {b : Byte} (hb : s.bound = true)
    (hbud : budgetSpent s.cfg.pollBudget s.seq.polls = false) (hi : isIdle b = false)
    (h : s.replies [readCall s.cfg .command] = [.ok b]) :
    ∃ s', pollThen k s = .wait s' ∧ Piece s s' [readCall s.cfg .command] ∧ s'.ans = s.ans ∧ s'.seq.loc = s.seq.loc
      ∧ s'.seq.polls = s.seq.polls + 1 ∧ s'.seq.tmp = b := by
  obtain ⟨s', h1, h2⟩ := pollOnce_ok hb hbud h
  refine ⟨s', ?_, h2⟩
  rw [pollThen, h1, andThen_ok, hi]
  rfl

/-- The step of such a poll: the operation waits, and what PARSE returned before is gone (R24). -/
theorem poll_waits {k : State → Run Result} {s : State} {b : Byte} (hb : s.bound = true)
    (hbud : budgetSpent s.cfg.pollBudget s.seq.polls = false) (hi : isIdle b = false)
    (h : s.replies [readCall s.cfg .command] = [.ok b]) :
    ∃ s', conclude (pollThen k s) = .next s' ∧ Piece s s' [readCall s.cfg .command] ∧ s'.ans = s.ans
      ∧ s'.seq.loc = s.seq.loc ∧ s'.seq.polls = s.seq.polls + 1 ∧ s'.seq.tmp = b ∧ s'.parsed = none := by
  obtain ⟨s', h1, h2, h3, h4, h5, h6⟩ := pollThen_busy (k := k) hb hbud hi h
  exact ⟨s'.dropParsed, by rw [h1, conclude_wait], h2.dropParsed, h3, h4, h5, h6, rfl⟩

/-- One poll that is Idle (R110): what follows the Idle runs. -/
theorem pollThen_idle {k : State → Run Result} {s : State} {b : Byte} (hb : s.bound = true)
    (hbud : budgetSpent s.cfg.pollBudget s.seq.polls = false) (hi : isIdle b = true)
    (h : s.replies [readCall s.cfg .command] = [.ok b]) :
    ∃ s', pollThen k s = k s' ∧ Piece s s' [readCall s.cfg .command] ∧ s'.ans = s.ans ∧ s'.seq.loc = s.seq.loc
      ∧ s'.seq.polls = s.seq.polls + 1 := by
  obtain ⟨s', h1, h2, h3, h4, h5, -⟩ := pollOnce_ok hb hbud h
  refine ⟨s', ?_, h2, h3, h4, h5⟩
  rw [pollThen, h1, andThen_ok, hi]
  rfl

/-- A poll that fails (R110). -/
theorem pollThen_err {k : State → Run Result} {s : State} (hb : s.bound = true)
    (hbud : budgetSpent s.cfg.pollBudget s.seq.polls = false) (h : s.replies [readCall s.cfg .command] = [.err]) :
    ∃ s', pollThen k s = .fail (.busError (some 0)) s'.draw ∧ Piece s s' [readCall s.cfg .command] ∧ s'.ans = s.ans := by
  obtain ⟨s', h1, h2⟩ := regRd_tmp_err hb h
  refine ⟨s', ?_, h2⟩
  rw [pollThen, pollOnce, hbud]
  simp [h1]

theorem pollThen_timeout {k : State → Run Result} {s : State} (hbud : budgetSpent s.cfg.pollBudget s.seq.polls = true) :
    pollThen k s = .fail .chipTimeout s := by
  rw [pollThen, pollOnce_timeout hbud, andThen_fail]

theorem budgetSpent_of_lt {p : Option Nat} {n : Nat} (h : ∀ k, p = some k → n < k) : budgetSpent p n = false := by
  cases p with
  | none => rfl
  | some k =>
    have := h k rfl
    simp only [budgetSpent, decide_eq_false_iff_not]
    omega

/-- Polls that are not Idle, then one that is, within the budget: after as many further steps as there were polls not Idle, what
follows the Idle has run (R110, R112). -/
theorem polls_run {w : Wait} (hw : w ≠ .idle) (busy : List Byte) (idle : Byte) (s : State) (hwait : s.seq.wait = w)
    (hbusy : s.seq.busy = true) (hb : s.bound = true) (hn : busy ≠ [] → Quiet s) (hnot : ∀ b ∈ busy, isIdle b = false)
    (hi : isIdle idle = true) (hbud : ∀ k, s.cfg.pollBudget = some k → s.seq.polls + busy.length < k)
    (h : s.replies (List.replicate (busy.length + 1) (readCall s.cfg .command)) = (busy ++ [idle]).map Reply.ok) :
    ∃ s', Piece s s' (List.replicate (busy.length + 1) (readCall s.cfg .command)) ∧ s'.ans = s.ans
      ∧ s'.seq.loc = s.seq.loc
      ∧ ∀ n t, LeadsTo (conclude (restOf w s')) n t → LeadsTo (conclude (pollThen (restOf w) s)) (busy.length + n) t := by
  induction busy generalizing s with
  | nil =>
    obtain ⟨s', h1, h2, h3, h4, -⟩ := pollThen_idle (k := restOf w) hb (budgetSpent_of_lt (by simpa using hbud)) hi h
    refine ⟨s', h2, h3, h4, fun n t ht => ?_⟩
    rw [h1]
    simpa using ht
  | cons b bs ih =>
    have hsplit : s.replies ([readCall s.cfg .command] ++ List.replicate (bs.length + 1) (readCall s.cfg .command))
        = [Reply.ok b] ++ (bs ++ [idle]).map Reply.ok := h
    obtain ⟨ha, hd⟩ := replies_split hsplit rfl
    obtain ⟨s1, h1, h2, h3, h4, h5, -⟩ := poll_waits (k := restOf w) hb
      (budgetSpent_of_lt fun k hk => by have := hbud k hk; simp only [List.length_cons] at this; omega)
      (hnot b (by simp)) ha
    have hw1 : s1.seq.wait = w := h2.wait.trans hwait
    have hn1 : Quiet s1 := quiet_of_held (hn (by simp)) h2.held h2.owner
    obtain ⟨s', g1, g2, g3, g4⟩ := ih s1 hw1 (h2.busy.trans hbusy) (h2.bound.trans hb) (fun _ => hn1)
      (fun x hx => hnot x (by simp [hx]))
      (fun k hk => by
        rw [h2.cfg] at hk
        have := hbud k hk
        simp only [List.length_cons] at this
        rw [h5]
        omega)
      (by rw [h2.cfg, h2.replies, hd])
    refine ⟨s', ?_, g2.trans h3, g3.trans h4, fun n t ht => ?_⟩
    · rw [h2.cfg] at g1
      exact h2.trans g1
    · refine ⟨s1, h1, ?_⟩
      have hs : step s1 = conclude (pollThen (restOf w) s1) := by
        rw [step_owned hn1 (by simp [State.owned, h2.busy, hbusy]), resume_eq (by rw [hw1]; exact hw), hw1]
      have := leadsTo_step (s := s1) (by rw [hs]; exact g4 n t ht)
      rw [List.length_cons, show bs.length + 1 + n = bs.length + n + 1 by omega]
      exact this

/-- As many polls that are not Idle as the budget allows, then ChipTimeout (R110, R153). -/
theorem polls_timeout {w : Wait} (hw : w ≠ .idle) (busy : List Byte) (s : State) (hne : busy ≠ []) (hwait : s.seq.wait = w)
    (hbusy : s.seq.busy = true) (hb : s.bound = true) (hn : Quiet s) (hnot : ∀ b ∈ busy, isIdle b = false)
    (hbud : s.cfg.pollBudget = some (s.seq.polls + busy.length))
    (h : s.replies (List.replicate busy.length (readCall s.cfg .command)) = busy.map Reply.ok) :
    ∃ s', Piece s s' (List.replicate busy.length (readCall s.cfg .command)) ∧ s'.ans = s.ans
      ∧ LeadsTo (conclude (pollThen (restOf w) s)) busy.length (s'.failed .chipTimeout) := by
  induction busy generalizing s with
  | nil => exact absurd rfl hne
  | cons b bs ih =>
    have hsplit : s.replies ([readCall s.cfg .command] ++ List.replicate bs.length (readCall s.cfg .command))
        = [Reply.ok b] ++ bs.map Reply.ok := h
    obtain ⟨ha, hd⟩ := replies_split hsplit rfl
    obtain ⟨s1, h1, h2, h3, h4, h5, -⟩ := poll_waits (k := restOf w) hb
      (budgetSpent_of_lt fun k hk => by
        rw [hbud, Option.some.injEq] at hk
        simp only [List.length_cons] at hk
        omega)
      (hnot b (by simp)) ha
    have hw1 : s1.seq.wait = w := h2.wait.trans hwait
    have hn1 : Quiet s1 := quiet_of_held hn h2.held h2.owner
    have hs : step s1 = conclude (pollThen (restOf w) s1) := by
      rw [step_owned hn1 (by simp [State.owned, h2.busy, hbusy]), resume_eq (by rw [hw1]; exact hw), hw1]
    have hbud1 : s1.cfg.pollBudget = some (s1.seq.polls + bs.length) := by
      rw [h2.cfg, hbud, h5]
      simp only [List.length_cons, Option.some.injEq]
      omega
    rcases bs with _ | ⟨b2, bs⟩
    · refine ⟨s1, h2, h3, s1, h1, ?_⟩
      refine leadsTo_step (n := 0) (leadsTo_zero ?_)
      rw [hs, pollThen_timeout (by rw [hbud1]; simp [budgetSpent]), conclude_fail]
    · obtain ⟨s', g1, g2, g3⟩ := ih s1 (by simp) hw1 (h2.busy.trans hbusy) (h2.bound.trans hb) hn1
        (fun x hx => hnot x (by simp [hx])) hbud1 (by rw [h2.cfg, h2.replies, hd])
      refine ⟨s', ?_, g2.trans h3, s1, h1, ?_⟩
      · rw [h2.cfg] at g1
        exact h2.trans g1
      · exact leadsTo_step (by rw [hs]; exact g3)

/-- SEND_CMD with polls that are not Idle and then one that is (R110), with what follows. With no poll but the Idle one, no
further step is needed. -/
theorem sendCmdThen_run {c : CommandCode} {w : Wait} (hw : w ≠ .idle) {busy : List Byte} {idle x : Byte} {s : State}
    (hbusy : s.seq.busy = true) (hb : s.bound = true) (hn : busy ≠ [] → Quiet s) (hp : PollsOk s.cfg busy idle)
    (h : s.replies (sendCalls s.cfg c (busy.length + 1)) = sendReplies x busy idle) :
    ∃ s', Reached s s' (sendCalls s.cfg c (busy.length + 1)) ∧ s'.ans = s.ans ∧ s'.seq.loc = s.seq.loc
      ∧ ∀ n t, LeadsTo (conclude (restOf w s')) n t →
        LeadsTo (conclude (sendCmdThen c w (restOf w) s)) (busy.length + n) t := by
  obtain ⟨hp1, hp2, hp3⟩ := hp
  obtain ⟨ha, hd⟩ := replies_split (cs := [writeCall s.cfg .command (commandByte s.cfg c)]) (xs := [Reply.ok x]) h rfl
  obtain ⟨s1, e1, p1, a1, l1, q1⟩ := sendStart_ok hb ha
  have r1 : Reached s (s1.setWait w) [writeCall s.cfg .command (commandByte s.cfg c)] := by
    simpa using p1.reached.trans (setWait_reached s1 w)
  obtain ⟨s2, g1, g2, g3, g4⟩ := polls_run hw busy idle (s1.setWait w) rfl (r1.busy.trans hbusy) (r1.bound.trans hb)
    (fun h => quiet_of_held (hn h) r1.held r1.owner) hp1 hp2
    (fun k hk => by
      rw [r1.cfg] at hk
      rw [setWait_seq_polls, q1, Nat.zero_add]
      exact hp3 k hk)
    (by
      rw [r1.cfg, r1.replies]
      exact hd)
  rw [r1.cfg] at g1
  refine ⟨s2, r1.trans g1.reached, g2.trans (by simpa using a1), g3.trans (by simpa using l1), fun n t ht => ?_⟩
  rw [sendCmdThen, e1, andThen_ok]
  exact g4 n t ht

end Sys2Proof.Machine
end

