-- ==== Sys2Proof/Laws/Unread.lean ====
section
/-! SUPPORT. What no piece of an operation reads: two runs that start alike but for the contents of the answer buffer and the
sink go on alike, and write the same bytes to both (R11, R120). -/

namespace Sys2Proof.Machine

/-- The contents of the answer buffer and the sink before a run, twice. -/
structure Unread where
  ans  : Buffer
  ans' : Buffer
  sink : List Byte
  sink' : List Byte

/-- Two states that differ only in answer buffer and sink, since they began with different contents of them: the same bytes
have been written to the first positions of the one and appended to the other. -/
def Unread.Rel (u : Unread) (n : Nat) (s s' : State) : Prop :=
  ∃ written emitted : List Byte, n ≤ written.length
    ∧ s' = { s with ans := s'.ans, sink := s'.sink }
    ∧ s.ans.toList = written ++ u.ans.toList.drop written.length
    ∧ s'.ans.toList = written ++ u.ans'.toList.drop written.length
    ∧ s.sink = u.sink ++ emitted ∧ s'.sink = u.sink' ++ emitted

/-- Two runs that end alike in such states. -/
def Unread.Sim {α : Type} (u : Unread) (n : Nat) : Run α → Run α → Prop
  | .ok a s, .ok a' s' => a = a' ∧ u.Rel n s s'
  | .fail f s, .fail f' s' => f = f' ∧ u.Rel n s s'
  | .wait s, .wait s' => u.Rel n s s'
  | _, _ => False

variable {u : Unread}

theorem Unread.Rel.weaken {n m : Nat} {s s' : State} (h : u.Rel n s s') (hm : m ≤ n) : u.Rel m s s' := by
  obtain ⟨w, e, h1, h2⟩ := h
  exact ⟨w, e, by omega, h2⟩

/-- The two states are one state with other contents of the two. -/
theorem Unread.Rel.cases {n : Nat} {s s' : State} (h : u.Rel n s s') : ∃ v k, s' = { s with ans := v, sink := k } := by
  obtain ⟨w, e, -, h2, -⟩ := h
  exact ⟨_, _, h2⟩

theorem Unread.Rel.cfg {n : Nat} {s s' : State} (h : u.Rel n s s') : s'.cfg = s.cfg := by
  obtain ⟨v, k, rfl⟩ := h.cases
  rfl
theorem Unread.Rel.seq {n : Nat} {s s' : State} (h : u.Rel n s s') : s'.seq = s.seq := by
  obtain ⟨v, k, rfl⟩ := h.cases
  rfl
theorem Unread.Rel.tick {n : Nat} {s s' : State} (h : u.Rel n s s') : s'.tick = s.tick := by
  obtain ⟨v, k, rfl⟩ := h.cases
  rfl

/-- An update that does not touch the two. -/
theorem Unread.Rel.map {n : Nat} {s s' : State} (h : u.Rel n s s') (f : State → State)
    (hf : ∀ t v k, f { t with ans := v, sink := k } = { f t with ans := v, sink := k }) (ha : ∀ t, (f t).ans = t.ans)
    (hs : ∀ t, (f t).sink = t.sink) : u.Rel n (f s) (f s') := by
  obtain ⟨w, e, h1, h2, h3, h4, h5, h6⟩ := h
  refine ⟨w, e, h1, ?_, by rw [ha]; exact h3, by rw [ha]; exact h4, by rw [hs]; exact h5, by rw [hs]; exact h6⟩
  rw [ha, hs, ← hf, ← h2]

theorem Unread.Sim_andThen {α β : Type} {r r' : Run α} {k : α → State → Run β} (h : u.Sim 0 r r')
    (hk : ∀ a s s', u.Rel 0 s s' → u.Sim 0 (k a s) (k a s')) : u.Sim 0 (r.andThen k) (r'.andThen k) := by
  cases r <;> cases r' <;> first | exact h | exact h.elim | skip
  obtain ⟨rfl, h⟩ := h
  exact hk _ _ _ h

theorem Unread.Sim_ifBound {α : Type} {k : State → Run α} {s s' : State} (h : u.Rel 0 s s') (hk : u.Sim 0 (k s) (k s')) :
    u.Sim 0 (ifBound k s) (ifBound k s') := by
  obtain ⟨v, w, rfl⟩ := h.cases
  unfold ifBound
  split
  · exact hk
  · exact ⟨rfl, h⟩

theorem Unread.Sim_transact (c : BusCall) {n : Nat} {s s' : State} (h : u.Rel n s s') : u.Sim n (transact c s) (transact c s') := by
  obtain ⟨v, w, rfl⟩ := h.cases
  have ha : State.answerOf { s with ans := v, sink := w } c = s.answerOf c := rfl
  have hm := h.map (fun t => t.afterCall c) (fun _ _ _ => rfl) (fun _ => rfl) (fun _ => rfl)
  unfold transact
  rw [ha]
  cases (s.answerOf c).1 with
  | ok b => exact ⟨rfl, hm⟩
  | err => exact ⟨rfl, hm⟩

theorem Unread.Rel.writeDest {n : Nat} {s s' : State} (h : u.Rel n s s') (d : Dest) (i : Nat) (b : Byte)
    (hd : d = .ans → min i 25 ≤ n) : u.Rel (if d = .ans then min (i + 1) 25 else n) (s.writeDest d i b) (s'.writeDest d i b) := by
  cases d with
  | tmp => exact h.map (fun t => t.writeDest .tmp i b) (fun _ _ _ => rfl) (fun _ => rfl) (fun _ => rfl)
  | loc => exact h.map (fun t => t.writeDest .loc i b) (fun _ _ _ => rfl) (fun _ => rfl) (fun _ => rfl)
  | ans =>
    have hd := hd rfl
    obtain ⟨w, e, h1, h2, h3, h4, h5, h6⟩ := h
    have hl : w.length ≤ 25 := by
      have := congrArg List.length h3
      simp at this
      omega
    rw [if_pos rfl]
    have key : ∀ (x y : Buffer), x.toList = w ++ y.toList.drop w.length →
        (x.setIfInBounds i b).toList = (if i < 25 then w.take i ++ b :: w.drop (i + 1) else w)
          ++ y.toList.drop (if i < 25 then w.take i ++ b :: w.drop (i + 1) else w).length := by
      intro x y hxy
      rw [Vector.toList_setIfInBounds, hxy]
      split
      · next hi =>
        have hw : (w.take i ++ b :: w.drop (i + 1)).length = max w.length (i + 1) := by simp; omega
        have hy : y.toList.length = 25 := by simp
        rw [hw]
        apply List.ext_getElem?
        intro j
        grind
      · next hi =>
        rw [List.set_eq_of_length_le]
        simp; omega
    refine ⟨if i < 25 then w.take i ++ b :: w.drop (i + 1) else w, e, ?_, ?_, key _ _ h3, key _ _ h4, h5, h6⟩
    · split <;> simp <;> omega
    · rw [h2]
      rfl

theorem Unread.Sim_readLoop (r : Reg) (d : Dest) (k : Nat) {n : Nat} {s s' : State} (h : u.Rel n s s')
    (hd : d = .ans → min s.seq.i 25 ≤ n) : u.Sim 0 (readLoop r d k s) (readLoop r d k s') := by
  induction k generalizing n s s' with
  | zero => exact ⟨rfl, h.weaken (Nat.zero_le n)⟩
  | succ k ih =>
    have ht : u.Sim n (memRead1 r s) (memRead1 r s') := by
      unfold memRead1
      rw [h.cfg]
      exact Unread.Sim_transact _ h
    have hq : (memRead1 r s).All fun t => t.seq = s.seq := transact_seq _ s
    unfold readLoop
    revert ht hq
    cases memRead1 r s <;> cases memRead1 r s' <;> intro ht hq <;> first | exact ht.elim | skip
    · next b t b' t' =>
      obtain ⟨rfl, ht⟩ := ht
      have hq : t.seq = s.seq := hq
      have hw := (ht.writeDest d t.seq.i b (by rw [hq]; exact hd)).map (fun x => x.setI (t.seq.i + 1))
        (fun _ _ _ => rfl) (fun _ => rfl) (fun _ => rfl)
      simp only [ht.seq]
      refine ih hw fun hd => ?_
      rw [if_pos hd]
      exact Nat.le_refl _
    · next f t f' t' =>
      obtain ⟨rfl, ht⟩ := ht
      have hq : t.seq = s.seq := hq
      have hw := (ht.writeDest d t.seq.i (Config.freeByte t.tick) (by rw [hq]; exact hd)).map (fun x => x.draw)
        (fun _ _ _ => rfl) (fun _ => rfl) (fun _ => rfl)
      simp only [ht.seq, ht.tick]
      exact ⟨rfl, hw.weaken (Nat.zero_le _)⟩
    · exact ht.weaken (Nat.zero_le n)

theorem Unread.Sim_regRd (r : Reg) (n : Nat) (d : Dest) {s s' : State} (h : u.Rel 0 s s') :
    u.Sim 0 (regRd r n d s) (regRd r n d s') :=
  Unread.Sim_ifBound h (Unread.Sim_readLoop r d n
    (h.map (fun t => (t.setN n).setI 0) (fun _ _ _ => rfl) (fun _ => rfl) (fun _ => rfl)) fun _ => Nat.le_refl _)

theorem Unread.Sim_regWr (r : Reg) (v : Byte) {s s' : State} (h : u.Rel 0 s s') :
    u.Sim 0 (regWr r v s) (regWr r v s') := by
  refine Unread.Sim_ifBound h (Unread.Sim_andThen ?_ fun _ _ _ h => ⟨rfl, h⟩)
  rw [h.cfg]
  exact Unread.Sim_transact _ h

theorem Unread.Sim_fifoLvl {s s' : State} (h : u.Rel 0 s s') : u.Sim 0 (fifoLvl s) (fifoLvl s') := by
  refine Unread.Sim_andThen (Unread.Sim_regRd _ _ _ h) fun _ t t' h => ?_
  rw [h.seq]
  exact ⟨rfl, h.map (fun x => x.setLvl _) (fun _ _ _ => rfl) (fun _ => rfl) (fun _ => rfl)⟩

theorem Unread.Sim_fifoRd (d : Dest) {s s' : State} (h : u.Rel 0 s s') : u.Sim 0 (fifoRd d s) (fifoRd d s') := by
  refine Unread.Sim_andThen (Unread.Sim_fifoLvl h) fun l t t' h => ?_
  split
  · exact Unread.Sim_andThen (Unread.Sim_regRd _ _ _ h) fun _ _ _ h => ⟨rfl, h⟩
  · rw [h.cfg]
    split
    · exact ⟨rfl, h⟩
    · exact Unread.Sim_andThen (Unread.Sim_regRd _ _ _ h) fun _ _ _ h => ⟨rfl, h⟩

theorem Unread.Sim_writeLoop (data : List Byte) {s s' : State} (h : u.Rel 0 s s') :
    u.Sim 0 (writeLoop data s) (writeLoop data s') := by
  induction data generalizing s s' with
  | nil => exact ⟨rfl, h⟩
  | cons b rest ih =>
    have ht := Unread.Sim_regWr .fifoData b h
    unfold writeLoop
    revert ht
    cases regWr .fifoData b s <;> cases regWr .fifoData b s' <;> intro ht <;> first | exact ht.elim | skip
    · next a t a' t' =>
      have ht := ht.2
      simp only [ht.seq]
      exact ih (ht.map (fun x => x.setI _) (fun _ _ _ => rfl) (fun _ => rfl) (fun _ => rfl))
    · next f t f' t' =>
      obtain ⟨rfl, ht⟩ := ht
      simp only [ht.seq]
      exact ⟨rfl, ht⟩
    · exact ht

theorem Unread.Sim_fifoWr (data : List Byte) {s s' : State} (h : u.Rel 0 s s') : u.Sim 0 (fifoWr data s) (fifoWr data s') :=
  Unread.Sim_ifBound h (Unread.Sim_writeLoop data
    (h.map (fun t => (t.setN data.length).setI 0) (fun _ _ _ => rfl) (fun _ => rfl) (fun _ => rfl)))

theorem Unread.Sim_sendStart (c : CommandCode) {s s' : State} (h : u.Rel 0 s s') :
    u.Sim 0 (sendStart c s) (sendStart c s') := by
  refine Unread.Sim_ifBound h ?_
  rw [h.cfg]
  exact Unread.Sim_andThen (Unread.Sim_regWr _ _ h) fun _ _ _ h =>
    ⟨rfl, h.map (fun x => x.setPolls 0) (fun _ _ _ => rfl) (fun _ => rfl) (fun _ => rfl)⟩

theorem Unread.Sim_pollOnce {s s' : State} (h : u.Rel 0 s s') : u.Sim 0 (pollOnce s) (pollOnce s') := by
  unfold pollOnce
  rw [h.cfg, h.seq]
  split
  · exact ⟨rfl, h⟩
  · refine Unread.Sim_andThen (Unread.Sim_regRd _ _ _ h) fun _ t t' h => ?_
    rw [h.seq]
    exact ⟨rfl, h.map (fun x => x.setPolls _) (fun _ _ _ => rfl) (fun _ => rfl) (fun _ => rfl)⟩

theorem Unread.Sim_pollThen {k : State → Run Result} (hk : ∀ s s', u.Rel 0 s s' → u.Sim 0 (k s) (k s')) {s s' : State}
    (h : u.Rel 0 s s') : u.Sim 0 (pollThen k s) (pollThen k s') := by
  refine Unread.Sim_andThen (Unread.Sim_pollOnce h) fun idle t t' h => ?_
  split
  · exact hk _ _ h
  · exact h

theorem Unread.Sim_sendCmdThen {k : State → Run Result} (c : CommandCode) (w : Wait)
    (hk : ∀ s s', u.Rel 0 s s' → u.Sim 0 (k s) (k s')) {s s' : State} (h : u.Rel 0 s s') :
    u.Sim 0 (sendCmdThen c w k s) (sendCmdThen c w k s') :=
  Unread.Sim_andThen (Unread.Sim_sendStart c h) fun _ _ _ h =>
    Unread.Sim_pollThen hk (h.map (fun x => x.setWait w) (fun _ _ _ => rfl) (fun _ => rfl) (fun _ => rfl))

theorem Unread.Rel.emit {s s' : State} (h : u.Rel 0 s s') (l : List Byte) : u.Rel 0 (s.emit l) (s'.emit l) := by
  obtain ⟨w, e, h1, h2, h3, h4, h5, h6⟩ := h
  refine ⟨w, e ++ l, h1, ?_, h3, h4, ?_, ?_⟩
  · rw [h2]
    rfl
  · simp [State.emit, h5]
  · simp [State.emit, h6]

theorem Unread.Sim_afterMemRead {s s' : State} (h : u.Rel 0 s s') : u.Sim 0 (afterMemRead s) (afterMemRead s') :=
  Unread.Sim_andThen (Unread.Sim_fifoRd _ h) fun _ _ _ h => ⟨rfl, h⟩

theorem Unread.Sim_afterGenFetch {s s' : State} (h : u.Rel 0 s s') : u.Sim 0 (afterGenFetch s) (afterGenFetch s') := by
  unfold afterGenFetch
  rw [h.cfg]
  split
  · exact Unread.Sim_andThen (Unread.Sim_fifoRd _ h) fun _ _ _ h => ⟨rfl, h⟩
  · refine Unread.Sim_andThen (Unread.Sim_fifoRd _ h) fun l t t' h => ?_
    rw [h.seq]
    exact ⟨rfl, h.emit _⟩

theorem Unread.Sim_afterGenGenerate {s s' : State} (h : u.Rel 0 s s') :
    u.Sim 0 (afterGenGenerate s) (afterGenGenerate s') :=
  Unread.Sim_ifBound h (Unread.Sim_andThen (Unread.Sim_regWr _ _ h) fun _ _ _ h =>
    Unread.Sim_sendCmdThen _ _ (fun _ _ h => Unread.Sim_afterGenFetch h) h)

theorem Unread.Sim_restOf (w : Wait) {s s' : State} (h : u.Rel 0 s s') : u.Sim 0 (restOf w s) (restOf w s') := by
  cases w with
  | idle => exact ⟨rfl, h⟩
  | sendCmd => exact ⟨rfl, h⟩
  | memWrite => exact ⟨rfl, h⟩
  | memRead => exact Unread.Sim_afterMemRead h
  | genClear => exact Unread.Sim_sendCmdThen _ _ (fun _ _ h => Unread.Sim_afterGenGenerate h) h
  | genGenerate => exact Unread.Sim_afterGenGenerate h
  | genFetch => exact Unread.Sim_afterGenFetch h

/-- Outcomes that are alike. -/
theorem Unread.Sim_conclude {r r' : Run Result} (h : u.Sim 0 r r') :
    ∃ t t', conclude r = .next t ∧ conclude r' = .next t' ∧ u.Rel 0 t t' := by
  cases r <;> cases r' <;> first | exact h.elim | skip
  · obtain ⟨rfl, h⟩ := h
    exact ⟨_, _, rfl, rfl, h.map (fun x => x.finish _) (fun _ _ _ => rfl) (fun _ => rfl) (fun _ => rfl)⟩
  · obtain ⟨rfl, h⟩ := h
    exact ⟨_, _, rfl, rfl, h.map (fun x => x.finish _) (fun _ _ _ => rfl) (fun _ => rfl) (fun _ => rfl)⟩
  · exact ⟨_, _, rfl, rfl, h.map (fun x => x.dropParsed) (fun _ _ _ => rfl) (fun _ => rfl) (fun _ => rfl)⟩

end Sys2Proof.Machine
end

