-- ==== Sys2Proof/Laws/Whole.lean ====
section
/-! SUPPORT. What every operation can do: when it waits, and the four shapes of `exec`. -/

namespace Sys2Proof.Machine

/-! ### What a wait looks like -/

/-- A run that waits does so after a poll that was not Idle, within the budget, on a bound device, in a SEND_CMD of `op`. -/
def WaitsIn {α : Type} (op : OpName) : Run α → Prop
  | .ok _ _ => True
  | .fail _ _ => True
  | .wait s => s.seq.wait ≠ .idle ∧ s.seq.wait.op = some op ∧ isIdle s.seq.tmp = false ∧ s.bound = true
      ∧ 1 ≤ s.seq.polls ∧ ∀ k, s.cfg.pollBudget = some k → s.seq.polls ≤ k

theorem WaitsIn_andThen {α β : Type} {op : OpName} {r : Run α} {k : α → State → Run β} (h : WaitsIn op r)
    (hk : ∀ a s, r = .ok a s → WaitsIn op (k a s)) : WaitsIn op (r.andThen k) := by
  cases r with
  | ok a s => exact hk a s rfl
  | fail f s => trivial
  | wait s => exact h

/-- A run that does not wait. -/
def NoWait {α : Type} : Run α → Prop
  | .ok _ _ => True
  | .fail _ _ => True
  | .wait _ => False

theorem NoWait_ok {α : Type} (a : α) (s : State) : NoWait (.ok a s) := trivial
theorem WaitsIn_ok {α : Type} (op : OpName) (a : α) (s : State) : WaitsIn op (.ok a s) := trivial

theorem NoWait.waitsIn {α : Type} {op : OpName} {r : Run α} (h : NoWait r) : WaitsIn op r := by
  cases r with
  | ok a s => trivial
  | fail f s => trivial
  | wait s => exact h.elim

theorem NoWait_andThen {α β : Type} {r : Run α} {k : α → State → Run β} (h : NoWait r)
    (hk : ∀ a s, NoWait (k a s)) : NoWait (r.andThen k) := by
  cases r with
  | ok a s => exact hk a s
  | fail f s => trivial
  | wait s => exact h

theorem NoWait_ifBound {α : Type} {k : State → Run α} {s : State} (h : NoWait (k s)) : NoWait (ifBound k s) := by
  unfold ifBound
  split
  · exact h
  · trivial

theorem NoWait_transact (c : BusCall) (s : State) : NoWait (transact c s) := by
  rcases transact_cases c s with ⟨b, -, h⟩ | ⟨-, h⟩ <;> rw [h] <;> trivial

theorem NoWait_regWr (r : Reg) (v : Byte) (s : State) : NoWait (regWr r v s) :=
  NoWait_ifBound (NoWait_andThen (NoWait_transact _ s) fun _ _ => trivial)

theorem NoWait_readLoop (r : Reg) (d : Dest) (k : Nat) (s : State) : NoWait (readLoop r d k s) := by
  induction k generalizing s with
  | zero => trivial
  | succ k ih =>
    have h : NoWait (memRead1 r s) := NoWait_transact _ s
    unfold readLoop
    revert h
    cases memRead1 r s with
    | ok b s' => exact fun _ => ih _
    | fail f s' => exact fun _ => trivial
    | wait s' => exact fun h => h

theorem NoWait_regRd (r : Reg) (n : Nat) (d : Dest) (s : State) : NoWait (regRd r n d s) :=
  NoWait_ifBound (NoWait_readLoop r d n _)

theorem NoWait_fifoLvl (s : State) : NoWait (fifoLvl s) := NoWait_andThen (NoWait_regRd _ _ _ s) fun _ _ => trivial

theorem NoWait_fifoRd (d : Dest) (s : State) : NoWait (fifoRd d s) := by
  refine NoWait_andThen (NoWait_fifoLvl s) fun l s1 => ?_
  split
  · exact NoWait_andThen (NoWait_regRd _ _ _ s1) fun _ _ => trivial
  · split
    · trivial
    · exact NoWait_andThen (NoWait_regRd _ _ _ s1) fun _ _ => trivial

theorem NoWait_writeLoop (data : List Byte) (s : State) : NoWait (writeLoop data s) := by
  induction data generalizing s with
  | nil => trivial
  | cons b rest ih =>
    have h := NoWait_regWr .fifoData b s
    unfold writeLoop
    revert h
    cases regWr .fifoData b s with
    | ok u s' => exact fun _ => ih _
    | fail f s' => exact fun _ => trivial
    | wait s' => exact fun h => h

theorem NoWait_fifoWr (data : List Byte) (s : State) : NoWait (fifoWr data s) := NoWait_ifBound (NoWait_writeLoop data _)

theorem NoWait_sendStart (c : CommandCode) (s : State) : NoWait (sendStart c s) :=
  NoWait_ifBound (NoWait_andThen (NoWait_regWr _ _ s) fun _ _ => trivial)

theorem NoWait_pollOnce (s : State) : NoWait (pollOnce s) := by
  unfold pollOnce
  split
  · trivial
  · exact NoWait_andThen (NoWait_regRd _ _ _ s) fun _ _ => trivial

theorem NoWait_getVersion (s : State) : NoWait (getVersion s) := by
  refine NoWait_andThen (NoWait_regRd _ _ _ s) fun _ s' => ?_
  split <;> trivial

/-- What a poll that was answered leaves (R110). -/
theorem pollOnce_result {s s' : State} {idle : Bool} (h : pollOnce s = .ok idle s') :
    budgetSpent s.cfg.pollBudget s.seq.polls = false ∧ s.bound = true ∧ s'.bound = true ∧ s'.cfg = s.cfg
      ∧ s'.seq.wait = s.seq.wait ∧ idle = isIdle s'.seq.tmp ∧ s'.seq.polls = s.seq.polls + 1 := by
  have hb : s.bound = true := by
    by_contra hb
    have hb : s.bound = false := by simpa using hb
    unfold pollOnce at h
    split at h
    · cases h
    · rw [regRd, ifBound_unbound _ hb] at h
      cases h
  cases hs : budgetSpent s.cfg.pollBudget s.seq.polls with
  | true =>
    rw [pollOnce_timeout hs] at h
    cases h
  | false =>
    cases ha : (s.answerOf (readCall s.cfg .command)).1 with
    | ok b =>
      obtain ⟨s1, h1, p, -, -, h5, h6⟩ := pollOnce_ok hb hs (b := b) (by simp [State.replies, ha])
      rw [h1] at h
      cases h
      exact ⟨rfl, hb, p.bound.trans hb, p.cfg, p.wait, by rw [h6], h5⟩
    | err =>
      obtain ⟨s1, h1, -, -⟩ := regRd_tmp_err (s := s) (r := .command) hb (by simp [State.replies, ha])
      rw [pollOnce, hs, h1] at h
      cases h

theorem WaitsIn_pollThen {op : OpName} {k : State → Run Result} (hk : ∀ s, WaitsIn op (k s)) (s : State)
    (hop : s.seq.wait ≠ .idle ∧ s.seq.wait.op = some op)
    (hbud : ∀ k, s.cfg.pollBudget = some k → s.seq.polls ≤ k) : WaitsIn op (pollThen k s) := by
  refine WaitsIn_andThen (NoWait_pollOnce s).waitsIn fun idle s' h => ?_
  obtain ⟨h1, -, h3, h4, h5, h6, h7⟩ := pollOnce_result h
  split
  · exact hk s'
  · next hidle =>
    refine ⟨by rw [h5]; exact hop.1, by rw [h5]; exact hop.2, by rw [← h6]; simpa using hidle, h3, by omega, fun k hk => ?_⟩
    rw [h4] at hk
    rw [hk] at h1
    have := hbud k hk
    simp only [budgetSpent, decide_eq_false_iff_not] at h1
    omega

theorem WaitsIn_ifBound {op : OpName} {k : State → Run Result} {s : State} (h : WaitsIn op (k s)) :
    WaitsIn op (ifBound k s) := by
  unfold ifBound
  split
  · exact h
  · trivial

theorem sendStart_result {c : CommandCode} {s s' : State} {u : Unit} (h : sendStart c s = .ok u s') :
    s'.seq.polls = 0 := by
  unfold sendStart ifBound at h
  split at h
  · simp only at h
    cases hr : regWr .command (commandByte s.cfg c) s with
    | ok a s1 =>
      rw [hr] at h
      cases h
      rfl
    | fail f s1 =>
      rw [hr] at h
      cases h
    | wait s1 =>
      rw [hr] at h
      cases h
  · cases h

theorem WaitsIn_sendCmdThen {op : OpName} {k : State → Run Result} {c : CommandCode} {w : Wait}
    (hop : w ≠ .idle ∧ w.op = some op) (hk : ∀ s, WaitsIn op (k s)) (s : State) :
    WaitsIn op (sendCmdThen c w k s) := by
  refine WaitsIn_andThen (NoWait_sendStart c s).waitsIn fun u s' h => ?_
  have h2 := sendStart_result h
  exact WaitsIn_pollThen hk _ hop (fun k _ => by simp [h2])

theorem NoWait_afterMemRead (s : State) : NoWait (afterMemRead s) := NoWait_andThen (NoWait_fifoRd _ s) fun _ _ => trivial
theorem NoWait_afterGenFetch (s : State) : NoWait (afterGenFetch s) := by
  unfold afterGenFetch
  split <;> exact NoWait_andThen (NoWait_fifoRd _ s) fun _ _ => trivial

theorem WaitsIn_afterGenGenerate (s : State) : WaitsIn .genRandId (afterGenGenerate s) := by
  refine WaitsIn_ifBound (WaitsIn_andThen (NoWait_regWr _ _ s).waitsIn fun u s' _ => ?_)
  exact WaitsIn_sendCmdThen ⟨by simp, rfl⟩ (fun s => (NoWait_afterGenFetch s).waitsIn) s'

theorem WaitsIn_afterGenClear (s : State) : WaitsIn .genRandId (afterGenClear s) :=
  WaitsIn_sendCmdThen ⟨by simp, rfl⟩ WaitsIn_afterGenGenerate s

theorem WaitsIn_restOf {w : Wait} {op : OpName} (hop : w.op = some op) (s : State) : WaitsIn op (restOf w s) := by
  cases w with
  | idle => cases hop
  | sendCmd => trivial
  | memWrite => trivial
  | memRead => exact (NoWait_afterMemRead s).waitsIn
  | genClear =>
    cases hop
    exact WaitsIn_afterGenClear s
  | genGenerate =>
    cases hop
    exact WaitsIn_afterGenGenerate s
  | genFetch => exact (NoWait_afterGenFetch s).waitsIn

theorem Grows_restOf (w : Wait) (s : State) : Grows s (restOf w s) := by
  cases w with
  | idle => exact Grows_afterSendCmd s
  | sendCmd => exact Grows_afterSendCmd s
  | memWrite => exact Grows_afterMemWrite s
  | memRead => exact Grows_afterMemRead s
  | genClear => exact Grows_afterGenClear s
  | genGenerate => exact Grows_afterGenGenerate s
  | genFetch => exact Grows_afterGenFetch s

/-! ### Every operation is one of four shapes -/

/-- The state an operation that can issue a frame begins in. -/
def beginAs (locked : Bool) (s : State) (op : OpName) (l : Latches) : State :=
  if locked then s.beginLocked op l else s.begin op l

/-- A compound operation takes the lock, a primitive does not (R27, R121). -/
def OpName.compound : OpName → Bool
  | .regRd | .regWr | .fifoLvl | .fifoFlush | .fifoRd | .fifoWr | .sendCmd | .readFrame | .writeFrame => false
  | .memWrite | .memRead | .getVersion | .genRandId => true

/-- A response that is not BusError, of an operation that issues no frame. -/
def notBus (r : Response) : Prop := ¬isBusError r

/-- What `exec` can do: answer at once; run from the beginning of an operation; return from PARSE; or refuse. -/
inductive Shape (i : Instr) (s : State) : Host.Outcome State Fault Refusal → Prop where
  | answers (ht : isTextRow i = false) (r : Response) (hq : notBus r) : Shape i s (.next (s.finish r))
  | runs (ht : isTextRow i = false) (op : OpName) (l : Latches) (run : Run Result) (hg : Grows (beginAs op.compound s op l) run)
      (hw : WaitsIn op run) : Shape i s (conclude run)
  | parses (ht : isTextRow i = true) (r : Response) : Shape i s (.next (s.parseReturns r))
  | reserved (h : i = .reservedOp) : Shape i s (.refused .reservedOp)
  | plus (h : ∃ l d, isPlusDigits l = true
      ∧ i ∈ [Instr.parseMemRead (.complex l d), .parseMemWrite (.complex l d), .parseGetVersion (.complex l d),
          .parseGenRandId (.complex l d)]) : Shape i s (.refused .plusSign)

theorem notBus_ok (v : Value) (c : Option Nat) : notBus (.ok v c) := by
  rintro ⟨i, h⟩
  cases h

theorem parseArgs_shape (c : TextCommand) (args : TextArgs) (i : Instr) (s : State) (hi : i = textRow c args) :
    Shape i s (parseResult (parseArgs c args) s) := by
  have ht : isTextRow i = true := by subst hi; cases c <;> rfl
  cases hp : parseArgs c args with
  | operation o => exact .parses ht _
  | error e => exact .parses ht _
  | undefined =>
    refine .plus ?_
    cases args with
    | simple =>
      unfold parseArgs at hp
      simp only at hp
      cases hs : simpleOperation c <;> rw [hs] at hp <;> cases hp
    | complex l d =>
      refine ⟨l, d, ?_, ?_⟩
      · by_contra hl
        unfold parseArgs at hp
        simp only at hp
        rw [if_neg hl] at hp
        split at hp
        · cases hp
        · split at hp
          · cases hp
          · split at hp
            · cases hp
            · split at hp
              · cases hp
              · split at hp <;> cases hp
      · subst hi
        cases c <;> simp [textRow]

theorem exec_shape (i : Instr) (s : State) : Shape i s (exec i s) := by
  cases i with
  | addrEnc m a => exact .answers rfl _ (notBus_ok _ _)
  | statEnc code pwr rcv =>
    show Shape _ s (execStatEnc code pwr rcv s)
    unfold execStatEnc
    split
    · exact .answers rfl _ (notBus_ok _ _)
    · exact .answers rfl (.failed (.reservedCommandCode code)) (by rintro ⟨k, h⟩; cases h)
  | statDec b => exact .answers rfl _ (notBus_ok _ _)
  | regRd reg n =>
    show Shape _ s (execRegRd reg n s)
    unfold execRegRd
    split
    · next hn =>
      exact .runs rfl .regRd { reg := reg, n := n } _
        (Grows_andThen (Grows_regRd _ _ _ _ hn) fun _ s' => Grows_ok _ s')
        (NoWait_andThen (NoWait_regRd _ _ _ _) fun _ s' => NoWait_ok _ s').waitsIn
    · exact .answers rfl (.failed (.lengthOutOfRange n)) (by rintro ⟨k, h⟩; cases h)
  | regWr reg v =>
    exact .runs rfl .regWr { reg := reg, val := v } _ (Grows_andThen (Grows_regWr _ _ _) fun _ s' => Grows_ok _ s')
      (NoWait_andThen (NoWait_regWr _ _ _) fun _ s' => NoWait_ok _ s').waitsIn
  | fifoLvl =>
    exact .runs rfl .fifoLvl {} _ (Grows_andThen (Grows_fifoLvl _) fun _ s' => Grows_ok _ s')
      (NoWait_andThen (NoWait_fifoLvl _) fun _ s' => NoWait_ok _ s').waitsIn
  | fifoFlush =>
    exact .runs rfl .fifoFlush {} _ (Grows_andThen (Grows_fifoFlush _) fun _ s' => Grows_ok _ s')
      (NoWait_andThen (NoWait_regWr _ _ _) fun _ s' => NoWait_ok _ s').waitsIn
  | fifoRd =>
    exact .runs rfl .fifoRd {} _ (Grows_andThen (Grows_fifoRd _ _) fun _ s' => Grows_ok _ s')
      (NoWait_andThen (NoWait_fifoRd _ _) fun _ s' => NoWait_ok _ s').waitsIn
  | fifoWr n data =>
    show Shape _ s (execFifoWr n data s)
    unfold execFifoWr
    split
    · next hn =>
      exact .runs rfl .fifoWr { n := n, data := data } _
        (Grows_andThen (Grows_fifoWr _ _ (by simp)) fun _ s' => Grows_ok _ s')
        (NoWait_andThen (NoWait_fifoWr _ _) fun _ s' => NoWait_ok _ s').waitsIn
    · exact .answers rfl (.failed (.lengthOutOfRange n)) (by rintro ⟨k, h⟩; cases h)
  | sendCmd code =>
    show Shape _ s (execSendCmd code s)
    unfold execSendCmd
    split
    · exact .runs rfl .sendCmd { code := code } _ (Grows_sendCmdThen _ _ Grows_afterSendCmd _)
        (WaitsIn_sendCmdThen ⟨by simp, rfl⟩ (fun s => WaitsIn_ok _ _ s) _)
    · exact .answers rfl (.failed (.reservedCommandCode code)) (by rintro ⟨k, h⟩; cases h)
  | memWrite d payload =>
    exact .runs rfl .memWrite { data := payload } _
      (Grows_ifBound (Grows_andThen (Grows_fifoWr _ _ (by simp)) fun _ s' => Grows_sendCmdThen _ _ Grows_afterMemWrite s'))
      (WaitsIn_ifBound (WaitsIn_andThen (NoWait_fifoWr _ _).waitsIn fun _ s' _ =>
        WaitsIn_sendCmdThen ⟨by simp, rfl⟩ (fun s => WaitsIn_ok _ _ s) s'))
  | memRead =>
    exact .runs rfl .memRead {} _
      (Grows_ifBound (Grows_andThen (Grows_fifoFlush _) fun _ s' => Grows_sendCmdThen _ _ Grows_afterMemRead s'))
      (WaitsIn_ifBound (WaitsIn_andThen (NoWait_regWr _ _ _).waitsIn fun _ s' _ =>
        WaitsIn_sendCmdThen ⟨by simp, rfl⟩ (fun s => (NoWait_afterMemRead s).waitsIn) s'))
  | getVersion =>
    exact .runs rfl .getVersion {} _ (Grows_ifBound (Grows_getVersion _))
      (NoWait_ifBound (NoWait_getVersion _)).waitsIn
  | genRandId =>
    exact .runs rfl .genRandId {} _
      (Grows_ifBound (Grows_andThen (Grows_fifoWr _ _ (by simp)) fun _ s' => Grows_sendCmdThen _ _ Grows_afterGenClear s'))
      (WaitsIn_ifBound (WaitsIn_andThen (NoWait_fifoWr _ _).waitsIn fun _ s' _ =>
        WaitsIn_sendCmdThen ⟨by simp, rfl⟩ WaitsIn_afterGenClear s'))
  | verCls b => exact .answers rfl _ (notBus_ok _ _)
  | reservedOp => exact .reserved rfl
  | parseMemRead args => exact parseArgs_shape .memRead args _ s rfl
  | parseMemWrite args => exact parseArgs_shape .memWrite args _ s rfl
  | parseGetVersion args => exact parseArgs_shape .getVersion args _ s rfl
  | parseGenRandId args => exact parseArgs_shape .genRandId args _ s rfl
  | aCommandRead => exact .answers rfl _ (notBus_ok _ _)
  | aCommandWrite => exact .answers rfl _ (notBus_ok _ _)
  | aFifoDataRead => exact .answers rfl _ (notBus_ok _ _)
  | aFifoDataWrite => exact .answers rfl _ (notBus_ok _ _)
  | aFifoLevelRead => exact .answers rfl _ (notBus_ok _ _)
  | aFifoLevelWrite => exact .answers rfl _ (notBus_ok _ _)
  | aVersionRead => exact .answers rfl _ (notBus_ok _ _)
  | aVersionWrite => exact .answers rfl _ (notBus_ok _ _)
  | sIdle rsv rcv pwr => exact .answers rfl _ (notBus_ok _ _)
  | sMem rsv rcv pwr => exact .answers rfl _ (notBus_ok _ _)
  | sGenerateRandomId rsv rcv pwr => exact .answers rfl _ (notBus_ok _ _)
  | sCalcCrc rsv rcv pwr => exact .answers rfl _ (notBus_ok _ _)
  | sTransmit rsv rcv pwr => exact .answers rfl _ (notBus_ok _ _)
  | sNoCmdChange rsv rcv pwr => exact .answers rfl _ (notBus_ok _ _)
  | sReceive rsv rcv pwr => exact .answers rfl _ (notBus_ok _ _)
  | sTransceive rsv rcv pwr => exact .answers rfl _ (notBus_ok _ _)
  | sMfAuthent rsv rcv pwr => exact .answers rfl _ (notBus_ok _ _)
  | sSoftReset rsv rcv pwr => exact .answers rfl _ (notBus_ok _ _)
  | sUnknown5 rsv rcv pwr => exact .answers rfl _ (notBus_ok _ _)
  | sUnknown6 rsv rcv pwr => exact .answers rfl _ (notBus_ok _ _)
  | sUnknown9 rsv rcv pwr => exact .answers rfl _ (notBus_ok _ _)
  | sUnknown10 rsv rcv pwr => exact .answers rfl _ (notBus_ok _ _)
  | sUnknown11 rsv rcv pwr => exact .answers rfl _ (notBus_ok _ _)
  | sUnknown13 rsv rcv pwr => exact .answers rfl _ (notBus_ok _ _)
  | lFlush =>
    exact .runs rfl .fifoFlush {} _ (Grows_andThen (Grows_regWr _ _ _) fun _ s' => Grows_ok _ s')
      (NoWait_andThen (NoWait_regWr _ _ _) fun _ s' => NoWait_ok _ s').waitsIn
  | lLevel x n => exact .answers rfl _ (notBus_ok _ _)
  | vVersion1 => exact .answers rfl _ (notBus_ok _ _)
  | vVersion2 => exact .answers rfl _ (notBus_ok _ _)
  | vUnknown b => exact .answers rfl _ (notBus_ok _ _)
  | readFrame r =>
    exact .runs rfl .readFrame { reg := r, n := 1 } _ (Grows_andThen (Grows_regRd _ 1 _ _ (by decide)) fun _ s' => Grows_ok _ s')
      (NoWait_andThen (NoWait_regRd _ _ _ _) fun _ s' => NoWait_ok _ s').waitsIn
  | writeFrame r d =>
    exact .runs rfl .writeFrame { reg := r, val := d } _ (Grows_andThen (Grows_regWr _ _ _) fun _ s' => Grows_ok _ s')
      (NoWait_andThen (NoWait_regWr _ _ _) fun _ s' => NoWait_ok _ s').waitsIn

/-- STAT_ENC of a defined code (R75). -/
theorem exec_statEnc_num (c : CommandCode) (pwr rcv : Bool) (s : State) :
    exec (.statEnc c.num pwr rcv) s = .next (s.succeed { value := .byte (statusByte c pwr rcv) }) := by
  cases c <;> rfl

/-! ### Lines of text -/

/-- A text row returns PARSE's result or is refused (R130, R140). -/
theorem exec_text {i : Instr} (h : isTextRow i = true) (s : State) :
    (∃ r, exec i s = .next (s.parseReturns r)) ∨ exec i s = .refused .plusSign := by
  have hs := exec_shape i s
  revert hs
  generalize exec i s = o
  rintro (⟨ht, -⟩ | ⟨ht⟩ | ⟨-, r⟩ | hi | -)
  · simp [h] at ht
  · simp [h] at ht
  · exact .inl ⟨r, rfl⟩
  · subst hi
    cases h
  · exact .inr rfl

theorem decode_text {p : Params} {bytes : List Byte} {i : Instr} (h : decode p .text bytes = .instr i) :
    isTextRow i = true := by
  have h : decodeText bytes = .instr i := h
  unfold decodeText at h
  split at h <;> [skip; cases h]
  split at h <;> [cases h; skip]
  split at h <;> cases h
  rename_i c _
  cases c <;> rfl

/-- What serving a line of text can do, on any state: PARSE returns, and an operation it gives waits for the engine as the next
input of the same source (R130, R139; log 22); or the line is outside PARSE's domain. -/
theorem serve_text {h : Held} (ht : h.isText = true) (s : State) :
    (∃ r more, serve h.src h.ev s = .next { s with parsed := some r, held := more ++ s.held }
      ∧ (more = [] ∨ ∃ o, r = .ok (.operation o) none ∧ more = [⟨h.src, .operation o⟩]))
    ∨ ∃ x, serve h.src h.ev s = .refused x := by
  have hbytes : ∀ bytes, (∃ r, runBytes .text bytes s = .next (s.parseReturns r)) ∨ ∃ x, runBytes .text bytes s = .refused x := by
    intro bytes
    unfold runBytes
    split
    · next i hd => exact (exec_text (decode_text hd) s).imp_right fun h => ⟨_, h⟩
    · next e _ => cases e <;> first | exact .inl ⟨_, rfl⟩ | exact .inr ⟨_, rfl⟩
  obtain ⟨src, ev⟩ := h
  cases ev with
  | request f bytes =>
    have hf : f = .text := by simpa [Held.isText] using ht
    subst hf
    exact (hbytes bytes).imp_left fun ⟨r, h⟩ => ⟨r, [], h, .inl rfl⟩
  | line text =>
    rcases hbytes text with ⟨r, h⟩ | ⟨x, h⟩
    · left
      show ∃ r more, runLine src text s = _ ∧ _
      unfold runLine
      rw [h]
      simp only
      split
      · next o ho =>
        refine ⟨r, [⟨src, .operation o⟩], rfl, .inr ⟨o, ?_, rfl⟩⟩
        unfold State.accepted at ho
        split at ho <;> [skip; cases ho]
        next o' hp =>
          cases ho
          exact Option.some.inj hp
      · exact ⟨r, [], rfl, .inl rfl⟩
    · right
      exact ⟨x, by show runLine src text s = _; unfold runLine; rw [h]⟩
  | operation o => cases ht
  | writeAns v => cases ht
  | bind t => cases ht
  | unbind => cases ht
  | reset => cases ht
theorem isText_of_readyLines {s : State} {h : Held} (hm : h ∈ s.readyLines) : h.isText = true := by
  have hm : h ∈ (firstOfEach s.held).filter fun g => g.isText && g.src != s.owner := hm
  simp only [List.mem_filter, Bool.and_eq_true] at hm
  exact hm.2.1

/-- The line the step takes is one of the ready ones. -/
theorem lineNow_mem {s : State} {h : Held} (hl : s.lineNow = some h) : h ∈ s.readyLines := by
  unfold State.lineNow at hl
  split at hl
  · cases hl
  · next a l e =>
    rw [e]
    rw [List.getD_eq_getElem?_getD] at hl
    cases hk : (none :: (a :: l).map some)[Config.pick s.tick % (l.length + 2)]? with
    | none =>
      rw [hk] at hl
      cases hl
    | some x =>
      rw [hk, Option.getD_some] at hl
      subst hl
      simpa using List.mem_of_getElem? hk

end Sys2Proof.Machine
end

