-- ==== Sys2Proof/Tests/Slice0.lean ====
section
/-! SUPPORT. The model's own tests: ill-formed terms, words written out from the spec's encodings, one or two small steps per
instruction with results from 95_test_vectors.md, and for every statement with hypotheses a state and operands that meet them. -/

namespace Sys2Proof.Tests

open Sys2Proof.Machine

/-! ### Helpers -/

/-- The default parameters with RCV_ON = 1 (R6). -/
def P : Params := .default true

/-- A bound block whose chip gives these answers. -/
def bench (replies : List Reply) : State :=
  { State.reset with cfg := P, bound := true, oracle := .script replies }

/-- A bound block against a reference peer (R47). -/
def against (p : Peer) : State := { bench [] with oracle := .peer p }

/-- The peer of 95_test_vectors.md before a row changes it. -/
def peer : Peer where
  version := 0x91
  command := 0
  fifo := []
  memory := Buffer.zero
  busyLeft := 0
  hi := false
  failAt := none
  count := 0
  delay0 := 0
  generated := bufferOf ((List.range 25).map fun k => BitVec.ofNat 8 (0x10 + k))

/-- The 25 bytes "Hey" and zeros (S9). -/
def hey : Buffer := bufferOf [0x48, 0x65, 0x79]

/-- A block whose SEND_CMD waits after one poll that answered 0x21. -/
def waits (w : Wait) (replies : List Reply) : State :=
  { bench replies with
    seq := { Seq.cleared with busy := true, curOp := w.op, wait := w, polls := 1, tmp := 0x21 }
    locked := decide (w ≠ .sendCmd) }

/-- The same block with a budget. -/
def waitsWith (k : Nat) (w : Wait) (replies : List Reply) : State :=
  { waits w replies with cfg := { P with pollBudget := some k } }

/-- The next state of an outcome. -/
def after (o : Host.Outcome State Fault Refusal) : Option State :=
  match o with
  | .next s => some s
  | .fault _ => none
  | .refused _ => none

/-- The refusal of an outcome. -/
def refusal (o : Host.Outcome State Fault Refusal) : Option Refusal :=
  match o with
  | .next _ => none
  | .fault _ => none
  | .refused r => some r

/-- The response of a next state. -/
def resp (o : Host.Outcome State Fault Refusal) : Option Response := (after o).bind State.resp

/-- What PARSE returned in a next state. -/
def parsed (o : Host.Outcome State Fault Refusal) : Option Response := (after o).bind State.parsed

/-- The trace of a next state. -/
def traceOf (o : Host.Outcome State Fault Refusal) : Option (List Transaction) := (after o).map State.trace

/-- The answer buffer of a next state. -/
def ansOf (o : Host.Outcome State Fault Refusal) : Option (List Byte) := (after o).map fun s => s.ans.toList

/-- The lines `R aa -> vv` and `W aa vv` of 95_test_vectors.md, and the two that answer Err. -/
def R (a v : Byte) : Transaction := ⟨.wtr [a] 1, .ok [v]⟩
def W (a v : Byte) : Transaction := ⟨.w [a, v], .ok []⟩
def RErr (a : Byte) : Transaction := ⟨.wtr [a] 1, .err⟩
def WErr (a v : Byte) : Transaction := ⟨.w [a, v], .err⟩

/-- Oks with these bytes. -/
def oks (bytes : List Byte) : List Reply := bytes.map Reply.ok

/-! ### Well-formedness: one ill-formed term for each check -/

/-- a is 0 to 0x3F (R56) -/
theorem test_illFormed_addrEnc : Instr.wellFormed (.addrEnc true 0x40) = false := by decide

/-- code is one of the ten (R83) -/
theorem test_illFormed_statEnc : Instr.wellFormed (.statEnc 5 true true) = false := by decide

/-- n is 0 to 25 (R56) -/
theorem test_illFormed_regRd : Instr.wellFormed (.regRd .version 26) = false := by decide

/-- n is 0 to 25 (R56) -/
theorem test_illFormed_fifoWr : Instr.wellFormed (.fifoWr 26 Buffer.zero) = false := by decide

/-- code is one of the ten (R83) -/
theorem test_illFormed_sendCmd : Instr.wellFormed (.sendCmd 13) = false := by decide

/-- declared_len is 0 to 25 (R113) -/
theorem test_illFormed_memWrite : Instr.wellFormed (.memWrite 26 Buffer.zero) = false := by decide

/-- no ':' in a token (R141) -/
theorem test_illFormed_parseLength :
    Instr.wellFormed (.parseMemRead (.complex [0x31, 0x3A] none)) = false := by decide

/-- no ':' in a token (R141) -/
theorem test_illFormed_parseData :
    Instr.wellFormed (.parseMemWrite (.complex [0x31] (some [0x3A]))) = false := by decide

/-- the line is UTF-8 (R130) -/
theorem test_illFormed_parseUtf8 : Instr.wellFormed (.parseGetVersion (.complex [0xFF] none)) = false := by decide

/-- the line is UTF-8 (R130) -/
theorem test_illFormed_parseName : Instr.wellFormed (.parseGenRandId (.complex [0xC3] (some []))) = false := by decide

/-- 0x91 and 0x92 are the other rows (R54) -/
theorem test_illFormed_vUnknown : Instr.wellFormed (.vUnknown 0x91) = false := by decide

/-! ### Words written out from the spec's encodings -/

/-- R56, R57, R64; the positions are log 6 -/
theorem test_decode_addrEnc :
    decode P .request ([0xC0, 0x1B, 0x00, 0x00, 0x00, 0x00] ++ List.replicate 25 0) = .instr (.addrEnc true 0x37) := by decide

theorem test_decode_statEnc :
    decode P .request ([0x01, 0x80, 0x07, 0x00, 0x00, 0x00] ++ List.replicate 25 0) = .instr (.statEnc 12 true true) := by decide

theorem test_decode_statDec :
    decode P .request ([0x02, 0x00, 0x08, 0x07, 0x00, 0x00] ++ List.replicate 25 0) = .instr (.statDec 0xE1) := by decide

theorem test_decode_regRd :
    decode P .request ([0x23, 0x00, 0x00, 0x00, 0x18, 0x00] ++ List.replicate 25 0) = .instr (.regRd .fifoLevel 3) := by decide

theorem test_decode_regWr :
    decode P .request ([0x14, 0x00, 0x00, 0x58, 0x05, 0x00] ++ List.replicate 25 0) = .instr (.regWr .fifoData 0xAB) := by decide

theorem test_decode_fifoLvl :
    decode P .request ([0x05, 0x00, 0x00, 0x00, 0x00, 0x00] ++ List.replicate 25 0) = .instr (.fifoLvl) := by decide

theorem test_decode_fifoFlush :
    decode P .request ([0x06, 0x00, 0x00, 0x00, 0x00, 0x00] ++ List.replicate 25 0) = .instr (.fifoFlush) := by decide

theorem test_decode_fifoRd :
    decode P .request ([0x07, 0x00, 0x00, 0x00, 0x00, 0x00] ++ List.replicate 25 0) = .instr (.fifoRd) := by decide

theorem test_decode_fifoWr :
    decode P .request ([0x08, 0x00, 0x00, 0x00, 0x18, 0x00] ++ [0x48, 0x65, 0x79] ++ List.replicate 22 0) = .instr (.fifoWr 3 hey) := by decide

theorem test_decode_sendCmd :
    decode P .request ([0x09, 0x40, 0x00, 0x00, 0x00, 0x00] ++ List.replicate 25 0) = .instr (.sendCmd 2) := by decide

theorem test_decode_memWrite :
    decode P .request ([0x0A, 0x00, 0x00, 0x00, 0x00, 0x03] ++ [0x48, 0x65, 0x79] ++ List.replicate 22 0) = .instr (.memWrite 3 hey) := by decide

theorem test_decode_memRead :
    decode P .request ([0x0B, 0x00, 0x00, 0x00, 0x00, 0x00] ++ List.replicate 25 0) = .instr (.memRead) := by decide

theorem test_decode_getVersion :
    decode P .request ([0x0C, 0x00, 0x00, 0x00, 0x00, 0x00] ++ List.replicate 25 0) = .instr (.getVersion) := by decide

theorem test_decode_genRandId :
    decode P .request ([0x0D, 0x00, 0x00, 0x00, 0x00, 0x00] ++ List.replicate 25 0) = .instr (.genRandId) := by decide

theorem test_decode_verCls :
    decode P .request ([0x0E, 0x00, 0xA8, 0x02, 0x00, 0x00] ++ List.replicate 25 0) = .instr (.verCls 0x55) := by decide

theorem test_decode_reservedOp :
    decode P .request ([0x0F, 0x00, 0x00, 0x00, 0x00, 0x00] ++ List.replicate 25 0) = .instr (.reservedOp) := by decide

/-- R131, R132: "mem_read" -/
theorem test_decode_parseMemRead :
    decode P .text [0x6D, 0x65, 0x6D, 0x5F, 0x72, 0x65, 0x61, 0x64] = .instr (.parseMemRead .simple) := by decide

/-- R131, R132: "mem_write:3:Hey" -/
theorem test_decode_parseMemWrite :
    decode P .text [0x6D, 0x65, 0x6D, 0x5F, 0x77, 0x72, 0x69, 0x74, 0x65, 0x3A, 0x33, 0x3A, 0x48, 0x65, 0x79] = .instr (.parseMemWrite (.complex [0x33] (some [0x48, 0x65, 0x79]))) := by decide

/-- R131, R132: "get_version" -/
theorem test_decode_parseGetVersion :
    decode P .text [0x67, 0x65, 0x74, 0x5F, 0x76, 0x65, 0x72, 0x73, 0x69, 0x6F, 0x6E] = .instr (.parseGetVersion .simple) := by decide

/-- R131, R132: "gen_rand_id:" -/
theorem test_decode_parseGenRandId :
    decode P .text [0x67, 0x65, 0x6E, 0x5F, 0x72, 0x61, 0x6E, 0x64, 0x5F, 0x69, 0x64, 0x3A] = .instr (.parseGenRandId (.complex [] none)) := by decide

/-- R74 under the default parameters -/
theorem test_decode_aCommandRead : decode P .address [0x82] = .instr .aCommandRead := by decide

theorem test_decode_aCommandWrite : decode P .address [0x02] = .instr .aCommandWrite := by decide

theorem test_decode_aFifoDataRead : decode P .address [0x92] = .instr .aFifoDataRead := by decide

theorem test_decode_aFifoDataWrite : decode P .address [0x12] = .instr .aFifoDataWrite := by decide

theorem test_decode_aFifoLevelRead : decode P .address [0x94] = .instr .aFifoLevelRead := by decide

theorem test_decode_aFifoLevelWrite : decode P .address [0x14] = .instr .aFifoLevelWrite := by decide

theorem test_decode_aVersionRead : decode P .address [0xEE] = .instr .aVersionRead := by decide

theorem test_decode_aVersionWrite : decode P .address [0x6E] = .instr .aVersionWrite := by decide

/-- R26: address 0 names no register -/
theorem test_decode_unnamedAddress : decode P .address [0x00] = .rejected .unnamedAddress := by decide

/-- R51: bit 0 is 0 -/
theorem test_decode_oddAddress : decode P .address [0x83] = .rejected .oddAddressByte := by decide

/-- R52, R77: bits 7 to 6, rcv 5, pwr 4, cmd 3 to 0 -/
theorem test_decode_sIdle : decode P .status [0x90] = .instr (.sIdle 2 false true) := by decide

theorem test_decode_sMem : decode P .status [0x61] = .instr (.sMem 1 true false) := by decide

theorem test_decode_sGenerateRandomId :
    decode P .status [0x92] = .instr (.sGenerateRandomId 2 false true) := by decide

theorem test_decode_sCalcCrc : decode P .status [0x63] = .instr (.sCalcCrc 1 true false) := by decide

theorem test_decode_sTransmit : decode P .status [0x94] = .instr (.sTransmit 2 false true) := by decide

theorem test_decode_sUnknown5 : decode P .status [0x65] = .instr (.sUnknown5 1 true false) := by decide

theorem test_decode_sUnknown6 : decode P .status [0x96] = .instr (.sUnknown6 2 false true) := by decide

theorem test_decode_sNoCmdChange : decode P .status [0x67] = .instr (.sNoCmdChange 1 true false) := by decide

theorem test_decode_sReceive : decode P .status [0x98] = .instr (.sReceive 2 false true) := by decide

theorem test_decode_sUnknown9 : decode P .status [0x69] = .instr (.sUnknown9 1 true false) := by decide

theorem test_decode_sUnknown10 : decode P .status [0x9A] = .instr (.sUnknown10 2 false true) := by decide

theorem test_decode_sUnknown11 : decode P .status [0x6B] = .instr (.sUnknown11 1 true false) := by decide

theorem test_decode_sTransceive : decode P .status [0x9C] = .instr (.sTransceive 2 false true) := by decide

theorem test_decode_sUnknown13 : decode P .status [0x6D] = .instr (.sUnknown13 1 true false) := by decide

theorem test_decode_sMfAuthent : decode P .status [0x9E] = .instr (.sMfAuthent 2 false true) := by decide

theorem test_decode_sSoftReset : decode P .status [0x6F] = .instr (.sSoftReset 1 true false) := by decide

/-- R53 -/
theorem test_decode_lFlush : decode P .levelWritten [0x80] = .instr .lFlush := by decide

/-- R59 -/
theorem test_decode_notFlush : decode P .levelWritten [0x81] = .rejected .notFlushWord := by decide

/-- R53, R97 -/
theorem test_decode_lLevel : decode P .levelRead [0x85] = .instr (.lLevel true 5) := by decide

/-- R54 -/
theorem test_decode_vVersion1 : decode P .version [0x91] = .instr .vVersion1 := by decide

/-- R54 -/
theorem test_decode_vVersion2 : decode P .version [0x92] = .instr .vVersion2 := by decide

/-- R54 -/
theorem test_decode_vUnknown : decode P .version [0x55] = .instr (.vUnknown 0x55) := by decide

/-- R55 -/
theorem test_decode_readFrame : decode P .frame [0xEE] = .instr (.readFrame .version) := by decide

/-- R55 -/
theorem test_decode_writeFrame : decode P .frame [0x14, 0x80] = .instr (.writeFrame .fifoLevel 0x80) := by decide

/-- R55: a read header with a data byte -/
theorem test_decode_malformed : decode P .frame [0x94, 0x80] = .rejected .malformedFrame := by decide

/-- R130 -/
theorem test_decode_notUtf8 : decode P .text [0xFF] = .rejected .notUtf8 := by decide

/-- log 7 -/
theorem test_tableWord :
    decodeTableWord 8 0x07 = some .fifoRd ∧ decodeTableWord 8 0x80 = some .lFlush ∧ decodeTableWord 8 0x92 = some .vVersion2 := by decide

/-- R154, R177: right after reset no device is bound -/
theorem test_firstWord : resp (step (State.reset.withFetchWord 8 0x0C)) = some (.failed .deviceNotBound) := by decide

/-! ### Steps with the results of 95_test_vectors.md -/

/-- 2.1 -/
theorem test_addrEnc : resp (exec (.addrEnc true 0x37) State.reset) = some (.ok (.byte 0xEE) none) := by decide

/-- 2.1: masked, not refused -/
theorem test_addrEnc_masked : resp (exec (.addrEnc true 0x40) State.reset) = some (.ok (.byte 0x80) none) := by decide

/-- 2.2 -/
theorem test_statEnc : resp (exec (.statEnc 12 true true) State.reset) = some (.ok (.byte 0x3C) none) := by decide

/-- 2.2 -/
theorem test_statEnc_reserved :
    resp (exec (.statEnc 13 true true) State.reset) = some (.failed (.reservedCommandCode 13)) := by decide

/-- 2.3 -/
theorem test_statDec :
    resp (exec (.statDec 0xE1) State.reset) = some (.ok (.decoded true false (.known .mem)) none) := by decide

/-- 2.3 -/
theorem test_statDec_unknown :
    resp (exec (.statDec 0x2D) State.reset) = some (.ok (.decoded true false (.unknown 13)) none) := by decide

/-- 2.4 A2 -/
theorem test_A2 :
    traceOf (exec (.regRd .version 3) (bench (oks [0x92, 0x92, 0x92]))) = some [R 0xEE 0x92, R 0xEE 0x92, R 0xEE 0x92] := by decide

/-- 2.4 A6 -/
theorem test_A6 :
    let o := exec (.regRd .fifoData 5) (against { peer with fifo := [1, 2, 3, 4, 5], failAt := some 2 })
    traceOf o = some [R 0x92 1, R 0x92 2, RErr 0x92] ∧ resp o = some (.failed (.busError (some 2)))
      ∧ (ansOf o).map (List.take 2) = some [1, 2] := by decide

/-- 2.4 A7 -/
theorem test_A7 :
    let o := exec (.regRd .fifoData 26) (bench [])
    traceOf o = some [] ∧ resp o = some (.failed (.lengthOutOfRange 26)) := by decide

/-- 2.4 A9 -/
theorem test_A9 : traceOf (exec (.regWr .command 0x21) (against peer)) = some [W 0x02 0x21] := by decide

/-- 2.4 A13: the other polarity -/
theorem test_A13 :
    let s := { bench (oks [0x91, 0]) with cfg := { P with modeRead := false } }
    traceOf (exec (.regRd .version 1) s) = some [R 0x6E 0x91] ∧ traceOf (exec (.regWr .fifoLevel 0x80) s) = some [W 0x94 0x80] := by decide

/-- R34, R86 -/
theorem test_readFrame :
    let o := exec (.readFrame .version) (bench (oks [0x91]))
    traceOf o = some [R 0xEE 0x91] ∧ resp o = some (.ok (.byte 0x91) none) := by decide

/-- R35, A10 -/
theorem test_writeFrame :
    let o := exec (.writeFrame .version 0) (bench (oks [0]))
    traceOf o = some [W 0x6E 0] ∧ resp o = some (.ok .none none) := by decide

/-- 2.5 F1 -/
theorem test_F1 :
    let o := exec .fifoLvl (bench (oks [0x85]))
    traceOf o = some [R 0x94 0x85] ∧ resp o = some (.ok (.byte 5) (some 5)) := by decide

/-- 2.5 F2c -/
theorem test_F2c : resp (exec .fifoLvl (bench (oks [0xFF]))) = some (.ok (.byte 127) (some 127)) := by decide

/-- 2.5 F3, S10 -/
theorem test_F3 :
    let o := exec .fifoRd (against { peer with fifo := [0x48, 0x65, 0x79, 0, 0], hi := true })
    traceOf o = some [R 0x94 0x85, R 0x92 0x48, R 0x92 0x65, R 0x92 0x79, R 0x92 0, R 0x92 0]
      ∧ resp o = some (.ok .none (some 5)) := by decide

/-- 2.5 F6 -/
theorem test_F6 :
    let o := exec .fifoRd (bench (oks [0x1A]))
    traceOf o = some [R 0x94 0x1A] ∧ resp o = some (.failed (.fifoLevelExceedsBuffer 26)) := by decide

/-- 2.5 F11, F12 -/
theorem test_F12 :
    let o := exec .fifoFlush (bench [.err])
    traceOf o = some [WErr 0x14 0x80] ∧ resp o = some (.failed (.busError none)) := by decide

/-- 2.5 F13 -/
theorem test_F13 :
    traceOf (exec (.fifoWr 3 hey) (against peer)) = some [W 0x12 0x48, W 0x12 0x65, W 0x12 0x79] := by decide

/-- 2.5 F16 -/
theorem test_F16 :
    let o := exec (.fifoWr 4 (bufferOf [1, 2, 3, 4])) (bench [.ok 0, .err])
    traceOf o = some [W 0x12 1, WErr 0x12 2] ∧ resp o = some (.failed (.busError (some 1))) := by decide

/-- R98 -/
theorem test_lFlush : traceOf (exec .lFlush (bench (oks [0]))) = some [W 0x14 0x80] := by decide

/-- R96, R97 -/
theorem test_lLevel : resp (exec (.lLevel true 5) State.reset) = some (.ok (.byte 5) (some 5)) := by decide

/-- 2.6 E1 -/
theorem test_E1 :
    let o := exec (.sendCmd 1) (against peer)
    traceOf o = some [W 0x02 0x21, R 0x82 0x20] ∧ resp o = some (.ok .none none) := by decide

/-- 2.6 E8 -/
theorem test_E8 :
    let s := { against { peer with delay0 := 5 } with cfg := { P with pollBudget := some 3 } }
    let t := (after (exec (.sendCmd 1) s)).bind (stepsTo 3)
    t.map State.trace = some [W 0x02 0x21, R 0x82 0x21, R 0x82 0x21, R 0x82 0x21] ∧ t.bind State.resp = some (.failed .chipTimeout) := by decide

/-- 2.6 E9 -/
theorem test_E9 :
    let s := { against { peer with delay0 := 2 } with cfg := { P with pollBudget := some 3 } }
    let t := (after (exec (.sendCmd 1) s)).bind (stepsTo 2)
    t.map State.trace = some [W 0x02 0x21, R 0x82 0x21, R 0x82 0x21, R 0x82 0x20] ∧ t.bind State.resp = some (.ok .none none) := by decide

/-- 2.6: polls answering 25, C5, E0 end after three polls -/
theorem test_oraclePolls :
    ((after (exec (.sendCmd 1) (bench (oks [0, 0x25, 0xC5, 0xE0])))).bind (stepsTo 2)).bind State.resp = some (.ok .none none) := by decide

/-- 2.7 C1b -/
theorem test_C1b :
    let o := exec .getVersion (bench (oks [0x92]))
    traceOf o = some [R 0xEE 0x92] ∧ resp o = some (.ok (.version .version2) none) := by decide

/-- 2.7 C1c -/
theorem test_C1c :
    resp (exec .getVersion (bench (oks [0x55]))) = some (.failed (.unrecognizedDevice 0x55)) := by decide

/-- 2.7 C2, S9 -/
theorem test_C2 :
    let o := exec (.memWrite 3 hey) (against peer)
    traceOf o = some (hey.toList.map (W 0x12) ++ [W 0x02 0x21, R 0x82 0x20])
      ∧ resp o = some (.ok (.command (.bytesWritten 25)) (some 25)) := by decide

set_option maxRecDepth 8000 in
/-- 2.7 C5 -/
theorem test_C5 :
    let o := exec .memRead (against { peer with memory := hey, fifo := [7, 7] })
    traceOf o = some ([W 0x14 0x80, W 0x02 0x21, R 0x82 0x20, R 0x94 0x19] ++ hey.toList.map (R 0x92))
      ∧ ansOf o = some hey.toList ∧ resp o = some (.ok (.command (.bytesRead 25)) (some 25)) := by decide

set_option maxRecDepth 8000 in
/-- 2.7 C7 -/
theorem test_C7 :
    let o := exec .genRandId (against peer)
    (after o).map State.sink = some peer.generated.toList ∧ (traceOf o).map List.length = some 58
      ∧ resp o = some (.ok (.command .noAnswer) none) := by decide

/-- 2.7 -/
theorem test_verCls : resp (exec (.verCls 0x93) State.reset) = some (.ok (.version (.unknown 0x93)) none) := by decide

/-- R59 -/
theorem test_reservedOp : refusal (exec .reservedOp State.reset) = some .reservedOp := by decide

/-- 2.8 T4: "mem_write" -/
theorem test_T4 :
    parsed (runBytes .text [0x6D, 0x65, 0x6D, 0x5F, 0x77, 0x72, 0x69, 0x74, 0x65] State.reset) = some (.failed (.parse .invalidArgNumber)) := by decide

/-- 2.8 T7: "mem_write:3:Hey" -/
theorem test_T7 :
    parsed (runBytes .text [0x6D, 0x65, 0x6D, 0x5F, 0x77, 0x72, 0x69, 0x74, 0x65, 0x3A, 0x33, 0x3A, 0x48, 0x65, 0x79] State.reset) = some (.ok (.operation (.memWrite 3 hey)) none) := by decide

/-- 2.8 T8: "mem_write:-15:x" -/
theorem test_T8 :
    parsed (runBytes .text [0x6D, 0x65, 0x6D, 0x5F, 0x77, 0x72, 0x69, 0x74, 0x65, 0x3A, 0x2D, 0x31, 0x35, 0x3A, 0x78] State.reset) = some (.failed (.parse .invalidDataLen)) := by decide

/-- 2.8 T16: "mem_write:256:x" -/
theorem test_T16 :
    parsed (runBytes .text [0x6D, 0x65, 0x6D, 0x5F, 0x77, 0x72, 0x69, 0x74, 0x65, 0x3A, 0x32, 0x35, 0x36, 0x3A, 0x78] State.reset) = some (.failed (.parse .invalidDataLen)) := by decide

/-- 2.8 T17: "mem_write:003:Hey" -/
theorem test_T17 :
    parsed (runBytes .text [0x6D, 0x65, 0x6D, 0x5F, 0x77, 0x72, 0x69, 0x74, 0x65, 0x3A, 0x30, 0x30, 0x33, 0x3A, 0x48, 0x65, 0x79] State.reset) = some (.ok (.operation (.memWrite 3 hey)) none) := by decide

/-- 2.8 T20: "mem_write::Hey" -/
theorem test_T20 :
    parsed (runBytes .text [0x6D, 0x65, 0x6D, 0x5F, 0x77, 0x72, 0x69, 0x74, 0x65, 0x3A, 0x3A, 0x48, 0x65, 0x79] State.reset) = some (.failed (.parse .invalidArgNumber)) := by decide

/-- 2.8 T25: "bogus:abc" -/
theorem test_T25 :
    parsed (runBytes .text [0x62, 0x6F, 0x67, 0x75, 0x73, 0x3A, 0x61, 0x62, 0x63] State.reset) = some (.failed (.parse .unknownCommand)) := by decide

/-- 2.8 T23: ":3:x" -/
theorem test_T23 :
    parsed (runBytes .text [0x3A, 0x33, 0x3A, 0x78] State.reset) = some (.failed (.parse .emptyInput)) := by decide

/-- 2.8 T28: "get_version:3:x" -/
theorem test_T28 :
    parsed (runBytes .text [0x67, 0x65, 0x74, 0x5F, 0x76, 0x65, 0x72, 0x73, 0x69, 0x6F, 0x6E, 0x3A, 0x33, 0x3A, 0x78] State.reset) = some (.failed (.parse .invalidArgNumber)) := by decide

/-- 2.8 T26: "get_version:abc" -/
theorem test_T26 :
    parsed (runBytes .text [0x67, 0x65, 0x74, 0x5F, 0x76, 0x65, 0x72, 0x73, 0x69, 0x6F, 0x6E, 0x3A, 0x61, 0x62, 0x63] State.reset) = some (.failed (.parse .invalidDataLen)) := by decide

/-- 2.8 T29 for another command: "gen_rand_id:" -/
theorem test_T29 :
    parsed (runBytes .text [0x67, 0x65, 0x6E, 0x5F, 0x72, 0x61, 0x6E, 0x64, 0x5F, 0x69, 0x64, 0x3A] State.reset) = some (.failed (.parse .invalidArgNumber)) := by decide

/-- 2.8 T3: "gen_rand_id" -/
theorem test_T3 :
    parsed (runBytes .text [0x67, 0x65, 0x6E, 0x5F, 0x72, 0x61, 0x6E, 0x64, 0x5F, 0x69, 0x64] State.reset) = some (.ok (.operation .genRandId) none) := by decide

/-- 2.8 T30: "mem_read:1:a" -/
theorem test_T30 :
    parsed (runBytes .text [0x6D, 0x65, 0x6D, 0x5F, 0x72, 0x65, 0x61, 0x64, 0x3A, 0x31, 0x3A, 0x61] State.reset) = some (.failed (.parse .invalidArgNumber)) := by decide

/-- 2.8 T41: "mem_write:26" -/
theorem test_T41 :
    parsed (runBytes .text [0x6D, 0x65, 0x6D, 0x5F, 0x77, 0x72, 0x69, 0x74, 0x65, 0x3A, 0x32, 0x36] State.reset) = some (.failed (.parse .dataLenTooBig)) := by decide

/-- 2.8 T34 -/
theorem test_T34 :
    parsed (runBytes .text [0x6D, 0x65, 0x6D, 0x5F, 0x77, 0x72, 0x69, 0x74, 0x65, 0x3A, 0x32, 0x3A, 0x68, 0xC3, 0xA9] State.reset)
      = some (.ok (.operation (.memWrite 2 (bufferOf [0x68, 0xC3, 0xA9]))) none) := by decide

/-- 2.8 T37 -/
theorem test_T37 :
    refusal (runBytes .text [0x6D, 0x65, 0x6D, 0x5F, 0x77, 0x72, 0x69, 0x74, 0x65, 0x3A, 0x33, 0x3A, 0x61, 0x3A, 0x62] State.reset) = some .extraFields := by decide

/-- 2.8 T38 -/
theorem test_T38 :
    refusal (runBytes .text [0x6D, 0x65, 0x6D, 0x5F, 0x77, 0x72, 0x69, 0x74, 0x65, 0x3A, 0x2B, 0x33, 0x3A, 0x48, 0x65, 0x79] State.reset) = some .plusSign := by decide

/-- R130, R139, R168 -/
theorem test_lineWhileWaiting :
    let o := serve 1 (.line [0x6D, 0x65, 0x6D, 0x5F, 0x72, 0x65, 0x61, 0x64]) (waits .memRead [])
    (after o).map State.held = some [⟨1, .operation .memRead⟩] ∧ (after o).map State.seq = some (waits .memRead []).seq := by decide

/-- R74 under the default parameters -/
theorem test_aRows :
    resp (exec .aCommandRead (bench [])) = some (.ok (.byte 0x82) none)
    ∧ resp (exec .aVersionWrite (bench [])) = some (.ok (.byte 0x6E) none) := by decide

/-- 2.3: the byte 0x6C -/
theorem test_sRow :
    resp (exec (.sTransceive 1 true false) State.reset) = some (.ok (.status 0x2C true false (.known .transceive)) none) := by decide

/-- 2.3: the byte 0x2D -/
theorem test_sRow_reserved :
    resp (exec (.sUnknown13 0 true false) State.reset) = some (.ok (.decoded true false (.unknown 13)) none) := by decide

/-- 2.7 -/
theorem test_vRows :
    resp (exec .vVersion1 State.reset) = some (.ok (.version .version1) none)
    ∧ resp (exec (.vUnknown 0x90) State.reset) = some (.ok (.version (.unknown 0x90)) none) := by decide

/-! ### Witnesses: states and operands that meet the hypotheses of each statement, clause by clause -/

/-- R24: PARSE's value is gone with the next input and the next poll -/
theorem test_parsedDropped :
    let s := { bench [] with held := [⟨1, .request .text [0x6D, 0x65, 0x6D, 0x5F, 0x72, 0x65, 0x61, 0x64]⟩, ⟨1, .writeAns Buffer.zero⟩] }
    (stepsTo 1 s).map State.parsed = some (some (.ok (.operation .memRead) none)) ∧ (stepsTo 2 s).map State.parsed = some none
    ∧ (stepsTo 1 s).bind (fun t => parsed (resume { waits .sendCmd (oks [0x21]) with parsed := t.parsed })) = none := by decide

/-! ### Two requesters -/

/-- R168, R11, R64: source 1's FIFO_RD fills its own answer buffer and leaves source 0's alone -/
theorem test_requesters_ownAnswer :
    let s := { bench (oks [2, 0xAA, 0xBB]) with
        ans := hey, resp := some (.failed .chipTimeout), held := [⟨1, .request .request ([0x07] ++ List.replicate 30 0)⟩] }
    (after (step s)).map (fun t => (t.ansOf 0, (t.ansOf 1).toList.take 3, t.owner, t.resp))
      = some (hey, [0xAA, 0xBB, 0], 1, some (.ok .none (some 2))) := by decide

/-- R168, R11: source 0's answer buffer is kept while source 4 is served -/
theorem test_requesters_keptWhileAway :
    let s := { bench [] with ans := hey, held := [⟨4, .writeAns Buffer.zero⟩, ⟨4, .unbind⟩] }
    (stepsTo 2 s).map (fun t => (t.owner, t.ansOf 0, t.ansOf 4, t.answers)) = some (4, hey, Buffer.zero, [(0, hey)]) := by decide

/-- R24: a version given to source 0 is gone when another source is served, and when source 0 asks again -/
theorem test_requesters_responseDropped :
    let s := { bench [] with resp := some (.ok (.version .version1) none) }
    (stepsTo 1 { s with held := [⟨4, .unbind⟩] }).map State.resp = some none
    ∧ (stepsTo 1 { s with held := [⟨0, .request .version [0x55]⟩] }).map State.resp = some (some (.ok (.version (.unknown 0x55)) none)) := by decide

theorem witness_AddressByteBits : (0x3F : Nat) ≤ 0x3F := by decide

theorem witness_AddressByteInverse :
    ((0x3F : Nat) ≤ 0x3F ∧ addrByte true 0x3F = addrByte true 0x3F) ∧ BitVec.getLsbD (0xFE : Byte) 0 = false ∧ P.wf := by decide

theorem witness_EncodeAfterDecode :
    cmdField 0xE1 = .known .mem ∧ cmdField 0x85 = .unknown 5 ∧ (0xE1 : Byte) &&& 0x3F ≠ 0xE1 := by decide

theorem witness_VersionRowsComplete : (0x93 : Byte) ≠ 0x91 ∧ (0x93 : Byte) ≠ 0x92 := by decide

theorem witness_FifoLvlCompletes :
    let s := bench (oks [0xFF])
    s.bound = true ∧ s.replies [readCall s.cfg .fifoLevel] = [.ok 0xFF] := by decide

theorem witness_ReadsComplete :
    let bytes := (List.range 25).map (BitVec.ofNat 8)
    let s := bench (oks bytes)
    s.bound = true ∧ (25 : BitVec 5).toNat ≤ 25 ∧ bytes.length = (25 : BitVec 5).toNat
      ∧ s.replies (List.replicate (25 : BitVec 5).toNat (readCall s.cfg .fifoData)) = bytes.map Reply.ok := by decide

theorem witness_ReadsComplete_frame :
    let s := bench (oks [0x91])
    s.bound = true ∧ s.replies [readCall s.cfg .version] = [.ok 0x91] := by decide

theorem witness_ReadsFail :
    let bytes : List Byte := [1, 2, 3]
    let s := bench (oks bytes ++ [.err])
    s.bound = true ∧ (4 : BitVec 5).toNat ≤ 25 ∧ bytes.length < (4 : BitVec 5).toNat
      ∧ s.replies (List.replicate (bytes.length + 1) (readCall s.cfg .fifoData)) = bytes.map Reply.ok ++ [.err] := by decide

theorem witness_ReadsFail_frame :
    let s := bench [.err]
    s.bound = true ∧ s.replies [readCall s.cfg .version] = [.err] := by decide

theorem witness_WritesComplete :
    let s := bench (oks [0])
    s.bound = true ∧ s.replies [writeCall s.cfg .fifoLevel 0x80] = [.ok 0] := by decide

theorem witness_WritesComplete_err :
    let s := bench [.err]
    s.bound = true ∧ s.replies [writeCall s.cfg .fifoLevel 0x80] = [.err] := by decide

theorem witness_RegisterTraceLaw :
    resp (exec (.regRd .version 2) (bench (oks [0x91, 0x92]))) = some (.ok .none none)
    ∧ resp (exec (.regRd .version 2) (bench [.ok 0x91, .err])) = some (.failed (.busError (some 1)))
    ∧ resp (exec (.regRd .version 2) State.reset) = some (.failed .deviceNotBound) := by decide

theorem witness_RegisterTraceLaw_write :
    resp (exec (.regWr .version 2) (bench (oks [0]))) = some (.ok .none none)
    ∧ resp (exec (.regWr .version 2) (bench [.err])) = some (.failed (.busError none))
    ∧ resp (exec (.regWr .version 2) State.reset) = some (.failed .deviceNotBound) := by decide

theorem witness_FifoRdCompletes :
    let bytes := (List.range 25).map (BitVec.ofNat 8)
    let s := bench (oks (0x99 :: bytes))
    s.bound = true ∧ bytes.length = (0x99 : Byte).toNat % 128 ∧ bytes.length ≤ 25
      ∧ s.replies (readCall s.cfg .fifoLevel :: List.replicate bytes.length (readCall s.cfg .fifoData))
        = Reply.ok 0x99 :: bytes.map Reply.ok := by decide

theorem witness_FifoRdCompletes_empty :
    let s := bench (oks [0x80])
    s.bound = true ∧ ([] : List Byte).length = (0x80 : Byte).toNat % 128
      ∧ s.replies [readCall s.cfg .fifoLevel] = [.ok 0x80] := by decide

theorem witness_FifoRdFails :
    let s := bench [.err]
    s.bound = true ∧ s.replies [readCall s.cfg .fifoLevel] = [.err] := by decide

theorem witness_FifoRdFails_over :
    let s := bench (oks [0x1A])
    s.bound = true ∧ s.cfg.levelOver = .fault ∧ 25 < (0x1A : Byte).toNat % 128 ∧ s.replies [readCall s.cfg .fifoLevel] = [.ok 0x1A] := by decide

theorem witness_FifoRdFails_data :
    let bytes : List Byte := [1, 2]
    let s := bench (oks (0x19 :: bytes) ++ [.err])
    s.bound = true ∧ (0x19 : Byte).toNat % 128 ≤ 25 ∧ bytes.length < (0x19 : Byte).toNat % 128
      ∧ s.replies (readCall s.cfg .fifoLevel :: List.replicate (bytes.length + 1) (readCall s.cfg .fifoData))
        = Reply.ok 0x19 :: (bytes.map Reply.ok ++ [.err]) := by decide

theorem witness_FifoWrCompletes :
    let s := bench (oks [0, 0, 0])
    s.bound = true ∧ (3 : BitVec 5).toNat ≤ 25
      ∧ s.replies ((hey.toList.take 3).map (writeCall s.cfg .fifoData)) = oks [0, 0, 0] := by decide

theorem witness_FifoWrCompletes_err :
    let rs : List Byte := [0, 0]
    let s := bench (oks rs ++ [.err])
    s.bound = true ∧ rs.length < (25 : BitVec 5).toNat
      ∧ s.replies ((hey.toList.take (rs.length + 1)).map (writeCall s.cfg .fifoData)) = rs.map Reply.ok ++ [.err] := by decide

theorem witness_FifoTraceLaws :
    resp (exec .fifoLvl (bench (oks [5]))) = some (.ok (.byte 5) (some 5))
    ∧ resp (exec .fifoFlush (bench (oks [0]))) = some (.ok .none none)
    ∧ (bench []).cfg.levelOver = .fault ∧ resp (exec .fifoRd (bench (oks [1, 9]))) = some (.ok .none (some 1))
    ∧ resp (exec (.fifoWr 2 hey) (bench (oks [0, 0]))) = some (.ok .none none) := by decide

theorem witness_SendCmdCompletes :
    let s := bench (oks [0, 0x20])
    s.bound = true ∧ s.cfg.wf ∧ isIdle 0x20 = true ∧ s.replies (sendCalls s.cfg .mem 1) = [.ok 0, .ok 0x20] := by decide

theorem witness_SendCmdWaitsOrFails :
    let s := bench (oks [0, 0x21])
    s.bound = true ∧ s.cfg.wf ∧ isIdle 0x21 = false ∧ s.replies (sendCalls s.cfg .mem 1) = [.ok 0, .ok 0x21] := by decide

theorem witness_SendCmdWaitsOrFails_err :
    (bench [.err]).replies (sendCalls P .mem 0) = [.err]
    ∧ (bench [.ok 0, .err]).replies (sendCalls P .mem 1) = [.ok 0, .err] := by decide

theorem witness_PollTurn :
    let s := waitsWith 1 .memRead []
    Quiet s ∧ s.bound = true ∧ Waiting s .memRead ∧ Wait.memRead ≠ .idle ∧ budgetSpent s.cfg.pollBudget s.seq.polls = true := 
  ⟨⟨rfl, rfl⟩, rfl, ⟨rfl, rfl, rfl, rfl, rfl⟩, by decide, rfl⟩

theorem witness_PollTurn_busy :
    let s := waitsWith 2 .memRead (oks [0x21])
    Quiet s ∧ s.bound = true ∧ Waiting s .memRead ∧ budgetSpent s.cfg.pollBudget s.seq.polls = false ∧ isIdle 0x21 = false
      ∧ s.replies [readCall s.cfg .command] = [.ok 0x21] := 
  ⟨⟨rfl, rfl⟩, rfl, ⟨rfl, rfl, rfl, rfl, rfl⟩, rfl, rfl, rfl⟩

theorem witness_PollTurn_err :
    let s := waits .genFetch [.err]
    Quiet s ∧ s.bound = true ∧ Waiting s .genFetch ∧ budgetSpent s.cfg.pollBudget s.seq.polls = false
      ∧ s.replies [readCall s.cfg .command] = [.err] := 
  ⟨⟨rfl, rfl⟩, rfl, ⟨rfl, rfl, rfl, rfl, rfl⟩, rfl, rfl⟩

theorem witness_PollTurn_idle :
    let s := waits .sendCmd (oks [0xE0])
    Quiet s ∧ s.bound = true ∧ Waiting s .sendCmd ∧ budgetSpent s.cfg.pollBudget s.seq.polls = false ∧ isIdle 0xE0 = true
      ∧ s.replies [readCall s.cfg .command] = [.ok 0xE0] := 
  ⟨⟨rfl, rfl⟩, rfl, ⟨rfl, rfl, rfl, rfl, rfl⟩, rfl, rfl, rfl⟩

theorem witness_SendCmdAfterPolls :
    let s := { bench (oks [0, 0x21, 0x25, 0x20]) with cfg := { P with pollBudget := some 3 } }
    s.bound = true ∧ s.cfg.wf ∧ Quiet s ∧ PollsOk s.cfg [0x21, 0x25] 0x20
      ∧ s.replies (sendCalls s.cfg .mem 3) = sendReplies 0 [0x21, 0x25] 0x20 := 
  ⟨rfl, by decide, ⟨rfl, rfl⟩, ⟨by decide, rfl, by intro k h; cases h; decide⟩, rfl⟩

theorem witness_SendCmdAfterPolls_timeout :
    let s := { bench (oks [0, 0x21, 0x25]) with cfg := { P with pollBudget := some 2 } }
    s.bound = true ∧ s.cfg.wf ∧ Quiet s ∧ s.cfg.pollBudget = some ([0x21, 0x25] : List Byte).length
      ∧ (∀ b ∈ ([0x21, 0x25] : List Byte), isIdle b = false)
      ∧ s.replies (sendCalls s.cfg .mem 2) = Reply.ok 0 :: oks [0x21, 0x25] := 
  ⟨rfl, by decide, ⟨rfl, rfl⟩, rfl, by decide, rfl⟩

theorem witness_MemWriteCompletes :
    let rs := List.replicate 25 (0 : Byte) ++ [0]
    let s := bench (oks (rs ++ [0x20]))
    s.bound = true ∧ s.cfg.wf ∧ isIdle 0x20 = true
      ∧ s.replies (hey.toList.map (writeCall s.cfg .fifoData) ++ sendCalls s.cfg .mem 1) = (rs ++ [0x20]).map Reply.ok := by decide

theorem witness_MemReadCompletes :
    let bytes : List Byte := [0x48, 0x65, 0x79]
    let s := bench (oks ([0, 0, 0x20, 0x83] ++ bytes))
    s.bound = true ∧ s.cfg.wf ∧ isIdle 0x20 = true ∧ bytes.length = (0x83 : Byte).toNat % 128 ∧ bytes.length ≤ 25
      ∧ s.replies (writeCall s.cfg .fifoLevel 0x80 :: sendCalls s.cfg .mem 1
          ++ readCall s.cfg .fifoLevel :: List.replicate bytes.length (readCall s.cfg .fifoData))
        = Reply.ok 0 :: sendReplies 0 [] 0x20 ++ Reply.ok 0x83 :: bytes.map Reply.ok := by decide

theorem witness_GetVersionCompletes :
    (∀ b ∈ ([0x91, 0x92, 0x90] : List Byte), (bench (oks [b])).replies [readCall P .version] = [.ok b])
    ∧ (bench [.err]).replies [readCall P .version] = [.err] ∧ (bench []).bound = true := by decide

theorem witness_GenRandIdCompletes :
    let rs := List.replicate 25 (0 : Byte)
    let bytes : List Byte := [7, 8]
    let s := bench (oks (rs ++ [0] ++ [] ++ [0x20, 0] ++ [] ++ [0x20, 0, 0] ++ [] ++ [0x20, 0x82] ++ bytes))
    s.bound = true ∧ s.cfg.wf ∧ s.cfg.routeRandomId = false ∧ isIdle 0x20 = true ∧ bytes.length = (0x82 : Byte).toNat % 128
      ∧ bytes.length ≤ 25 ∧ rs.length = 25
      ∧ s.replies (List.replicate 25 (writeCall s.cfg .fifoData 0) ++ sendCalls s.cfg .mem 1
        ++ sendCalls s.cfg .generateRandomId 1 ++ writeCall s.cfg .fifoLevel 0x80 :: sendCalls s.cfg .mem 1
        ++ readCall s.cfg .fifoLevel :: List.replicate bytes.length (readCall s.cfg .fifoData))
      = rs.map Reply.ok ++ sendReplies 0 [] 0x20 ++ sendReplies 0 [] 0x20 ++ Reply.ok 0 :: sendReplies 0 [] 0x20
        ++ Reply.ok 0x82 :: bytes.map Reply.ok := by decide

theorem witness_CompoundsAfterPolls :
    let rs := List.replicate 25 (0 : Byte)
    let bytes : List Byte := [7, 8]
    let s := bench (oks (rs ++ [0] ++ [0x21] ++ [0x20, 0] ++ [0x22, 0x22] ++ [0x20, 0, 0] ++ [0x21] ++ [0x20, 0x82] ++ bytes))
    s.bound = true ∧ s.cfg.wf ∧ Quiet s ∧ PollsOk s.cfg [0x21] 0x20 ∧ PollsOk s.cfg [0x22, 0x22] 0x20
      ∧ s.cfg.routeRandomId = false ∧ bytes.length = (0x82 : Byte).toNat % 128 ∧ bytes.length ≤ 25 ∧ rs.length = 25
      ∧ s.replies (List.replicate 25 (writeCall s.cfg .fifoData 0) ++ sendCalls s.cfg .mem 2
        ++ sendCalls s.cfg .generateRandomId 3 ++ writeCall s.cfg .fifoLevel 0x80 :: sendCalls s.cfg .mem 2
        ++ readCall s.cfg .fifoLevel :: List.replicate bytes.length (readCall s.cfg .fifoData))
      = rs.map Reply.ok ++ sendReplies 0 [0x21] 0x20 ++ sendReplies 0 [0x22, 0x22] 0x20 ++ Reply.ok 0 :: sendReplies 0 [0x21] 0x20
        ++ Reply.ok 0x82 :: bytes.map Reply.ok := 
  ⟨rfl, by decide, ⟨rfl, rfl⟩, ⟨by decide, rfl, by intro k h; cases h⟩, ⟨by decide, rfl, by intro k h; cases h⟩, rfl, by decide,
    by decide, by decide, by decide⟩

theorem witness_CompoundsAfterPolls_write :
    let rs := List.replicate 25 (0 : Byte)
    let s := bench (oks (rs ++ [0, 0x21, 0x20]))
    s.replies (hey.toList.map (writeCall s.cfg .fifoData) ++ sendCalls s.cfg .mem 2) = rs.map Reply.ok ++ sendReplies 0 [0x21] 0x20 := by decide

theorem witness_CompoundsAfterPolls_read :
    let bytes : List Byte := [7, 8]
    let s := bench (oks ([0, 0, 0x21, 0x20, 0x82] ++ bytes))
    s.replies (writeCall s.cfg .fifoLevel 0x80 :: sendCalls s.cfg .mem 2
        ++ readCall s.cfg .fifoLevel :: List.replicate bytes.length (readCall s.cfg .fifoData))
      = Reply.ok 0 :: sendReplies 0 [0x21] 0x20 ++ Reply.ok 0x82 :: bytes.map Reply.ok := by decide

theorem witness_CompoundFailures :
    resp (exec (.memWrite 3 hey) State.reset) = some (.failed .deviceNotBound)
    ∧ resp (exec .memRead (bench (oks [0, 0, 0x20, 0x1A]))) = some (.failed (.fifoLevelExceedsBuffer 26))
    ∧ resp (exec .genRandId (bench [.err])) = some (.failed (.busError (some 0)))
    ∧ resp (exec .getVersion (bench (oks [0]))) = some (.failed (.unrecognizedDevice 0)) := by decide

theorem witness_CompoundFailures_waiting :
    let s := waitsWith 1 .memWrite []
    Waiting s .memWrite ∧ Quiet s ∧ resp (step s) = some (.failed .chipTimeout) := 
  ⟨⟨rfl, rfl, rfl, rfl, rfl⟩, ⟨rfl, rfl⟩, by decide⟩

theorem witness_CompoundFailures_over :
    let s := bench (oks [0, 0, 0x21, 0x20, 0x9A])
    s.bound = true ∧ s.cfg.wf ∧ s.cfg.levelOver = .fault ∧ Quiet s ∧ 25 < (0x9A : Byte).toNat % 128 ∧ PollsOk s.cfg [0x21] 0x20
      ∧ s.replies (writeCall s.cfg .fifoLevel 0x80 :: sendCalls s.cfg .mem 2 ++ [readCall s.cfg .fifoLevel])
        = Reply.ok 0 :: sendReplies 0 [0x21] 0x20 ++ [Reply.ok 0x9A] := 
  ⟨rfl, by decide, rfl, ⟨rfl, rfl⟩, by decide, ⟨by decide, rfl, by intro k h; cases h⟩, by decide⟩

theorem witness_CompoundFailures_over_id :
    let rs := List.replicate 25 (0 : Byte)
    let s := bench (oks (rs ++ [0, 0x21, 0x20, 0, 0x20, 0, 0, 0x22, 0x22, 0x20, 0xFF]))
    Quiet s ∧ 25 < (0xFF : Byte).toNat % 128 ∧ PollsOk s.cfg [0x21] 0x20 ∧ PollsOk s.cfg [] 0x20 ∧ PollsOk s.cfg [0x22, 0x22] 0x20
      ∧ rs.length = 25
      ∧ s.replies (List.replicate 25 (writeCall s.cfg .fifoData 0) ++ sendCalls s.cfg .mem 2
        ++ sendCalls s.cfg .generateRandomId 1 ++ writeCall s.cfg .fifoLevel 0x80 :: sendCalls s.cfg .mem 3
        ++ [readCall s.cfg .fifoLevel])
      = rs.map Reply.ok ++ sendReplies 0 [0x21] 0x20 ++ sendReplies 0 [] 0x20 ++ Reply.ok 0 :: sendReplies 0 [0x22, 0x22] 0x20
        ++ [Reply.ok 0xFF] := 
  ⟨⟨rfl, rfl⟩, by decide, ⟨by decide, rfl, by intro k h; cases h⟩, ⟨by decide, rfl, by intro k h; cases h⟩,
    ⟨by decide, rfl, by intro k h; cases h⟩, by decide, by decide⟩

theorem witness_DeviceNotBound :
    usesBus (.regRd .version 25) = true ∧ operandRefusal (.regRd .version 25) = none ∧ State.reset.bound = false
    ∧ usesBus (.statDec 0x21) = false ∧ (after (exec (.statDec 0x21) State.reset)).isSome = true := by decide

theorem witness_OperandRefusals :
    25 < (26 : BitVec 5).toNat ∧ (13 : BitVec 4) ∈ [(5 : BitVec 4), 6, 9, 10, 11, 13] := by decide

theorem witness_StopsAtFirstError :
    (after (exec (.regRd .version 2) (bench [.ok 1, .err]))).isSome = true
    ∧ (let s := waits .memRead [.err]
      Waiting s s.seq.wait ∧ (after (resume s)).isSome = true) := 
  ⟨by decide, ⟨rfl, rfl, rfl, rfl, rfl⟩, by decide⟩

theorem witness_StopsAtFirstError_text :
    isTextRow (.parseMemRead .simple) = true ∧ (after (exec (.parseMemRead .simple) (bench []))).isSome = true := by decide

theorem witness_FrameShapes :
    (after (exec .fifoFlush (bench (oks [0])))).isSome = true ∧ (after (resume (waits .memWrite (oks [0x20])))).isSome = true := by decide

theorem witness_AnswerAndSinkWriters :
    (bench []).cfg.routeRandomId = false ∧ (after (exec .fifoLvl (bench (oks [5])))).isSome = true
    ∧ (after (resume (waits .sendCmd (oks [0x20])))).isSome = true := by decide

theorem witness_OutsideUntouched :
    (after (exec .fifoRd (bench (oks [1, 9])))).isSome = true ∧ (after (resume (waits .genClear [.err]))).isSome = true := by decide

theorem witness_OutsideUntouched_text :
    isTextRow .fifoRd = false ∧ isTextRow (.parseMemWrite .simple) = true
    ∧ (after (exec (.parseMemWrite .simple) (bench []))).isSome = true := by decide

theorem witness_StartsClean : isTextRow .memRead = false ∧ isTextRow (.parseGetVersion .simple) = true := by decide

theorem witness_NothingReadsAnswerOrSink :
    (after (exec .fifoRd (bench (oks [1, 9])))).isSome = true ∧ (after (resume (waits .memRead (oks [0x20, 1, 9])))).isSome = true
    ∧ (after (resume (waits .genFetch (oks [0x20, 1, 9])))).isSome = true := by decide

theorem witness_BoundedWaitEnds :
    let s := waitsWith 3 .genClear []
    s.Inv ∧ Quiet s ∧ s.cfg.pollBudget = some 3 := 
  ⟨⟨by decide, by decide, by intro h; exact absurd h (by decide), fun _ => ⟨⟨rfl, rfl, rfl, rfl, rfl⟩, by decide, rfl⟩, fun _ => by decide,
    fun _ => ⟨by decide, by intro k h; cases h; decide⟩, (by intro t h; cases h),
    ⟨.nil, by intro e h; cases h⟩⟩, ⟨rfl, rfl⟩, rfl⟩

theorem witness_UnboundedWaitStays :
    let s := waits .sendCmd (oks [0x21, 0x25])
    Quiet s ∧ s.bound = true ∧ Waiting s .sendCmd ∧ Wait.sendCmd ≠ .idle ∧ s.cfg.pollBudget = none
      ∧ (∀ b ∈ ([0x21, 0x25] : List Byte), isIdle b = false)
      ∧ s.replies (List.replicate 2 (readCall s.cfg .command)) = oks [0x21, 0x25] := 
  ⟨⟨rfl, rfl⟩, rfl, ⟨rfl, rfl, rfl, rfl, rfl⟩, by decide, rfl, by decide, by decide⟩

theorem witness_SimpleTextForm :
    utf8Valid [0x4D, 0x45, 0x4D, 0x5F, 0x52, 0x45, 0x41, 0x44] = true ∧ colon ∉ ([0x4D, 0x45, 0x4D, 0x5F, 0x52, 0x45, 0x41, 0x44] : List Byte) ∧ ([0x4D, 0x45, 0x4D, 0x5F, 0x52, 0x45, 0x41, 0x44] : List Byte) ≠ []
    ∧ ∀ c : TextCommand, [0x4D, 0x45, 0x4D, 0x5F, 0x52, 0x45, 0x41, 0x44] ≠ c.name := 
  ⟨by decide, by decide, by decide, by intro c; cases c <;> decide⟩

theorem witness_ParseRowsComplete :
    (([0x33, 0x2E, 0x30] : List Byte) ≠ [] ∧ isPlusDigits [0x33, 0x2E, 0x30] = false ∧ unsignedByte [0x33, 0x2E, 0x30] = none)
    ∧ unsignedByte [0x32, 0x36] = some 26 ∧ unsignedByte [0x32, 0x35, 0x35] = some 255 ∧ unsignedByte [0x32, 0x35] = some 25 ∧ unsignedByte [0x30] = some 0 := by decide

theorem witness_LengthTokens :
    (0x2D : Byte) ∈ ([0x2D, 0x31, 0x35] : List Byte) ∧ ((0x2D : Byte).toNat < 0x30 ∨ 0x39 < (0x2D : Byte).toNat) ∧ unsignedByte [0x30, 0x30, 0x33] = some 3 := by decide

theorem witness_MemWriteLine :
    let n : Fin 26 := 25
    n.val = 25 ∧ utf8Valid (hey.toList.take 25) = true ∧ colon ∉ hey.toList.take 25 := by decide

theorem witness_ParseTotal :
    let line : List Byte := [0x6D, 0x65, 0x6D, 0x5F, 0x77, 0x72, 0x69, 0x74, 0x65, 0x3A, 0x33, 0x3A, 0x48, 0x65, 0x79]
    utf8Valid line = true ∧ line.count colon ≤ 2
      ∧ ∀ name lenTok dataTok, lineParts line = some (name, .complex lenTok dataTok) → isPlusDigits lenTok = false := 
  ⟨by decide, by decide, by
    intro name lenTok dataTok h
    have e : lineParts [0x6D, 0x65, 0x6D, 0x5F, 0x77, 0x72, 0x69, 0x74, 0x65, 0x3A, 0x33, 0x3A, 0x48, 0x65, 0x79]
      = some (TextCommand.memWrite.name, .complex [0x33] (some [0x48, 0x65, 0x79])) := by decide
    rw [e] at h; cases h; rfl⟩

theorem witness_TextOutsideDomain :
    utf8Valid [0x80] = false ∧ (utf8Valid [0x3A, 0x3A, 0x3A] = true ∧ 3 ≤ List.count colon [0x3A, 0x3A, 0x3A])
    ∧ (([0x33] : List Byte) ≠ [] ∧ ∀ b ∈ ([0x33] : List Byte), isDigit b = true)
    ∧ utf8Valid [0x48, 0x65, 0x79] = true ∧ colon ∉ ([0x48, 0x65, 0x79] : List Byte) := by decide

theorem witness_TextLineRuns :
    parsed (runBytes .text [0x6D, 0x65, 0x6D, 0x5F, 0x72, 0x65, 0x61, 0x64] State.reset) = some (.ok (.operation .memRead) none)
    ∧ (let s := { bench [] with held := [⟨1, .operation .memRead⟩] }
      s.owned = false ∧ s.held = [⟨1, .operation .memRead⟩]) := by decide

theorem witness_StepRunsDecodedRequest :
    let s := { bench [] with held := [⟨1, .request .status [0x21]⟩] }
    s.owned = false ∧ s.held = [⟨1, .request .status [0x21]⟩] ∧ decode s.cfg .status [0x21] = .instr (.sMem 0 true false) := by decide

theorem witness_StepRunsDecodedRequest_word :
    State.reset.cfg = Config.params ∧ decodeTableWord 248 0x91 = some (.statEnc 0 false false)
    ∧ decodeTableWord 8 0x07 = some .fifoRd := ⟨rfl, by decide, by decide⟩

theorem witness_StepRunsDecodedRequest_text :
    let s := { bench [] with held := [⟨1, .request .text [0x6D, 0x65, 0x6D, 0x5F, 0x72, 0x65, 0x61, 0x64]⟩] }
    s.owned = false ∧ decode s.cfg .text [0x6D, 0x65, 0x6D, 0x5F, 0x72, 0x65, 0x61, 0x64] = .instr (.parseMemRead .simple) := by decide

theorem witness_HeldWhileOwned :
    let s := { waits .memRead (oks [0x21]) with held := [⟨1, .unbind⟩, ⟨0, .line [0x78]⟩] }
    Quiet s ∧ s.owned = true ∧ (after (step s)).isSome = true := ⟨⟨rfl, rfl⟩, rfl, by decide⟩

theorem witness_ServesOneInput :
    let s := { bench [] with held := [⟨1, .unbind⟩, ⟨2, .bind 3⟩] }
    NoReset s ∧ s.owned = false ∧ s.held ≠ [] ∧ State.reset.held = [] := ⟨rfl, rfl, by decide, rfl⟩

theorem witness_ServesOneInput_step :
    let s := { bench [] with held := [⟨1, .unbind⟩] }
    NoReset s ∧ s.owned = false ∧ (after (step s)).map (fun t => (t.owner, t.held)) = some (1, []) ∧ (0 : Nat) ≠ 1 := ⟨rfl, rfl, by decide, by decide⟩

theorem witness_ResetLeaves :
    let s := { waits .memRead [] with held := [⟨1, .unbind⟩, ⟨2, .reset⟩, ⟨2, .bind 3⟩] }
    s.held = [⟨1, .unbind⟩] ++ ⟨2, .reset⟩ :: [⟨2, .bind 3⟩] ∧ ∀ g ∈ ([⟨1, .unbind⟩] : List Held), g.src ≠ 2 ∧ g.ev ≠ .reset := by decide

theorem witness_StepKeepsInv :
    let s := waitsWith 3 .genClear (oks [0x21])
    s.Inv ∧ (after (step s)).isSome = true := 
  ⟨⟨by decide, by decide, by intro h; exact absurd h (by decide), fun _ => ⟨⟨rfl, rfl, rfl, rfl, rfl⟩, by decide, rfl⟩, fun _ => by decide,
    fun _ => ⟨by decide, by intro k h; cases h; decide⟩, (by intro t h; cases h),
    ⟨.nil, by intro e h; cases h⟩⟩, by decide⟩

theorem witness_NoFaultUnderInv :
    (waitsWith 3 .genClear []).Inv := 
  ⟨by decide, by decide, by intro h; exact absurd h (by decide), fun _ => ⟨⟨rfl, rfl, rfl, rfl, rfl⟩, by decide, rfl⟩, fun _ => by decide,
    fun _ => ⟨by decide, by intro k h; cases h; decide⟩, (by intro t h; cases h),
    ⟨.nil, by intro e h; cases h⟩⟩

theorem witness_DecodeEncode :
    P.wf ∧ Instr.wellFormed (.regRd .version 25) = true ∧ Instr.wellFormed (.addrEnc true 0x3F) = true := by decide

theorem witness_EncodeDecode :
    Format.status ≠ .request ∧ decode P .status [0xE1] = .instr (.sMem 3 true false) := by decide

theorem witness_PeerRoundTrip :
    let s := against peer
    s.bound = true ∧ s.cfg.wf ∧ s.oracle = .peer peer ∧ peer.fifo = [] ∧ peer.failAt = none ∧ peer.delay0 = 0 := by decide

theorem witness_LinesNeedNoTurn :
    let s := { waits .memRead [] with held := [⟨0, .line [0x67, 0x65, 0x74, 0x5F, 0x76, 0x65, 0x72, 0x73, 0x69, 0x6F, 0x6E]⟩, ⟨1, .line [0x6D, 0x65, 0x6D, 0x5F, 0x72, 0x65, 0x61, 0x64]⟩, ⟨2, .unbind⟩] }
    NoReset s ∧ s.owned = true ∧ s.readyLines = [⟨1, .line [0x6D, 0x65, 0x6D, 0x5F, 0x72, 0x65, 0x61, 0x64]⟩]
      ∧ (after (serve 1 (.line [0x6D, 0x65, 0x6D, 0x5F, 0x72, 0x65, 0x61, 0x64]) s)).isSome = true := 
  ⟨rfl, rfl, by decide, by decide⟩

end Sys2Proof.Tests
end

/-! The invariant along every step (O54). A state splits into what every piece of an operation keeps (`Base`) and who holds the
sequencer: nobody (`Base.inv_of_cleared`) or an operation that waits (`Base.inv_of_wait`). Each branch of `step` ends in one of the
two, or changes only what the invariant does not speak of. -/

namespace Sys2Proof.Machine

/-! ### The parts of the invariant -/

/-- The part of the invariant that holds also in the middle of an operation: parameters, index (R13), frames (R33, R90), answer
buffers (log 27). -/
structure Base (s : State) : Prop where
  params : s.cfg.wf
  index : IndexOk s
  frames : ∀ t ∈ s.trace, Transaction.legal s.cfg t
  answers : answersWf s.owner s.answers

/-- The operation `op` holds the sequencer, and the lock exactly when it is a compound one (R13, R27, R121); there is no response
yet (log 12). -/
structure Running (op : OpName) (s : State) : Prop where
  busy : s.seq.busy = true
  curOp : s.seq.curOp = some op
  locked : s.locked = op.compound
  resp : s.resp = none

theorem State.Inv.base {s : State} (h : s.Inv) : Base s := ⟨h.params, h.index, h.frames, h.answers⟩

/-- Under the invariant the lock is never held between operations, so owned is busy (R27, R121). -/
theorem State.Inv.owned_eq_busy {s : State} (h : s.Inv) : s.owned = s.seq.busy := by
  cases hb : s.seq.busy with
  | true => simp [State.owned, hb]
  | false =>
    obtain ⟨-, -, hlock⟩ := h.between hb
    simp [State.owned, hb, hlock]

theorem Base.inv_of_cleared {s : State} (h : Base s) (hseq : s.seq = Seq.cleared) (hlat : s.lat = Latches.cleared)
    (hlock : s.locked = false) : s.Inv := by
  have hfree : s.seq.busy ≠ true := by simp [hseq, Seq.cleared]
  exact ⟨h.params, h.index, fun _ => ⟨hseq, hlat, hlock⟩, fun hb => absurd hb hfree, fun hb => absurd hb hfree,
    fun hb => absurd hb hfree, h.frames, h.answers⟩

/-- Every SEND_CMD but the one that is an operation of its own is a step of a compound operation (R112). -/
theorem Wait.compound_iff {w : Wait} {op : OpName} (hop : w.op = some op) : op.compound = true ↔ w ≠ .sendCmd := by
  cases w <;> cases hop <;> decide

theorem Base.inv_of_wait {s : State} {op : OpName} (h : Base s) (hr : Running op s) (hw : WaitsIn op (.wait s : Run Result)) :
    s.Inv := by
  obtain ⟨hwait, hop, hidle, hbound, hpolls, hbudget⟩ := hw
  have hbusy : ¬ s.seq.busy = false := by simp [hr.busy]
  exact ⟨h.params, h.index, fun hb => absurd hb hbusy,
    fun _ => ⟨⟨hr.busy, rfl, hr.curOp.trans hop.symm, hr.resp, hidle⟩, hwait, hbound⟩,
    fun _ => hr.locked ▸ Wait.compound_iff hop, fun _ => ⟨hpolls, hbudget⟩, h.frames, h.answers⟩

/-- An operation that waits holds the sequencer under the name its wait belongs to. -/
theorem State.Inv.running {s : State} (h : s.Inv) (hb : s.seq.busy = true) :
    s.seq.wait ≠ .idle ∧ ∃ op, s.seq.wait.op = some op ∧ Running op s := by
  obtain ⟨⟨-, -, hcur, hresp, -⟩, hwait, -⟩ := h.waiting hb
  obtain ⟨op, hop⟩ : ∃ op, s.seq.wait.op = some op := by
    cases hw : s.seq.wait with
    | idle => exact absurd hw hwait
    | sendCmd | memWrite | memRead | genClear | genGenerate | genFetch => exact ⟨_, rfl⟩
  refine ⟨hwait, op, hop, hb, hcur.trans hop, ?_, hresp⟩
  rw [Bool.eq_iff_iff, h.lock hb, Wait.compound_iff hop]

/-! ### What the pieces of an operation keep -/

theorem Grew.base {s s' : State} {new : List Transaction} (g : Grew s s' new) (h : Base s) : Base s' where
  params := by rw [g.kept.cfg]; exact h.params
  index := g.index h.index
  frames := by
    rw [g.kept.cfg, g.trace]
    exact List.forall_mem_append.mpr ⟨h.frames, g.legal⟩
  answers := by rw [g.kept.owner, g.kept.answers]; exact h.answers

theorem Kept.running {s s' : State} {op : OpName} (k : Kept s s') (h : Running op s) : Running op s' :=
  ⟨k.busy.trans h.busy, k.curOp.trans h.curOp, k.locked.trans h.locked, k.resp.trans h.resp⟩

/-- The index of the cleared sequencer is within its count. -/
theorem cleared_index : Seq.cleared.i ≤ Seq.cleared.n ∧ Seq.cleared.n ≤ 25 := by decide

theorem Base.beginAs {s : State} (h : Base s) (locked : Bool) (op : OpName) (l : Latches) : Base (beginAs locked s op l) := by
  cases locked <;> exact ⟨h.params, cleared_index, h.frames, h.answers⟩

@[simp] theorem beginAs_cfg (locked : Bool) (s : State) (op : OpName) (l : Latches) : (beginAs locked s op l).cfg = s.cfg := by
  cases locked <;> rfl

/-- A block whose lock is free begins an operation (R13, R121). -/
theorem running_beginAs {s : State} (hlock : s.locked = false) (op : OpName) (l : Latches) :
    Running op (beginAs op.compound s op l) := by
  cases hc : op.compound with
  | true => exact ⟨rfl, rfl, hc.symm, rfl⟩
  | false => exact ⟨rfl, rfl, hlock.trans hc.symm, rfl⟩

theorem Base.inv_finish {s : State} (h : Base s) (r : Response) : (s.finish r).Inv :=
  Base.inv_of_cleared ⟨h.params, cleared_index, h.frames, h.answers⟩ rfl rfl rfl

/-! ### Updates the invariant does not speak of -/

theorem State.Inv.parsedHeld {s : State} (h : s.Inv) (r : Option Response) (l : List Held) :
    State.Inv { s with parsed := r, held := l } :=
  ⟨h.params, h.index, h.between, h.waiting, h.lock, h.budget, h.frames, h.answers⟩

theorem State.Inv.dropParsed {s : State} (h : s.Inv) : s.dropParsed.Inv := h.parsedHeld none s.held

theorem State.Inv.parseReturns {s : State} (h : s.Inv) (r : Response) : (s.parseReturns r).Inv := h.parsedHeld (some r) s.held

theorem State.Inv.writeAns {s : State} (h : s.Inv) (v : Buffer) : State.Inv { s with ans := v } :=
  ⟨h.params, h.index, h.between, h.waiting, h.lock, h.budget, h.frames, h.answers⟩

/-- The handle can change between operations: only a wait says that a device is bound (R12, R178). -/
theorem State.Inv.rebind {s : State} (h : s.Inv) (hfree : s.seq.busy = false) (b : Bool) (k : Nat) :
    State.Inv { s with bound := b, transport := k } := by
  obtain ⟨hseq, hlat, hlock⟩ := h.between hfree
  exact Base.inv_of_cleared ⟨h.params, h.index, h.frames, h.answers⟩ hseq hlat hlock

/-- Taking an input keeps the invariant, whosever turn it becomes: a response that goes was none while an operation waits. -/
theorem State.Inv.take {s : State} (h : s.Inv) (e : Held) : (s.take e).Inv where
  params := h.params
  index := h.index
  between := h.between
  waiting := by
    intro hb
    obtain ⟨⟨hbusy, hw, hcur, hresp, hidle⟩, hne, hbound⟩ := h.waiting hb
    exact ⟨⟨hbusy, hw, hcur, by simp [hresp], hidle⟩, hne, hbound⟩
  lock := h.lock
  budget := h.budget
  frames := h.frames
  answers := answersWf_turnTo s (s.turnFor e) h.answers

theorem inv_resetKeeping {s : State} (h : s.cfg.wf) : s.resetKeeping.Inv :=
  Base.inv_of_cleared ⟨h, cleared_index, by simp, .nil, by simp⟩ rfl rfl rfl

/-! ### Outcomes -/

/-- A next state, if there is one, meets the invariant and has these parameters. -/
def KeepsInv (p : Params) (o : Host.Outcome State Fault Refusal) : Prop := ∀ t, o = .next t → t.Inv ∧ t.cfg = p

theorem KeepsInv.next {t : State} (h : t.Inv) : KeepsInv t.cfg (.next t) := by
  rintro _ ⟨⟩
  exact ⟨h, rfl⟩

theorem KeepsInv.refused (p : Params) (r : Refusal) : KeepsInv p (.refused r) := by
  rintro _ ⟨⟩

/-- An operation that runs ends with the invariant, whether it has a result, fails or waits. -/
theorem keepsInv_conclude {s : State} {op : OpName} {run : Run Result} (h : Base s) (hr : Running op s) (hg : Grows s run)
    (hw : WaitsIn op run) : KeepsInv s.cfg (conclude run) := by
  cases run with
  | ok a s' =>
    obtain ⟨new, g, -⟩ := hg
    exact g.kept.cfg ▸ .next ((g.base h).inv_finish _)
  | fail f s' =>
    obtain ⟨new, g, -⟩ := hg
    exact g.kept.cfg ▸ .next ((g.base h).inv_finish _)
  | wait s' =>
    obtain ⟨new, g, -⟩ := hg
    exact g.kept.cfg ▸ .next ((g.base h).inv_of_wait (g.kept.running hr) hw).dropParsed

theorem keepsInv_exec {s : State} (h : s.Inv) (hfree : s.seq.busy = false) (i : Instr) : KeepsInv s.cfg (exec i s) := by
  have hshape := exec_shape i s
  revert hshape
  generalize exec i s = o
  intro hshape
  cases hshape with
  | answers _ r _ => exact .next (h.base.inv_finish r)
  | runs _ op l run hg hw =>
    obtain ⟨-, -, hlock⟩ := h.between hfree
    exact beginAs_cfg op.compound s op l ▸ keepsInv_conclude (h.base.beginAs _ op l) (running_beginAs hlock op l) hg hw
  | parses _ r => exact .next (h.parseReturns r)
  | reserved _ => exact .refused _ _
  | plus _ => exact .refused _ _

theorem keepsInv_rejectBytes {s : State} (h : s.Inv) (e : DecodeError) : KeepsInv s.cfg (rejectBytes e s) := by
  cases e with
  | noCommand p => exact .next (h.parseReturns _)
  | badLength | notUtf8 | extraFields | oddAddressByte | unnamedAddress | notFlushWord | malformedFrame => exact .refused _ _

theorem keepsInv_runBytes {s : State} (h : s.Inv) (hfree : s.seq.busy = false) (f : Format) (bytes : List Byte) :
    KeepsInv s.cfg (runBytes f bytes s) := by
  unfold runBytes
  split
  · exact keepsInv_exec h hfree _
  · exact keepsInv_rejectBytes h _

/-- A line can be served also while an operation waits (R130, R168; log 24). -/
theorem keepsInv_serve_text {s : State} (h : s.Inv) {e : Held} (ht : e.isText = true) : KeepsInv s.cfg (serve e.src e.ev s) := by
  rcases serve_text ht s with ⟨r, more, hs, -⟩ | ⟨x, hs⟩
  · rw [hs]
    exact .next (h.parsedHeld (some r) (more ++ s.held))
  · rw [hs]
    exact .refused _ _

theorem keepsInv_serve {s : State} (h : s.Inv) (hfree : s.seq.busy = false) (src : Nat) (e : Event) :
    KeepsInv s.cfg (serve src e s) := by
  cases e with
  | request f bytes => exact keepsInv_runBytes h hfree f bytes
  | line text => exact keepsInv_serve_text h (e := ⟨src, .line text⟩) rfl
  | operation o => exact keepsInv_exec h hfree o.toInstr
  | writeAns v => exact .next (h.writeAns v)
  | bind k => exact .next (h.rebind hfree true k)
  | unbind => exact .next (h.rebind hfree false s.transport)
  | reset => exact .next (inv_resetKeeping h.params)

theorem ev_of_resetNow {s : State} {e : Held} (he : s.resetNow = some e) : e.ev = .reset := by
  simpa [Held.isReset] using List.find?_some he

/-- One more turn of the poll loop, and what follows its Idle (R110, R112). -/
theorem keepsInv_resume {s : State} (h : s.Inv) (hb : s.seq.busy = true) : KeepsInv s.cfg (resume s) := by
  obtain ⟨hwait, op, hop, hr⟩ := h.running hb
  obtain ⟨-, hbudget⟩ := h.budget hb
  rw [resume_eq hwait]
  exact keepsInv_conclude h.base hr (Grows_pollThen (Grows_restOf _) s)
    (WaitsIn_pollThen (WaitsIn_restOf hop) s ⟨hwait, hop⟩ hbudget)

theorem keepsInv_step {s : State} (h : s.Inv) : KeepsInv s.cfg (step s) := by
  unfold step
  split
  · next e he =>
    rw [ev_of_resetNow he]
    exact .next (inv_resetKeeping (h.take e).params)
  · split
    · next ho =>
      split
      · next e he => exact keepsInv_serve_text (h.take e) (isText_of_readyLines (lineNow_mem he))
      · exact keepsInv_resume h (h.owned_eq_busy ▸ ho)
    · next ho =>
      have hfree : s.seq.busy = false := by simpa [h.owned_eq_busy] using ho
      split
      · next e _ => exact keepsInv_serve (h.take e) hfree e.src e.ev
      · exact .next h

/-- Settles O54: each branch of the step keeps the invariant and the parameters, and the decided ones with them. -/
theorem stepKeepsInv : Obligations.StepKeepsInv := by
  intro s t h hstep
  obtain ⟨hinv, hcfg⟩ := keepsInv_step h t hstep
  exact ⟨hinv, hcfg, fun hdecided => hcfg ▸ hdecided⟩

end Sys2Proof.Machine

/-! The state after reset (O52, O53). -/

namespace Sys2Proof.Machine

/-! ### The parameters after reset (R6) -/

/-- The numerals that stand in for an assignment R6 forbids are within its limits (log 1). -/
theorem default_wf (rcvOn : Bool) : (Params.default rcvOn).wf := by
  cases rcvOn <;> decide

theorem config_wf : Config.params.wf := by
  unfold Config.params
  dsimp only
  split
  · assumption
  · exact default_wf _

theorem config_decided : Config.params.decided := by
  unfold Config.params
  dsimp only
  split <;> exact ⟨rfl, rfl, rfl⟩

/-- Settles O53: the state after reset is what an external reset leaves of it, under parameters within their limits. -/
theorem resetMeetsInv : Obligations.ResetMeetsInv :=
  ⟨inv_resetKeeping (s := State.reset) config_wf, config_decided⟩

/-! ### The input that waits -/

/-- An input behind none of its own source is the first of its source, and only inputs before it go before it (log 10). -/
theorem firstOfEach_append_cons {h : Held} {before : List Held} (hsrc : ∀ g ∈ before, g.src ≠ h.src) (after : List Held) :
    ∃ pre post, firstOfEach (before ++ h :: after) = pre ++ h :: post ∧ ∀ g ∈ pre, g ∈ before := by
  induction before with
  | nil => exact ⟨[], _, rfl, by simp⟩
  | cons b before ih =>
    obtain ⟨hb, hrest⟩ := List.forall_mem_cons.mp hsrc
    obtain ⟨pre, post, heq, hpre⟩ := ih hrest
    refine ⟨b :: pre.filter (fun g => g.src != b.src), post.filter (fun g => g.src != b.src), ?_, ?_⟩
    · simp [firstOfEach, heq, hb.symm]
    · intro g hg
      rcases List.mem_cons.mp hg with rfl | hg
      · exact List.mem_cons_self
      · exact List.mem_cons_of_mem b (hpre g (List.mem_filter.mp hg).1)

theorem dropFirst_append_cons {h : Held} {before : List Held} (hsrc : ∀ g ∈ before, g.src ≠ h.src) (after : List Held) :
    dropFirst h.src (before ++ h :: after) = before ++ after := by
  induction before with
  | nil => simp [dropFirst]
  | cons b before ih =>
    obtain ⟨hb, hrest⟩ := List.forall_mem_cons.mp hsrc
    simp [dropFirst, hb, ih hrest]

/-- A reset that waits behind no reset and no input of its own source is the one served now (R175; log 17). -/
theorem resetNow_of_held {s : State} {src : Nat} {before after : List Held} (hheld : s.held = before ++ ⟨src, .reset⟩ :: after)
    (hbefore : ∀ g ∈ before, g.src ≠ src ∧ g.ev ≠ .reset) : s.resetNow = some ⟨src, .reset⟩ := by
  obtain ⟨pre, post, heq, hpre⟩ :=
    firstOfEach_append_cons (h := ⟨src, .reset⟩) (fun g hg => (hbefore g hg).1) after
  rw [State.resetNow, hheld, heq, List.find?_eq_some_iff_append]
  refine ⟨rfl, pre, post, rfl, fun g hg => ?_⟩
  simpa [Held.isReset] using (hbefore g (hpre g hg)).2

/-- The step serves such a reset before anything else, an operation that waits included (R175; log 17). -/
theorem step_resetNow {s : State} {src : Nat} (h : s.resetNow = some ⟨src, .reset⟩) :
    step s = .next (s.take ⟨src, .reset⟩).resetKeeping := by
  unfold step
  rw [h]
  rfl

/-- Settles O52: a reset behind no other input of its source is served at once, and leaves the state after reset but for the chip's side,
the parameters and what else waits. -/
theorem resetLeaves : Obligations.ResetLeaves := by
  refine ⟨⟨rfl, rfl, rfl, rfl, rfl⟩, fun s src before after hheld hbefore => ?_⟩
  refine ⟨_, step_resetNow (resetNow_of_held hheld hbefore), rfl, rfl, rfl, rfl, rfl, rfl, rfl, ?_⟩
  rw [resetKeeping_held, take_held, hheld]
  exact dropFirst_append_cons (fun g hg => (hbefore g hg).1) after

end Sys2Proof.Machine

/-! What an operation leaves alone, and that it answers (O36, O39, O50): both from the shape of `exec` and what every piece keeps. -/

namespace Sys2Proof.Machine

/-! ### Outcomes of a run -/

theorem Run.All.imp {α : Type} {P Q : State → Prop} {r : Run α} (h : r.All P) (hpq : ∀ s, P s → Q s) : r.All Q := by
  cases r with
  | ok a s => exact hpq s h
  | fail f s => exact hpq s h
  | wait s => exact hpq s h

/-- The state a run leaves is where it ended, with a response or waiting (R13, R24). -/
theorem All_conclude {P Q : State → Prop} {run : Run Result} {t : State} (h : run.All P)
    (hfinish : ∀ s r, P s → Q (s.finish r)) (hwait : ∀ s, P s → Q s.dropParsed) (ht : conclude run = .next t) : Q t := by
  cases run with
  | ok a s =>
    cases ht
    exact hfinish s _ h
  | fail f s =>
    cases ht
    exact hfinish s _ h
  | wait s =>
    cases ht
    exact hwait s h

theorem Grows.kept {α : Type} {s : State} {r : Run α} (h : Grows s r) : r.All (Kept s) := by
  cases r with
  | ok a s' =>
    obtain ⟨new, g, -⟩ := h
    exact g.kept
  | fail f s' =>
    obtain ⟨new, g, -⟩ := h
    exact g.kept
  | wait s' =>
    obtain ⟨new, g, -⟩ := h
    exact g.kept

/-! ### What an operation leaves alone -/

theorem KeepsOutside.finish (s : State) (r : Response) : KeepsOutside s (s.finish r) := ⟨rfl, rfl, rfl, rfl, rfl, rfl, rfl⟩

theorem Kept.keepsOutside {s s' : State} (h : Kept s s') : KeepsOutside s s'.dropParsed :=
  ⟨h.cfg, h.bound, h.transport, h.owner, h.answers, h.held, rfl⟩

theorem keepsOutside_conclude {s t : State} {run : Run Result} (h : Grows s run) (ht : conclude run = .next t) :
    KeepsOutside s t :=
  All_conclude h.kept (fun _ _ k => k.keepsOutside) (fun _ k => k.keepsOutside) ht

/-- Beginning an operation writes sequencer, latches, lock and response port alone (R13, R16, R121). -/
theorem KeepsOutside.of_beginAs {locked : Bool} {s t : State} {op : OpName} {l : Latches}
    (h : KeepsOutside (beginAs locked s op l) t) : KeepsOutside s t := by
  cases locked <;> exact h

theorem keepsOutside_exec {i : Instr} {s t : State} (hi : isTextRow i = false) (ht : exec i s = .next t) : KeepsOutside s t := by
  have hshape := exec_shape i s
  rw [ht] at hshape
  generalize ho : Host.Outcome.next t = o at hshape
  cases hshape with
  | answers _ r _ =>
    cases ho
    exact .finish s r
  | runs _ op l run hg _ => exact (keepsOutside_conclude hg ho.symm).of_beginAs
  | parses htext r => simp [hi] at htext
  | reserved _ => cases ho
  | plus _ => cases ho

/-- With no SEND_CMD that waits there is no further poll. -/
theorem wait_of_resume {s t : State} (ht : resume s = .next t) : s.seq.wait ≠ .idle := by
  intro hw
  simp [resume, hw] at ht

theorem keepsOutside_resume {s t : State} (ht : resume s = .next t) : KeepsOutside s t := by
  rw [resume_eq (wait_of_resume ht)] at ht
  exact keepsOutside_conclude (Grows_pollThen (Grows_restOf _) s) ht

/-- Settles O36: an operation and a further poll by what every piece keeps, PARSE by what it returns. -/
theorem outsideUntouched : Obligations.OutsideUntouched := by
  refine fun s t => ⟨?_, fun i hi ht => ?_⟩
  · rintro (⟨i, hi, ht⟩ | ht)
    · exact keepsOutside_exec hi ht
    · exact keepsOutside_resume ht
  · rcases exec_text hi s with ⟨r, hr⟩ | hr
    · rw [hr] at ht
      cases ht
      exact ⟨r, rfl⟩
    · rw [hr] at ht
      cases ht

/-- Settles O50: the step goes on with the operation, which leaves alone all that is outside it. -/
theorem heldWhileOwned : Obligations.HeldWhileOwned := by
  intro s hquiet howned
  have hstep := step_owned hquiet howned
  refine ⟨hstep, fun t ht => ?_⟩
  obtain ⟨-, hbound, htransport, howner, hanswers, hheld, -⟩ := keepsOutside_resume (hstep ▸ ht)
  exact ⟨hheld, howner, hbound, htransport, fun g hg => ansOf_of_kept howner hanswers hg⟩

/-! ### Every operation answers -/

theorem endsWith_finish (s : State) (r : Response) : EndsWith (s.finish r) r := ⟨rfl, rfl, rfl, rfl⟩

/-- An operation that has begun holds the sequencer under its own name, with no response yet (R13; log 12). -/
def Begun (op : OpName) (s : State) : Prop := s.seq.busy = true ∧ s.seq.curOp = some op ∧ s.resp = none

theorem begun_beginAs (locked : Bool) (s : State) (op : OpName) (l : Latches) : Begun op (beginAs locked s op l) := by
  cases locked <;> exact ⟨rfl, rfl, rfl⟩

theorem Kept.begun {s s' : State} {op : OpName} (k : Kept s s') (h : Begun op s) : Begun op s' := by
  obtain ⟨hbusy, hcur, hresp⟩ := h
  exact ⟨k.busy.trans hbusy, k.curOp.trans hcur, k.resp.trans hresp⟩

/-- A run from the beginning of an operation ends with a response or waits in a poll loop of that operation (R13, R110). -/
theorem conclude_answers {op : OpName} {run : Run Result} (h : run.All (Begun op)) (hw : WaitsIn op run) :
    ∃ t, conclude run = .next t ∧ ((∃ r, EndsWith t r) ∨ ∃ w, w ≠ .idle ∧ Waiting t w) := by
  cases run with
  | ok a s => exact ⟨_, rfl, .inl ⟨_, endsWith_finish s _⟩⟩
  | fail f s => exact ⟨_, rfl, .inl ⟨_, endsWith_finish s _⟩⟩
  | wait s =>
    obtain ⟨hbusy, hcur, hresp⟩ := h
    obtain ⟨hwait, hop, hidle, -⟩ := hw
    exact ⟨_, rfl, .inr ⟨s.seq.wait, hwait, hbusy, rfl, hcur.trans hop.symm, hresp, hidle⟩⟩

/-- Settles O39: the shapes of `exec`, one by one. -/
theorem everyOperationAnswers : Obligations.EveryOperationAnswers := by
  refine ⟨fun _ => rfl, fun i s => ?_⟩
  have hshape := exec_shape i s
  generalize exec i s = o at hshape ⊢
  cases hshape with
  | answers hi r _ => exact .inl ⟨hi, _, rfl, .inl ⟨r, endsWith_finish s r⟩⟩
  | runs hi op l run hg hw =>
    exact .inl ⟨hi, conclude_answers (hg.kept.imp fun _ k => k.begun (begun_beginAs _ s op l)) hw⟩
  | parses hi r => exact .inr (.inl ⟨hi, r, rfl⟩)
  | reserved hi => exact .inr (.inr (.inl hi))
  | plus h => exact .inr (.inr (.inr ⟨rfl, h⟩))

end Sys2Proof.Machine

/-! What a row reads and writes (O35, O37, O38): `exec` as ONE function of the state for each row (`Meaning`), whose run neither reads
answer buffer or sink nor writes one that is not the row's own (`Confined`). -/

namespace Sys2Proof.Machine

/-! ### Where the bytes go -/

/-- From `s` to `t` the answer buffer is as it was unless `a`, and the sink unless `k`. -/
structure Writes (a k : Prop) (s t : State) : Prop where
  cfg : t.cfg = s.cfg
  ans : ¬a → t.ans = s.ans
  sink : ¬k → t.sink = s.sink

theorem Writes.refl (a k : Prop) (s : State) : Writes a k s s := ⟨rfl, fun _ => rfl, fun _ => rfl⟩

theorem All_ifBound {α : Type} {P : State → Prop} {f : State → Run α} {s : State} (h : P s) (hf : (f s).All P) :
    (ifBound f s).All P := by
  unfold ifBound
  split
  · exact hf
  · exact h

section
variable {a k : Prop} {s0 s : State}

theorem Writes.setSeq (h : Writes a k s0 s) (q : Seq) : Writes a k s0 { s with seq := q } := ⟨h.cfg, h.ans, h.sink⟩

theorem Writes.writeDest {d : Dest} (hd : d = .ans → a) (h : Writes a k s0 s) (i : Nat) (b : Byte) :
    Writes a k s0 (s.writeDest d i b) := by
  cases d with
  | ans => exact ⟨h.cfg, fun hn => absurd (hd rfl) hn, h.sink⟩
  | tmp => exact h.setSeq _
  | loc => exact h.setSeq _

theorem Writes_transact (c : BusCall) (h : Writes a k s0 s) : (transact c s).All (Writes a k s0) := by
  rcases transact_cases c s with ⟨b, -, ht⟩ | ⟨-, ht⟩ <;> rw [ht] <;> exact ⟨h.cfg, h.ans, h.sink⟩

theorem Writes_regWr (r : Reg) (v : Byte) (h : Writes a k s0 s) : (regWr r v s).All (Writes a k s0) :=
  All_ifBound h (All_andThen (Writes_transact _ h) fun _ _ h => h)

theorem Writes_readLoop (r : Reg) {d : Dest} (hd : d = .ans → a) (n : Nat) (h : Writes a k s0 s) :
    (readLoop r d n s).All (Writes a k s0) := by
  induction n generalizing s with
  | zero => exact h
  | succ n ih =>
    have hcall : (memRead1 r s).All (Writes a k s0) := Writes_transact _ h
    unfold readLoop
    revert hcall
    cases memRead1 r s with
    | ok b s1 => exact fun h1 => ih ((h1.writeDest hd _ _).setSeq _)
    | fail f s1 =>
      intro h1
      obtain ⟨hcfg, hans, hsink⟩ := h1.writeDest hd s1.seq.i (Config.freeByte s1.tick)
      exact ⟨hcfg, hans, hsink⟩
    | wait s1 => exact id

theorem Writes_regRd (r : Reg) (n : Nat) {d : Dest} (hd : d = .ans → a) (h : Writes a k s0 s) :
    (regRd r n d s).All (Writes a k s0) :=
  All_ifBound h (Writes_readLoop r hd n (h.setSeq _))

theorem Writes_fifoLvl (h : Writes a k s0 s) : (fifoLvl s).All (Writes a k s0) :=
  All_andThen (Writes_regRd _ _ nofun h) fun _ _ h => h.setSeq _

theorem Writes_fifoRd {d : Dest} (hd : d = .ans → a) (h : Writes a k s0 s) : (fifoRd d s).All (Writes a k s0) := by
  refine All_andThen (Writes_fifoLvl h) fun l s1 h1 => ?_
  split
  · exact All_andThen (Writes_regRd _ _ hd h1) fun _ _ h => h
  · split
    · exact h1
    · exact All_andThen (Writes_regRd _ _ hd h1) fun _ _ h => h

theorem Writes_writeLoop (data : List Byte) (h : Writes a k s0 s) : (writeLoop data s).All (Writes a k s0) := by
  induction data generalizing s with
  | nil => exact h
  | cons b rest ih =>
    have hcall := Writes_regWr .fifoData b h
    unfold writeLoop
    revert hcall
    cases regWr .fifoData b s with
    | ok x s1 => exact fun h1 => ih (h1.setSeq _)
    | fail f s1 => exact id
    | wait s1 => exact id

theorem Writes_fifoWr (data : List Byte) (h : Writes a k s0 s) : (fifoWr data s).All (Writes a k s0) :=
  All_ifBound h (Writes_writeLoop data (h.setSeq _))

theorem Writes_pollThen {f : State → Run Result} (hf : ∀ s, Writes a k s0 s → (f s).All (Writes a k s0)) (h : Writes a k s0 s) :
    (pollThen f s).All (Writes a k s0) := by
  have hpoll : (pollOnce s).All (Writes a k s0) := by
    unfold pollOnce
    split
    · exact h
    · exact All_andThen (Writes_regRd _ _ nofun h) fun _ _ h => h.setSeq _
  refine All_andThen hpoll fun idle s1 h1 => ?_
  split
  · exact hf s1 h1
  · exact h1

theorem Writes_sendCmdThen (c : CommandCode) (w : Wait) {f : State → Run Result}
    (hf : ∀ s, Writes a k s0 s → (f s).All (Writes a k s0)) (h : Writes a k s0 s) :
    (sendCmdThen c w f s).All (Writes a k s0) :=
  All_andThen (All_ifBound h (All_andThen (Writes_regWr _ _ h) fun _ _ h => h.setSeq _)) fun _ _ h =>
    Writes_pollThen hf (h.setSeq _)

theorem Writes_getVersion (h : Writes a k s0 s) : (getVersion s).All (Writes a k s0) := by
  refine All_andThen (Writes_regRd _ _ nofun h) fun _ s1 h1 => ?_
  split <;> exact h1

theorem Writes_afterMemRead (ha : a) (h : Writes a k s0 s) : (afterMemRead s).All (Writes a k s0) :=
  All_andThen (Writes_fifoRd (fun _ => ha) h) fun _ _ h => h

/-- The end of GEN_RAND_ID under the routing the spec decides (R118, D27): the local buffer, then the sink. -/
theorem Writes_afterGenFetch (hroute : s0.cfg.routeRandomId = false) (hk : k) (h : Writes a k s0 s) :
    (afterGenFetch s).All (Writes a k s0) := by
  unfold afterGenFetch
  rw [h.cfg, hroute]
  exact All_andThen (Writes_fifoRd nofun h) fun _ _ h => ⟨h.cfg, h.ans, fun hn => absurd hk hn⟩

theorem Writes_afterGenGenerate (hroute : s0.cfg.routeRandomId = false) (hk : k) (h : Writes a k s0 s) :
    (afterGenGenerate s).All (Writes a k s0) :=
  All_ifBound h (All_andThen (Writes_regWr _ _ h) fun _ _ h =>
    Writes_sendCmdThen _ _ (fun _ h => Writes_afterGenFetch hroute hk h) h)

theorem Writes_afterGenClear (hroute : s0.cfg.routeRandomId = false) (hk : k) (h : Writes a k s0 s) :
    (afterGenClear s).All (Writes a k s0) :=
  Writes_sendCmdThen _ _ (fun _ h => Writes_afterGenGenerate hroute hk h) h

theorem Writes_restOf (w : Wait) (hroute : s0.cfg.routeRandomId = false) (ha : w = .memRead → a)
    (hk : w.op = some .genRandId → k) (h : Writes a k s0 s) : (restOf w s).All (Writes a k s0) := by
  cases w with
  | idle => exact h
  | sendCmd => exact h
  | memWrite => exact h
  | memRead => exact Writes_afterMemRead (ha rfl) h
  | genClear => exact Writes_afterGenClear hroute (hk rfl) h
  | genGenerate => exact Writes_afterGenGenerate hroute (hk rfl) h
  | genFetch => exact Writes_afterGenFetch hroute (hk rfl) h

theorem Writes_conclude {run : Run Result} {t : State} (h : run.All (Writes a k s0)) (ht : conclude run = .next t) :
    Writes a k s0 t :=
  All_conclude h (fun _ _ h => ⟨h.cfg, h.ans, h.sink⟩) (fun _ h => ⟨h.cfg, h.ans, h.sink⟩) ht

theorem Writes.beginAs (h : Writes a k s0 s) (locked : Bool) (op : OpName) (l : Latches) :
    Writes a k s0 (beginAs locked s op l) := by
  cases locked <;> exact ⟨h.cfg, h.ans, h.sink⟩

end

/-! ### The two the pieces do not read -/

section
variable {u : Unread} {s s' : State}

theorem Unread.Sim_getVersion (h : u.Rel 0 s s') : u.Sim 0 (getVersion s) (getVersion s') := by
  refine Unread.Sim_andThen (Unread.Sim_regRd _ _ _ h) fun _ t t' h => ?_
  rw [h.seq]
  split <;> exact ⟨rfl, h⟩

theorem Unread.Rel.finish (h : u.Rel 0 s s') (r : Response) : u.Rel 0 (s.finish r) (s'.finish r) :=
  h.map (fun t => t.finish r) (fun _ _ _ => rfl) (fun _ => rfl) (fun _ => rfl)

theorem Unread.Rel.parseReturns (h : u.Rel 0 s s') (r : Response) : u.Rel 0 (s.parseReturns r) (s'.parseReturns r) :=
  h.map (fun t => t.parseReturns r) (fun _ _ _ => rfl) (fun _ => rfl) (fun _ => rfl)

theorem Unread.Rel.beginAs (h : u.Rel 0 s s') (locked : Bool) (op : OpName) (l : Latches) :
    u.Rel 0 (beginAs locked s op l) (beginAs locked s' op l) := by
  cases locked with
  | true => exact h.map (fun t => t.beginLocked op l) (fun _ _ _ => rfl) (fun _ => rfl) (fun _ => rfl)
  | false => exact h.map (fun t => t.begin op l) (fun _ _ _ => rfl) (fun _ => rfl) (fun _ => rfl)

/-- The start of two runs with other contents of answer buffer and sink: nothing is written yet. -/
theorem Unread.rel_start (s : State) (v : Buffer) (k : List Byte) :
    (Unread.mk s.ans v s.sink k).Rel 0 s { s with ans := v, sink := k } :=
  ⟨[], [], Nat.zero_le _, rfl, rfl, rfl, (List.append_nil _).symm, (List.append_nil _).symm⟩

end

/-! ### The meaning of each row, as one function of the state -/

/-- The operations whose bytes go to the answer buffer (R11). -/
def WritesAns (i : Instr) : Prop := (∃ r n, i = .regRd r n) ∨ i = .fifoRd ∨ i = .memRead

/-- A run that reads neither answer buffer nor sink, and, under the routing the spec decides (D27), writes only those that are its
row's own (R11, R120). -/
structure Confined (i : Instr) (run : State → Run Result) : Prop where
  unread : ∀ {u : Unread} {s s' : State}, u.Rel 0 s s' → u.Sim 0 (run s) (run s')
  writes : ∀ {s0 s : State}, s0.cfg.routeRandomId = false → Writes (WritesAns i) (i = .genRandId) s0 s →
    (run s).All (Writes (WritesAns i) (i = .genRandId) s0)

/-- What the meaning of a row is: a response that the parameters alone decide; a run from the beginning of an operation; PARSE's
result; or a refusal. -/
inductive Meaning (i : Instr) : (State → Host.Outcome State Fault Refusal) → Prop where
  | answers (ht : isTextRow i = false) (r : Params → Response) : Meaning i fun s => .next (s.finish (r s.cfg))
  | runs (ht : isTextRow i = false) (op : OpName) (l : Latches) (run : State → Run Result) (hrun : Confined i run) :
      Meaning i fun s => conclude (run (beginAs op.compound s op l))
  | parses (ht : isTextRow i = true) (r : Response) : Meaning i fun s => .next (s.parseReturns r)
  | refuses (x : Refusal) : Meaning i fun _ => .refused x

theorem parseArgs_meaning {i : Instr} (hi : isTextRow i = true) (c : TextCommand) (args : TextArgs) :
    Meaning i (parseResult (parseArgs c args)) := by
  cases parseArgs c args with
  | operation o => exact .parses hi _
  | error e => exact .parses hi _
  | undefined => exact .refuses _

/-- A piece, then a result that the sequencer state decides. -/
theorem Confined.andThen {α : Type} {i : Instr} {piece : State → Run α} (result : α → Seq → Result)
    (hunread : ∀ {u : Unread} {s s' : State}, u.Rel 0 s s' → u.Sim 0 (piece s) (piece s'))
    (hwrites : ∀ {s0 s : State}, Writes (WritesAns i) (i = .genRandId) s0 s →
      (piece s).All (Writes (WritesAns i) (i = .genRandId) s0)) :
    Confined i fun s => (piece s).andThen fun x s' => .ok (result x s'.seq) s' where
  unread h := Unread.Sim_andThen (hunread h) fun x _ _ h => ⟨by rw [h.seq], h⟩
  writes _ h := All_andThen (hwrites h) fun _ _ h => h

theorem confined_sendCmd (code : BitVec 4) (c : CommandCode) :
    Confined (.sendCmd code) (sendCmdThen c .sendCmd afterSendCmd) :=
  ⟨fun h => Unread.Sim_sendCmdThen _ _ (fun _ _ h => Unread.Sim_restOf .sendCmd h) h,
    fun _ h => Writes_sendCmdThen _ _ (fun _ h => h) h⟩

theorem confined_memWrite (d : Byte) (payload : Buffer) : Confined (.memWrite d payload)
    (ifBound fun s => (fifoWr payload.toList s).andThen fun _ s' => sendCmdThen .mem .memWrite afterMemWrite s') :=
  ⟨fun h => Unread.Sim_ifBound h (Unread.Sim_andThen (Unread.Sim_fifoWr _ h) fun _ _ _ h =>
      Unread.Sim_sendCmdThen _ _ (fun _ _ h => Unread.Sim_restOf .memWrite h) h),
    fun _ h => All_ifBound h (All_andThen (Writes_fifoWr _ h) fun _ _ h => Writes_sendCmdThen _ _ (fun _ h => h) h)⟩

theorem confined_memRead : Confined .memRead
    (ifBound fun s => (fifoFlush s).andThen fun _ s' => sendCmdThen .mem .memRead afterMemRead s') :=
  ⟨fun h => Unread.Sim_ifBound h (Unread.Sim_andThen (Unread.Sim_regWr _ _ h) fun _ _ _ h =>
      Unread.Sim_sendCmdThen _ _ (fun _ _ h => Unread.Sim_afterMemRead h) h),
    fun _ h => All_ifBound h (All_andThen (Writes_regWr _ _ h) fun _ _ h =>
      Writes_sendCmdThen _ _ (fun _ h => Writes_afterMemRead (.inr (.inr rfl)) h) h)⟩

theorem confined_getVersion : Confined .getVersion (ifBound getVersion) :=
  ⟨fun h => Unread.Sim_ifBound h (Unread.Sim_getVersion h), fun _ h => All_ifBound h (Writes_getVersion h)⟩

theorem confined_genRandId : Confined .genRandId
    (ifBound fun s => (fifoWr Buffer.zero.toList s).andThen fun _ s' => sendCmdThen .mem .genClear afterGenClear s') :=
  ⟨fun h => Unread.Sim_ifBound h (Unread.Sim_andThen (Unread.Sim_fifoWr _ h) fun _ _ _ h =>
      Unread.Sim_sendCmdThen _ _ (fun _ _ h => Unread.Sim_restOf .genClear h) h),
    fun hroute h => All_ifBound h (All_andThen (Writes_fifoWr _ h) fun _ _ h =>
      Writes_sendCmdThen _ _ (fun _ h => Writes_afterGenClear hroute rfl h) h)⟩

theorem exec_meaning (i : Instr) : Meaning i (exec i) := by
  cases i with
  | addrEnc | statDec | verCls | vVersion1 | vVersion2 | vUnknown | lLevel
  | sIdle | sMem | sGenerateRandomId | sCalcCrc | sTransmit | sNoCmdChange | sReceive | sTransceive | sMfAuthent | sSoftReset
  | sUnknown5 | sUnknown6 | sUnknown9 | sUnknown10 | sUnknown11 | sUnknown13 => exact .answers rfl fun _ => _
  | aCommandRead => exact .answers rfl fun p => .ok (.byte (p.readHeader .command)) none
  | aCommandWrite => exact .answers rfl fun p => .ok (.byte (p.writeHeader .command)) none
  | aFifoDataRead => exact .answers rfl fun p => .ok (.byte (p.readHeader .fifoData)) none
  | aFifoDataWrite => exact .answers rfl fun p => .ok (.byte (p.writeHeader .fifoData)) none
  | aFifoLevelRead => exact .answers rfl fun p => .ok (.byte (p.readHeader .fifoLevel)) none
  | aFifoLevelWrite => exact .answers rfl fun p => .ok (.byte (p.writeHeader .fifoLevel)) none
  | aVersionRead => exact .answers rfl fun p => .ok (.byte (p.readHeader .version)) none
  | aVersionWrite => exact .answers rfl fun p => .ok (.byte (p.writeHeader .version)) none
  | statEnc code pwr rcv =>
    show Meaning _ (execStatEnc code pwr rcv)
    unfold execStatEnc
    cases cmdOf code with
    | known c => exact .answers rfl fun _ => .ok (.byte (statusByte c pwr rcv)) none
    | unknown _ => exact .answers rfl fun _ => .failed (.reservedCommandCode code)
  | regRd reg n =>
    show Meaning _ (execRegRd reg n)
    unfold execRegRd
    by_cases hn : n.toNat ≤ bufLen
    · simp only [if_pos hn]
      exact .runs rfl .regRd { reg := reg, n := n } _ (.andThen (fun _ _ => { value := .none })
        (Unread.Sim_regRd reg n.toNat .ans) (Writes_regRd reg n.toNat fun _ => .inl ⟨reg, n, rfl⟩))
    · simp only [if_neg hn]
      exact .answers rfl fun _ => .failed (.lengthOutOfRange n)
  | regWr reg v =>
    exact .runs rfl .regWr { reg := reg, val := v } _
      (.andThen (fun _ _ => { value := .none }) (Unread.Sim_regWr reg v) (Writes_regWr reg v))
  | fifoLvl =>
    exact .runs (i := .fifoLvl) rfl .fifoLvl {} _
      (.andThen (fun l _ => { value := .byte (l.zeroExtend 8), count := some l.toNat }) Unread.Sim_fifoLvl Writes_fifoLvl)
  | fifoFlush =>
    exact .runs rfl .fifoFlush {} _ (.andThen (fun _ _ => { value := .none }) (Unread.Sim_regWr _ _) (Writes_regWr _ _))
  | fifoRd =>
    exact .runs rfl .fifoRd {} _ (.andThen (fun l _ => { value := .none, count := some l.toNat })
      (Unread.Sim_fifoRd .ans) (Writes_fifoRd fun _ => .inr (.inl rfl)))
  | fifoWr n data =>
    show Meaning _ (execFifoWr n data)
    unfold execFifoWr
    by_cases hn : n.toNat ≤ bufLen
    · simp only [if_pos hn]
      exact .runs rfl .fifoWr { n := n, data := data } _
        (.andThen (fun _ _ => { value := .none }) (Unread.Sim_fifoWr _) (Writes_fifoWr (data.toList.take n.toNat)))
    · simp only [if_neg hn]
      exact .answers rfl fun _ => .failed (.lengthOutOfRange n)
  | sendCmd code =>
    show Meaning _ (execSendCmd code)
    unfold execSendCmd
    cases cmdOf code with
    | known c => exact .runs rfl .sendCmd { code := code } _ (confined_sendCmd code c)
    | unknown _ => exact .answers rfl fun _ => .failed (.reservedCommandCode code)
  | memWrite d payload =>
    -- `exec` reads the payload back from the latches, where it is by then (R16).
    have hmeaning := Meaning.runs (i := .memWrite d payload) rfl .memWrite { data := payload } _ (confined_memWrite d payload)
    exact hmeaning
  | memRead => exact .runs rfl .memRead {} _ confined_memRead
  | getVersion => exact .runs rfl .getVersion {} _ confined_getVersion
  | genRandId => exact .runs rfl .genRandId {} _ confined_genRandId
  | reservedOp => exact .refuses .reservedOp
  | parseMemRead args => exact parseArgs_meaning rfl .memRead args
  | parseMemWrite args => exact parseArgs_meaning rfl .memWrite args
  | parseGetVersion args => exact parseArgs_meaning rfl .getVersion args
  | parseGenRandId args => exact parseArgs_meaning rfl .genRandId args
  | lFlush =>
    exact .runs rfl .fifoFlush {} _ (.andThen (fun _ _ => { value := .none }) (Unread.Sim_regWr _ _) (Writes_regWr _ _))
  | readFrame reg =>
    exact .runs rfl .readFrame { reg := reg, n := 1 } _
      (.andThen (fun _ q => { value := .byte q.tmp }) (Unread.Sim_regRd reg 1 .tmp) (Writes_regRd reg 1 nofun))
  | writeFrame reg d =>
    exact .runs rfl .writeFrame { reg := reg, val := d } _
      (.andThen (fun _ _ => { value := .none }) (Unread.Sim_regWr reg d) (Writes_regWr reg d))

/-! ### What was there before -/

/-- The beginning of an operation replaces what the sequencer, the latches, the response port and PARSE left (R13, R16, R24). -/
theorem beginAs_clean (locked : Bool) (s : State) (q : Seq) (l : Latches) (r p : Option Response) (op : OpName) (lat : Latches) :
    beginAs locked { s with seq := q, lat := l, resp := r, parsed := p } op lat = beginAs locked s op lat := by
  cases locked <;> rfl

/-- Settles O37: no meaning of a row but PARSE's keeps what was there before, and PARSE's result is one for all states. -/
theorem startsClean : Obligations.StartsClean := by
  constructor
  · intro i s q l r p hi
    have hmeaning := exec_meaning i
    generalize exec i = f at hmeaning ⊢
    cases hmeaning with
    | answers _ resp => rfl
    | runs _ op lat run _ => exact congrArg (fun b => conclude (run b)) (beginAs_clean _ s q l r p op lat)
    | parses ht _ => simp [hi] at ht
    | refuses x => rfl
  · intro i hi
    have hmeaning := exec_meaning i
    generalize exec i = f at hmeaning ⊢
    cases hmeaning with
    | answers ht _ => simp [hi] at ht
    | runs ht => simp [hi] at ht
    | parses _ r => exact .inr ⟨r, fun _ => rfl⟩
    | refuses x => exact .inl ⟨x, fun _ => rfl⟩

/-! ### Other contents of answer buffer and sink -/

section
variable {u : Unread} {s s' t : State}

theorem Unread.Sim.outcome {run run' : Run Result} (h : u.Sim 0 run run') (ht : conclude run = .next t) :
    ∃ t', conclude run' = .next t' ∧ u.Rel 0 t t' := by
  obtain ⟨t1, t', h1, h2, hrel⟩ := Unread.Sim_conclude h
  rw [h1] at ht
  cases ht
  exact ⟨t', h2, hrel⟩

theorem exec_unread {i : Instr} (h : u.Rel 0 s s') (ht : exec i s = .next t) : ∃ t', exec i s' = .next t' ∧ u.Rel 0 t t' := by
  have hmeaning := exec_meaning i
  generalize exec i = f at hmeaning ht ⊢
  cases hmeaning with
  | answers _ r =>
    cases ht
    exact ⟨_, rfl, by rw [h.cfg]; exact h.finish _⟩
  | runs _ op l run hrun => exact (hrun.unread (h.beginAs op.compound op l)).outcome ht
  | parses _ r =>
    cases ht
    exact ⟨_, rfl, h.parseReturns r⟩
  | refuses x => cases ht

theorem resume_unread (h : u.Rel 0 s s') (ht : resume s = .next t) : ∃ t', resume s' = .next t' ∧ u.Rel 0 t t' := by
  have hwait := wait_of_resume ht
  rw [resume_eq hwait] at ht
  rw [resume_eq (by rwa [h.seq]), h.seq]
  exact (Unread.Sim_pollThen (fun _ _ h => Unread.Sim_restOf _ h) h).outcome ht

end

/-- Settles O38: two runs that start alike but for the two end alike but for the two, with the same bytes written to both. -/
theorem nothingReadsAnswerOrSink : Obligations.NothingReadsAnswerOrSink := by
  intro run hrun s t v k ht
  have hstart := Unread.rel_start s v k
  obtain ⟨t', ht', written, emitted, -, hrest⟩ :
      ∃ t', run { s with ans := v, sink := k } = .next t' ∧ (Unread.mk s.ans v s.sink k).Rel 0 t t' := by
    rcases hrun with ⟨i, rfl⟩ | rfl
    · exact exec_unread hstart ht
    · exact resume_unread hstart ht
  exact ⟨t', written, emitted, ht', hrest⟩

/-! ### Who writes answer buffer and sink -/

theorem writes_exec {i : Instr} {s t : State} (hroute : s.cfg.routeRandomId = false) (ht : exec i s = .next t) :
    Writes (WritesAns i) (i = .genRandId) s t := by
  have hmeaning := exec_meaning i
  generalize exec i = f at hmeaning ht
  cases hmeaning with
  | answers _ r =>
    cases ht
    exact ⟨rfl, fun _ => rfl, fun _ => rfl⟩
  | runs _ op l run hrun => exact Writes_conclude (hrun.writes hroute ((Writes.refl _ _ s).beginAs op.compound op l)) ht
  | parses _ r =>
    cases ht
    exact ⟨rfl, fun _ => rfl, fun _ => rfl⟩
  | refuses x => cases ht

theorem writes_resume {s t : State} (hroute : s.cfg.routeRandomId = false) (ht : resume s = .next t) :
    Writes (s.seq.wait = .memRead) (s.seq.wait.op = some .genRandId) s t := by
  rw [resume_eq (wait_of_resume ht)] at ht
  exact Writes_conclude (Writes_pollThen (fun _ h => Writes_restOf _ hroute id id h) (.refl _ _ s)) ht

/-- An operation and a further poll add to the sink behind what it holds (R120): it is one they do not read. -/
theorem sink_append {run : State → Host.Outcome State Fault Refusal} (hrun : (∃ i, run = exec i) ∨ run = resume) {s t : State}
    (ht : run s = .next t) : ∃ bytes, t.sink = s.sink ++ bytes := by
  obtain ⟨-, -, emitted, -, -, -, -, hsink, -⟩ := nothingReadsAnswerOrSink run hrun s t s.ans s.sink ht
  exact ⟨emitted, hsink⟩

/-- Settles O35: what each row and each further poll writes, by where its pieces put their bytes. -/
theorem answerAndSinkWriters : Obligations.AnswerAndSinkWriters := by
  refine fun s t hroute => ⟨fun i ht => ?_, fun ht => ?_⟩
  · obtain ⟨-, hans, hsink⟩ := writes_exec hroute ht
    refine ⟨fun hregRd hfifoRd hmemRead => hans ?_, hsink, sink_append (.inl ⟨i, rfl⟩) ht⟩
    rintro (⟨r, n, h⟩ | h | h)
    · exact hregRd r n h
    · exact hfifoRd h
    · exact hmemRead h
  · obtain ⟨-, hans, hsink⟩ := writes_resume hroute ht
    exact ⟨hans, hsink, sink_append (.inr rfl) ht⟩

end Sys2Proof.Machine

/-! Where a failing frame stops an operation (O33): what every piece does at Err is in `Grows`, and what `conclude` makes of it is said
once here. -/

namespace Sys2Proof.Machine

/-- Entries without an Err, of an operation whose response is not BusError. -/
theorem noErr.stopsAtErr {P : Prop} {new : List Transaction} (h : noErr new) (hp : ¬P) : stopsAtErr P new := by
  simpa using stopsAtErr_append h (stopsAtErr_nil hp)

theorem isBusError_failed (f : Failure) : isBusError (.failed f) ↔ isBus f := by
  simp [isBusError, isBus]

/-- From `s` to `t` the trace grew up to the first failed frame, which is there exactly when the response of `t` is BusError
(R42, R91, R151). -/
def GrewToErr (s t : State) : Prop :=
  ∃ new, t.trace = s.trace ++ new ∧ stopsAtErr (∃ r, t.resp = some r ∧ isBusError r) new

theorem GrewToErr.finish {s s' : State} {new : List Transaction} (htrace : s'.trace = s.trace ++ new) (r : Response)
    (h : stopsAtErr (isBusError r) new) : GrewToErr s (s'.finish r) :=
  ⟨new, htrace, by simpa using h⟩

/-- An operation that shows no response yet ends, or waits, with the trace up to its first failed frame. -/
theorem grewToErr_conclude {s t : State} {run : Run Result} (h : Grows s run) (hresp : s.resp = none)
    (ht : conclude run = .next t) : GrewToErr s t := by
  cases run with
  | ok a s' =>
    obtain ⟨new, g, e⟩ := h
    cases ht
    exact .finish g.trace _ (e.stopsAtErr (notBus_ok _ _))
  | fail f s' =>
    obtain ⟨new, g, e⟩ := h
    cases ht
    exact .finish g.trace _ (by rwa [isBusError_failed])
  | wait s' =>
    obtain ⟨new, g, e⟩ := h
    cases ht
    exact ⟨new, g.trace, e.stopsAtErr (by simp [g.kept.resp, hresp])⟩

theorem GrewToErr.of_beginAs {locked : Bool} {s t : State} {op : OpName} {l : Latches}
    (h : GrewToErr (beginAs locked s op l) t) : GrewToErr s t := by
  cases locked <;> exact h

theorem grewToErr_exec {i : Instr} {s t : State} (hi : isTextRow i = false) (ht : exec i s = .next t) : GrewToErr s t := by
  have hshape := exec_shape i s
  rw [ht] at hshape
  generalize ho : Host.Outcome.next t = o at hshape
  cases hshape with
  | answers _ r hr =>
    cases ho
    exact .finish (List.append_nil _).symm r (stopsAtErr_nil hr)
  | runs _ op l run hg _ =>
    obtain ⟨-, -, hresp⟩ := begun_beginAs op.compound s op l
    exact (grewToErr_conclude hg hresp ho.symm).of_beginAs
  | parses htext r => simp [hi] at htext
  | reserved _ => cases ho
  | plus _ => cases ho

theorem grewToErr_resume {s t : State} (hresp : s.resp = none) (ht : resume s = .next t) : GrewToErr s t := by
  rw [resume_eq (wait_of_resume ht)] at ht
  exact grewToErr_conclude (Grows_pollThen (Grows_restOf _) s) hresp ht

/-- Settles O33: an operation and a further poll by what every piece does at Err, PARSE by what it returns. -/
theorem stopsAtFirstError : Obligations.StopsAtFirstError := by
  refine fun s t => ⟨?_, fun i hi ht => ?_⟩
  · rintro (⟨i, hi, ht⟩ | ⟨⟨-, -, -, hresp, -⟩, ht⟩)
    · exact grewToErr_exec hi ht
    · exact grewToErr_resume hresp ht
  · obtain ⟨r, rfl⟩ := (outsideUntouched s t).2 i hi ht
    rfl

end Sys2Proof.Machine

/-! MEM_WRITE and MEM_READ over their whole run, whatever polls the budget allows (R113, R114, R122). -/

namespace Sys2Proof.Machine

/-- MEM_WRITE on a bound device: FIFO_WR of the payload, whatever `d` is, then SEND_CMD Mem (R113). -/
theorem exec_memWrite {s : State} (hb : s.bound = true) (d : Byte) (payload : Buffer) :
    exec (.memWrite d payload) s
      = conclude ((fifoWr payload.toList (s.beginLocked .memWrite { data := payload })).andThen fun _ =>
          sendCmdThen .mem .memWrite afterMemWrite) :=
  congrArg conclude (ifBound_bound _ hb)

/-- MEM_READ on a bound device: the flush, then SEND_CMD Mem (R114). -/
theorem exec_memRead {s : State} (hb : s.bound = true) :
    exec .memRead s
      = conclude ((fifoFlush (s.beginLocked .memRead {})).andThen fun _ => sendCmdThen .mem .memRead afterMemRead) :=
  congrArg conclude (ifBound_bound _ hb)

section
variable {s : State} {busy : List Byte} {idle : Byte}

/-- MEM_WRITE whose frames are all answered Ok (R113): it ends after as many further steps as there were polls not Idle. -/
theorem memWrite_run {rs : List Byte} (d x : Byte) (payload : Buffer) (hb : s.bound = true) (hquiet : busy ≠ [] → Quiet s)
    (hpolls : PollsOk s.cfg busy idle) (hrs : rs.length = 25) :
    let calls := payload.toList.map (writeCall s.cfg .fifoData) ++ sendCalls s.cfg .mem (busy.length + 1)
    let replies := rs.map Reply.ok ++ sendReplies x busy idle
    s.replies calls = replies → ∃ t, LeadsTo (exec (.memWrite d payload) s) busy.length t
      ∧ Ended s t (.ok (.command (.bytesWritten 25)) (some 25)) calls replies ∧ t.ans = s.ans ∧ t.sink = s.sink := by
  intro calls replies h
  have hbegun := (replies_beginLocked s .memWrite { data := payload } calls).trans h
  obtain ⟨hdata, hsend⟩ := replies_split hbegun (by simp [hrs])
  obtain ⟨s1, hwrite, p1, hans1, -⟩ := fifoWr_ok (s := s.beginLocked .memWrite { data := payload }) hb hdata
  obtain ⟨s2, p2, hans2, -, hrest⟩ := sendCmdThen_run (c := .mem) (w := .memWrite) nofun p1.busy (p1.bound.trans hb)
    (fun hne => quiet_of_held (hquiet hne) p1.held p1.owner) (p1.cfg ▸ hpolls) (by rw [p1.cfg, p1.replies]; exact hsend)
  have hreached := p1.reached.trans (p1.cfg ▸ p2)
  refine ⟨_, ?_, hreached.ended_beginLocked (.ok (.command (.bytesWritten 25)) (some 25)) h, hans2.trans hans1, hreached.sink⟩
  rw [exec_memWrite hb, hwrite]
  exact hrest 0 _ (leadsTo_zero rfl)

/-- MEM_READ whose frames are all answered Ok, with a level of at most 25 (R114): it ends after as many further steps as there were
polls not Idle. -/
theorem memRead_run {lb : Byte} {bytes : List Byte} (x y : Byte) (hb : s.bound = true) (hquiet : busy ≠ [] → Quiet s)
    (hpolls : PollsOk s.cfg busy idle) (hlevel : (levelOf lb).toNat = bytes.length) (hroom : bytes.length ≤ 25) :
    let calls := writeCall s.cfg .fifoLevel flushWord :: sendCalls s.cfg .mem (busy.length + 1)
      ++ readCall s.cfg .fifoLevel :: List.replicate bytes.length (readCall s.cfg .fifoData)
    let replies := Reply.ok x :: sendReplies y busy idle ++ Reply.ok lb :: bytes.map Reply.ok
    s.replies calls = replies → ∃ t, LeadsTo (exec .memRead s) busy.length t
      ∧ Ended s t (.ok (.command (.bytesRead bytes.length)) (some bytes.length)) calls replies
      ∧ t.ans.toList = bytes ++ s.ans.toList.drop bytes.length ∧ t.sink = s.sink := by
  intro calls replies h
  set s0 := s.beginLocked .memRead {}
  have hbegun : s0.replies calls = replies := (replies_beginLocked s .memRead {} calls).trans h
  obtain ⟨hcommand, hread⟩ := replies_split hbegun (by simp [sendCalls, sendReplies])
  obtain ⟨hflush, hsend⟩ := replies_split (cs := [writeCall s0.cfg .fifoLevel flushWord]) (xs := [Reply.ok x]) hcommand rfl
  have p1 := afterCall_piece s0 (writeCall s0.cfg .fifoLevel flushWord)
  obtain ⟨s2, p2, hans2, -, hrest⟩ := sendCmdThen_run (c := .mem) (w := .memRead) nofun p1.busy (p1.bound.trans hb)
    (fun hne => quiet_of_held (hquiet hne) p1.held p1.owner) hpolls hsend
  have p12 := p1.reached.trans p2
  obtain ⟨s3, hfifo, p3, hans3, -⟩ := fifoRd_ok (d := .ans) (p12.bound.trans hb) hlevel hroom
    (by rw [p12.cfg, p12.replies]; exact hread)
  have hreached := p12.trans (p12.cfg ▸ p3.reached)
  refine ⟨_, ?_, hreached.ended_beginLocked (.ok (.command (.bytesRead bytes.length)) (some bytes.length)) h,
    (hans3 rfl).trans (by rw [hans2]; rfl), hreached.sink⟩
  have hend : conclude (afterMemRead s2) = .next (s3.finish (.ok (.command (.bytesRead bytes.length)) (some bytes.length))) := by
    rw [afterMemRead, hfifo, andThen_ok, conclude_ok, bytesReadResult, hlevel]
    rfl
  rw [exec_memRead hb, fifoFlush, regWr_ok (s := s0) hb hflush]
  exact hrest 0 _ (leadsTo_zero hend)

end

end Sys2Proof.Machine

/-! The block against the reference peer (R47, O59): what the peer answers to each frame, to a FIFO_WR, a SEND_CMD and a FIFO_RD, and
so to MEM_WRITE and MEM_READ. -/

namespace Sys2Proof

/-! ### The header of a frame names its register and direction (R72, R74) -/

theorem headerFields_addrByte (m : Bool) (a : BitVec 6) : headerFields (addrByte m a.toNat) = some (m, a) := by
  decide +revert

theorem Params.regAt_addrOf {p : Params} (h : p.wf) (r : Reg) : p.regAt (p.addrOf r) = some r := by
  obtain ⟨hnodup, -⟩ := h
  simp only [List.nodup_cons, List.mem_cons, List.not_mem_nil, or_false, not_or, List.nodup_nil, not_false_eq_true, and_true] at hnodup
  obtain ⟨⟨h1, h2, h3⟩, ⟨h4, h5⟩, h6⟩ := hnodup
  cases r with
  | command => simp [Params.regAt, Params.addrOf]
  | fifoData => simp [Params.regAt, Params.addrOf, Ne.symm h1]
  | fifoLevel => simp [Params.regAt, Params.addrOf, Ne.symm h2, Ne.symm h4]
  | version => simp [Params.regAt, Params.addrOf, Ne.symm h3, Ne.symm h5, Ne.symm h6]

theorem decodeHeader_readHeader {p : Params} (h : p.wf) (r : Reg) : decodeHeader p (p.readHeader r) = .inl (r, true) := by
  simp [decodeHeader, Params.readHeader, headerFields_addrByte, Params.regAt_addrOf h]

theorem decodeHeader_writeHeader {p : Params} (h : p.wf) (r : Reg) : decodeHeader p (p.writeHeader r) = .inl (r, false) := by
  simp [decodeHeader, Params.writeHeader, Params.modeWrite, headerFields_addrByte, Params.regAt_addrOf h]

/-! ### The command of a status byte -/

theorem statusByte_code (c : CommandCode) (pwr rcv : Bool) : (statusByte c pwr rcv).extractLsb' 0 4 = c.num := by
  cases c <;> decide +revert

theorem cmdOf_num (c : CommandCode) : cmdOf c.num = .known c := by cases c <;> rfl

/-- A status byte whose code is cleared is Idle (R82), as the peer answers a poll (R47). -/
theorem isIdle_clearCode (b : Byte) : isIdle (b &&& 0xF0) = true := by
  decide +revert

end Sys2Proof

namespace Sys2Proof.Machine

/-! ### One frame -/

/-- The peer at another count of transactions, which only `fail_at` refers to (R47). -/
def Peer.withCount (p : Peer) (n : Nat) : Peer := { p with count := n }

theorem Peer.read_withCount (p : Peer) (n : Nat) (r : Reg) : (p.withCount n).read r = ((p.read r).1, (p.read r).2.withCount n) := by
  cases r with
  | version | fifoLevel => rfl
  | fifoData =>
    simp only [Peer.read, Peer.withCount]
    split <;> rfl
  | command => by_cases hbusy : p.busyLeft = 0 <;> simp [Peer.read, Peer.withCount, hbusy]

theorem Peer.run_withCount (p : Peer) (n : Nat) (code : BitVec 4) : (p.withCount n).run code = (p.run code).withCount n := by
  unfold Peer.run
  split
  · show (if p.fifo = [] then _ else _) = Peer.withCount (if p.fifo = [] then _ else _) n
    split <;> rfl
  all_goals rfl

theorem Peer.write_withCount (p : Peer) (n : Nat) (r : Reg) (v : Byte) : (p.withCount n).write r v = (p.write r v).withCount n := by
  cases r with
  | version | fifoData => rfl
  | fifoLevel =>
    show (if v.getLsbD 7 then _ else _) = Peer.withCount (if v.getLsbD 7 then _ else _) n
    split <;> rfl
  | command => exact Peer.run_withCount { p with command := v, busyLeft := p.delay0 } n _

theorem Peer.read_failAt (p : Peer) (r : Reg) : (p.read r).2.failAt = p.failAt := by
  cases r with
  | version | fifoLevel => rfl
  | fifoData | command =>
    simp only [Peer.read]
    split <;> rfl

/-- Running a command writes FIFO and memory alone (R47). -/
theorem Peer.run_keeps (p : Peer) (code : BitVec 4) :
    (p.run code).failAt = p.failAt ∧ (p.run code).command = p.command ∧ (p.run code).busyLeft = p.busyLeft := by
  unfold Peer.run
  split
  · split <;> exact ⟨rfl, rfl, rfl⟩
  all_goals exact ⟨rfl, rfl, rfl⟩

theorem Peer.write_command_keeps (p : Peer) (v : Byte) :
    (p.write .command v).failAt = p.failAt ∧ (p.write .command v).command = v ∧ (p.write .command v).busyLeft = p.delay0 :=
  Peer.run_keeps { p with command := v, busyLeft := p.delay0 } _

theorem Peer.write_failAt (p : Peer) (r : Reg) (v : Byte) : (p.write r v).failAt = p.failAt := by
  cases r with
  | version | fifoData => rfl
  | fifoLevel =>
    simp only [Peer.write]
    split <;> rfl
  | command => exact (p.write_command_keeps v).1

/-- A peer that is never busy answers the poll after a command with its code cleared (R47). -/
theorem Peer.read_write_command {p : Peer} (hdelay : p.delay0 = 0) (v : Byte) :
    (p.write .command v).read .command = (v &&& 0xF0, p.write .command v) := by
  obtain ⟨-, hcommand, hbusy⟩ := p.write_command_keeps v
  rw [Peer.read, if_pos (hbusy.trans hdelay), hcommand]

theorem Peer.write_mem (cfg : Params) (p : Peer) :
    p.write .command (commandByte cfg .mem)
      = if p.fifo = [] then
          { p with command := commandByte cfg .mem, busyLeft := p.delay0, fifo := p.memory.toList }
        else
          { p with command := commandByte cfg .mem, busyLeft := p.delay0, memory := bufferOf p.fifo, fifo := [] } := by
  have hcode : cmdOf ((commandByte cfg .mem).extractLsb' 0 4) = .known .mem := by rw [commandByte, statusByte_code, cmdOf_num]
  simp only [Peer.write, Peer.run, hcode]

/-- The outside of a block is this peer, with no failing transaction, and the parameters tell its registers apart (R6, R47). -/
structure Faces (s : State) (p : Peer) : Prop where
  wf : s.cfg.wf
  sound : p.failAt = none
  oracle : ∃ n, s.oracle = .peer (p.withCount n)

/-- Under these parameters the peer answers the calls with these bytes, one each, and is another peer afterwards. -/
def Serves (cfg : Params) (p : Peer) (calls : List BusCall) (bytes : List Byte) (p' : Peer) : Prop :=
  ∀ s : State, s.cfg = cfg → Faces s p → s.replies calls = bytes.map Reply.ok ∧ Faces (s.afterCalls calls) p'

theorem Serves.nil (cfg : Params) (p : Peer) : Serves cfg p [] [] p := fun _ _ h => ⟨rfl, h⟩

theorem Serves.append {cfg : Params} {p q r : Peer} {cs ds : List BusCall} {xs ys : List Byte} (h : Serves cfg p cs xs q)
    (g : Serves cfg q ds ys r) : Serves cfg p (cs ++ ds) (xs ++ ys) r := by
  intro s hcfg hface
  obtain ⟨h1, h2⟩ := h s hcfg hface
  obtain ⟨g1, g2⟩ := g (s.afterCalls cs) (by simpa using hcfg) h2
  exact ⟨by rw [replies_append, h1, g1, List.map_append], by rwa [afterCalls_append]⟩

/-- One call that the peer serves so, whatever its count. -/
theorem Serves.one {cfg : Params} {p p' : Peer} {c : BusCall} {b : Byte} (hsound : p'.failAt = p.failAt)
    (h : cfg.wf → ∀ n, (p.withCount n).serve cfg c = (.ok b, p'.withCount n)) : Serves cfg p [c] [b] p' := by
  rintro s rfl ⟨hwf, hfail, n, horacle⟩
  have hanswer : s.answerOf c = (.ok b, .peer (p'.withCount (n + 1))) := by
    have hn : ¬ (p.withCount n).failAt = some (p.withCount n).count := by simp [Peer.withCount, hfail]
    simp only [State.answerOf, horacle, Peer.answer, if_neg hn, h hwf n]
    rfl
  refine ⟨by simp [State.replies, hanswer], hwf, hsound.trans hfail, n + 1, ?_⟩
  show (s.answerOf c).2 = _
  rw [hanswer]

theorem Serves.read (cfg : Params) (p : Peer) (r : Reg) : Serves cfg p [readCall cfg r] [(p.read r).1] (p.read r).2 :=
  .one (p.read_failAt r) fun hwf n => by
    simp [readCall, Peer.serve, decodeHeader_readHeader hwf, Peer.read_withCount]

theorem Serves.write (cfg : Params) (p : Peer) (r : Reg) (v : Byte) : Serves cfg p [writeCall cfg r v] [0] (p.write r v) :=
  .one (p.write_failAt r v) fun hwf n => by
    simp [writeCall, Peer.serve, decodeHeader_writeHeader hwf, Peer.write_withCount]

/-! ### The frames of an operation -/

/-- FIFO_WR against the peer (R47, R103): the bytes stand behind what the FIFO holds. -/
theorem Serves.fifoWr (cfg : Params) (p : Peer) (data : List Byte) :
    Serves cfg p (data.map (writeCall cfg .fifoData)) (List.replicate data.length 0) { p with fifo := p.fifo ++ data } := by
  induction data generalizing p with
  | nil => simpa using Serves.nil cfg p
  | cons b bs ih => simpa [Peer.write, List.replicate_succ] using (Serves.write cfg p .fifoData b).append (ih _)

/-- Reading the whole FIFO of the peer (R47, R85). -/
theorem Serves.fifoData (cfg : Params) (p : Peer) :
    Serves cfg p (List.replicate p.fifo.length (readCall cfg .fifoData)) p.fifo { p with fifo := [] } := by
  induction hfifo : p.fifo generalizing p with
  | nil =>
    have hempty : { p with fifo := [] } = p := by rw [← hfifo]
    exact hempty.symm ▸ Serves.nil cfg p
  | cons b bs ih =>
    have hread := Serves.read cfg p .fifoData
    simp only [Peer.read, hfifo] at hread
    exact hread.append (ih { p with fifo := bs } rfl)

/-- FIFO_FLUSH against the peer (R47, R98). -/
theorem Serves.flush (cfg : Params) (p : Peer) :
    Serves cfg p [writeCall cfg .fifoLevel flushWord] [0] { p with fifo := [] } := Serves.write cfg p .fifoLevel flushWord

/-- SEND_CMD against a peer that is never busy (R47, R110): the first poll is Idle. -/
theorem Serves.sendCmd (cfg : Params) {p : Peer} (c : CommandCode) (hdelay : p.delay0 = 0) :
    Serves cfg p (sendCalls cfg c 1) [0, commandByte cfg c &&& 0xF0] (p.write .command (commandByte cfg c)) := by
  have hpoll := Serves.read cfg (p.write .command (commandByte cfg c)) .command
  rw [Peer.read_write_command hdelay] at hpoll
  exact (Serves.write cfg p .command (commandByte cfg c)).append hpoll

/-- A FIFO_RD that empties the peer's FIFO (R47, R100): the level byte, then the bytes. -/
theorem Serves.fifoRd (cfg : Params) (p : Peer) :
    Serves cfg p (readCall cfg .fifoLevel :: List.replicate p.fifo.length (readCall cfg .fifoData))
      (levelRowByte p.hi (BitVec.ofNat 7 p.fifo.length) :: p.fifo) { p with fifo := [] } :=
  (Serves.read cfg p .fifoLevel).append (Serves.fifoData cfg p)

/-! ### MEM_WRITE and MEM_READ -/

/-- The one poll that the peer answers is within every budget R6 allows. -/
theorem pollsOk_clearCode {cfg : Params} (hwf : cfg.wf) (b : Byte) : PollsOk cfg [] (b &&& 0xF0) := by
  refine ⟨nofun, isIdle_clearCode b, fun k hk => Nat.pos_of_ne_zero ?_⟩
  rintro rfl
  exact hwf.2 hk

/-- What an operation leaves keeps facing the peer that served its calls. -/
theorem Faces.of_ended {s t : State} {p : Peer} {r : Response} {calls : List BusCall} {replies : List Reply}
    (hface : Faces (s.afterCalls calls) p) (h : Ended s t r calls replies) : Faces t p ∧ t.bound = s.bound := by
  obtain ⟨-, ⟨hcfg, hbound, -⟩, -, -, horacle⟩ := h
  refine ⟨⟨?_, hface.sound, horacle ▸ hface.oracle⟩, hbound⟩
  simpa [hcfg] using hface.wf

/-- MEM_WRITE against a peer with an empty FIFO that is never busy (R113): the payload is in its memory, and the FIFO empty again. -/
theorem memWrite_peer {s : State} {p : Peer} (d : Byte) (payload : Buffer) (hb : s.bound = true) (hface : Faces s p)
    (hfifo : p.fifo = []) (hdelay : p.delay0 = 0) :
    ∃ t, exec (.memWrite d payload) s = .next t ∧ t.bound = true
      ∧ Faces t { p with memory := payload, command := commandByte s.cfg .mem, busyLeft := p.delay0 } := by
  have hfull : payload.toList ≠ [] := by simp
  have hserves := (Serves.fifoWr s.cfg p payload.toList).append (Serves.sendCmd s.cfg .mem hdelay)
  simp only [Peer.write_mem, hfifo, List.nil_append, if_neg hfull, bufferOf_toList] at hserves
  obtain ⟨hreplies, hface'⟩ := hserves s rfl hface
  rw [List.map_append] at hreplies
  obtain ⟨t, ⟨u, hu, htu⟩, hended, -⟩ :=
    memWrite_run d 0 payload hb (by simp) (pollsOk_clearCode hface.wf _) (by simp) hreplies
  cases htu
  obtain ⟨hface'', hbound⟩ := Faces.of_ended hface' hended
  exact ⟨t, hu, hbound.trans hb, by rwa [hfifo]⟩

/-- MEM_READ against a peer that is never busy (R114): the 25 bytes of its memory. -/
theorem memRead_peer {s : State} {p : Peer} (hb : s.bound = true) (hface : Faces s p) (hdelay : p.delay0 = 0) :
    ∃ t, exec .memRead s = .next t ∧ t.resp = some (.ok (.command (.bytesRead 25)) (some 25)) ∧ t.ans = p.memory := by
  have hlength : p.memory.toList.length = 25 := by simp
  have hlevel : (levelOf (levelRowByte p.hi (BitVec.ofNat 7 p.memory.toList.length))).toNat = p.memory.toList.length := by
    rw [(levelRowByte_fields _ _).2, hlength]
    rfl
  have hsend := (Serves.flush s.cfg p).append (Serves.sendCmd s.cfg .mem hdelay)
  rw [Peer.write_mem, if_pos rfl] at hsend
  obtain ⟨hreplies, -⟩ := (hsend.append (Serves.fifoRd s.cfg _)) s rfl hface
  obtain ⟨t, ⟨u, hu, htu⟩, ⟨⟨-, -, -, hresp⟩, -⟩, hans, -⟩ :=
    memRead_run 0 0 hb (by simp) (pollsOk_clearCode hface.wf _) hlevel hlength.le hreplies
  cases htu
  refine ⟨t, hu, by rw [hresp, hlength], Vector.toList_inj.1 ?_⟩
  rw [hans, List.drop_of_length_le (by simp), List.append_nil]

/-- Settles O59: the payload goes through the peer's FIFO to its memory, and the memory through the FIFO to the answer buffer. -/
theorem peerRoundTrip : Obligations.PeerRoundTrip := by
  intro s peer d payload hb hwf horacle hfifo hfail hdelay
  obtain ⟨t, ht, htb, hface⟩ := memWrite_peer d payload hb ⟨hwf, hfail, peer.count, horacle⟩ hfifo hdelay
  obtain ⟨n, hpeer⟩ := hface.oracle
  obtain ⟨u, hu, hresp, hans⟩ := memRead_peer htb hface hdelay
  exact ⟨t, u, _, ht, hpeer, rfl, hfifo, hu, hresp, hans⟩

end Sys2Proof.Machine

/-! The encodings in both directions (O56, O57, O58). What decodes to a row is said format by format: bytes of a format are exactly the
encoding of the one row they stand for (`Encodes`). -/

namespace Sys2Proof

/-! ### Text lines (R130 to R132) -/

/-- The tokens behind a command name hold no ':' byte (R130, R141). -/
def TextArgs.tokensOk : TextArgs → Bool
  | .simple => true
  | .complex lenTok none => tokenOk lenTok
  | .complex lenTok (some dataTok) => tokenOk lenTok && tokenOk dataTok

theorem textArgsOk_iff (c : TextCommand) (args : TextArgs) :
    textArgsOk c args = true ↔ args.tokensOk = true ∧ utf8Valid (lineOf c args) = true := by
  rw [← Bool.and_eq_true]
  rfl

theorem tokenOk_iff (tok : List Byte) : tokenOk tok = true ↔ colon ∉ tok := by
  simp [tokenOk]

theorem lineParts_lineOf (c : TextCommand) {args : TextArgs} (h : args.tokensOk = true) :
    lineParts (lineOf c args) = some (c.name, args) := by
  have hname := name_noColon c
  match args, h with
  | .simple, _ => rw [lineParts, lineOf, splitColon_single hname]
  | .complex lenTok none, h =>
    rw [lineParts, lineOf, splitColon_append _ hname, splitColon_single ((tokenOk_iff _).1 h)]
  | .complex lenTok (some dataTok), h =>
    obtain ⟨hlen, hdata⟩ := (Bool.and_eq_true _ _).mp h
    rw [lineParts, lineOf, splitColon_append _ hname, splitColon_append _ ((tokenOk_iff _).1 hlen),
      splitColon_single ((tokenOk_iff _).1 hdata)]

theorem noColon_of_mem_splitColon {l f : List Byte} (h : f ∈ splitColon l) : colon ∉ f := by
  induction l generalizing f with
  | nil => simp_all [splitColon]
  | cons c cs ih =>
    by_cases hc : c = colon
    · rw [splitColon, if_pos hc] at h
      rcases List.mem_cons.mp h with rfl | h
      · simp
      · exact ih h
    · rw [splitColon, if_neg hc] at h
      cases hs : splitColon cs with
      | nil => simp_all [Ne.symm hc]
      | cons g gs =>
        simp only [hs, List.mem_cons] at h ih
        rcases h with rfl | h
        · simpa [Ne.symm hc] using ih (.inl rfl)
        · exact ih (.inr h)

/-- The fields of a line, joined by ':' bytes, are the line (R132). -/
theorem intercalate_splitColon (l : List Byte) : [colon].intercalate (splitColon l) = l := by
  induction l with
  | nil => rfl
  | cons c cs ih =>
    rw [splitColon]
    cases hs : splitColon cs with
    | nil => simpa [hs] using splitColon_length cs
    | cons f fs =>
      rw [hs] at ih
      split
      · simp [*]
      · cases fs <;> simp_all

theorem lineParts_inv {line name : List Byte} {args : TextArgs} (h : lineParts line = some (name, args)) :
    args.tokensOk = true ∧ ∀ c : TextCommand, name = c.name → line = lineOf c args := by
  have hjoin := intercalate_splitColon line
  have hcolon := @noColon_of_mem_splitColon line
  unfold lineParts at h
  split at h <;> cases h
  all_goals next hfields =>
    rw [hfields] at hjoin hcolon
    refine ⟨?_, fun c hc => ?_⟩
    · simp_all [TextArgs.tokensOk, tokenOk_iff]
    · simp_all [lineOf]

theorem decodeText_lineOf {c : TextCommand} {args : TextArgs} (h : textArgsOk c args = true) :
    decodeText (lineOf c args) = .instr (textRow c args) := by
  obtain ⟨htokens, hutf8⟩ := (textArgsOk_iff c args).1 h
  simp [decodeText, hutf8, lineParts_lineOf c htokens, resolve_name]

theorem decodeText_inv {line : List Byte} {i : Instr} (h : decodeText line = .instr i) :
    ∃ c args, i = textRow c args ∧ line = lineOf c args ∧ textArgsOk c args = true := by
  unfold decodeText at h
  split at h <;> [rename_i hutf8; cases h]
  split at h <;> [cases h; rename_i name args hparts]
  split at h <;> cases h
  rename_i c hresolve
  obtain ⟨htokens, hline⟩ := lineParts_inv hparts
  have hline := hline c (resolve_inl hresolve)
  exact ⟨c, args, rfl, hline, (textArgsOk_iff c args).2 ⟨htokens, hline ▸ hutf8⟩⟩

/-! ### Headers (R51, R72, R74) -/

/-- An even byte is the header of its mode bit and its address (R72). -/
theorem addrByte_of_even {ab : Byte} (h : ab.getLsbD 0 = false) : addrByte (ab.getLsbD 7) (ab.extractLsb' 1 6).toNat = ab := by
  decide +revert

theorem addrByte_of_headerFields {ab : Byte} {m : Bool} {a : BitVec 6} (h : headerFields ab = some (m, a)) :
    addrByte m a.toNat = ab := by
  unfold headerFields at h
  split at h <;> cases h
  next heven => exact addrByte_of_even (by simpa using heven)

theorem Params.addrOf_of_regAt {p : Params} {a : BitVec 6} {r : Reg} (h : p.regAt a = some r) : p.addrOf r = a := by
  unfold Params.regAt at h
  repeat' split at h
  all_goals cases h
  all_goals exact Eq.symm ‹_›

/-- The header of a frame of this direction on a register. -/
def Params.header (p : Params) (r : Reg) (read : Bool) : Byte := if read then p.readHeader r else p.writeHeader r

theorem header_of_decodeHeader {p : Params} {ab : Byte} {r : Reg} {read : Bool} (h : decodeHeader p ab = .inl (r, read)) :
    p.header r read = ab := by
  unfold decodeHeader at h
  split at h <;> [cases h; rename_i m a hfields]
  split at h <;> cases h
  rename_i hreg
  rw [← addrByte_of_headerFields hfields, ← Params.addrOf_of_regAt hreg]
  by_cases hm : m = p.modeRead
  · simp [hm, Params.header, Params.readHeader]
  · have hm := Bool.eq_not_of_ne hm
    simp [hm, Params.header, Params.writeHeader, Params.modeWrite]

theorem decodeHeader_header {p : Params} (h : p.wf) (r : Reg) (read : Bool) : decodeHeader p (p.header r read) = .inl (r, read) := by
  cases read with
  | true => exact decodeHeader_readHeader h r
  | false => exact decodeHeader_writeHeader h r

theorem decode_header {p : Params} (h : p.wf) (r : Reg) (read : Bool) :
    decode p .address [p.header r read] = .instr (addressRow r read) := by
  simp [decode, decodeByte, decodeHeader_header h]

/-! ### Version bytes (R54, R116) -/

theorem verClass_of_ne {b : Byte} (h1 : b ≠ 0x91) (h2 : b ≠ 0x92) : verClass b = .unknown b := by
  rw [verClass, if_neg h1, if_neg h2]

theorem versionRow_of_ne {b : Byte} (h1 : b ≠ 0x91) (h2 : b ≠ 0x92) : versionRow b = .vUnknown b := by
  rw [versionRow, verClass_of_ne h1 h2]

/-! ### An encoding decodes to what it encodes -/

theorem decode_request_of_fields (p : Params) {r : Request} {i : Instr} (h : decodeFields r = i) :
    decode p .request r.bytes = .instr i := by
  rw [decode_request, h]

/-- Settles O56: format by format, the fields an encoding lays out are the fields the decoder reads. -/
theorem decodeEncode : Obligations.DecodeEncode := by
  intro p i hp hi
  cases i with
  | addrEnc m a =>
    have ha : (BitVec.ofNat 6 a).toNat = a := Nat.mod_eq_of_lt (Nat.lt_succ_of_le (of_decide_eq_true hi))
    exact decode_request_of_fields p (congrArg (Instr.addrEnc m) ha)
  | regRd reg n => exact decode_request_of_fields p (congrArg (Instr.regRd · n) reg.ofCode_code)
  | regWr reg v => exact decode_request_of_fields p (congrArg (Instr.regWr · v) reg.ofCode_code)
  | statEnc | statDec | fifoLvl | fifoFlush | fifoRd | fifoWr | sendCmd | memWrite | memRead | getVersion | genRandId | verCls
  | reservedOp => exact decode_request_of_fields p rfl
  | parseMemRead args => exact decodeText_lineOf (c := .memRead) hi
  | parseMemWrite args => exact decodeText_lineOf (c := .memWrite) hi
  | parseGetVersion args => exact decodeText_lineOf (c := .getVersion) hi
  | parseGenRandId args => exact decodeText_lineOf (c := .genRandId) hi
  | aCommandRead => exact decode_header hp .command true
  | aCommandWrite => exact decode_header hp .command false
  | aFifoDataRead => exact decode_header hp .fifoData true
  | aFifoDataWrite => exact decode_header hp .fifoData false
  | aFifoLevelRead => exact decode_header hp .fifoLevel true
  | aFifoLevelWrite => exact decode_header hp .fifoLevel false
  | aVersionRead => exact decode_header hp .version true
  | aVersionWrite => exact decode_header hp .version false
  | sIdle | sMem | sGenerateRandomId | sCalcCrc | sTransmit | sNoCmdChange | sReceive | sTransceive | sMfAuthent | sSoftReset
  | sUnknown5 | sUnknown6 | sUnknown9 | sUnknown10 | sUnknown11 | sUnknown13 =>
    simp [encode, decode, decodeByte, statusRow, statusRowByte_fields]
  | lFlush | vVersion1 | vVersion2 => rfl
  | lLevel x n =>
    obtain ⟨hbit, hlevel⟩ := levelRowByte_fields x n
    exact congrArg₂ (fun x n => Decoded.instr (.lLevel x n)) hbit hlevel
  | vUnknown b =>
    obtain ⟨h1, h2⟩ := of_decide_eq_true hi
    exact congrArg Decoded.instr (versionRow_of_ne h1 h2)
  | readFrame r => simp [encode, decode, decodeFrame, decodeHeader_readHeader hp]
  | writeFrame r d => simp [encode, decode, decodeFrame, decodeHeader_writeHeader hp]

/-! ### What decodes is the encoding of what it decodes to -/

/-- The bytes are the encoding of this well-formed row. -/
def Encodes (p : Params) (f : Format) (bytes : List Byte) (i : Instr) : Prop :=
  encode p i = (f, bytes) ∧ i.wellFormed = true

theorem encodes_textRow (p : Params) {c : TextCommand} {args : TextArgs} (h : textArgsOk c args = true) :
    Encodes p .text (lineOf c args) (textRow c args) := by
  cases c <;> exact ⟨rfl, h⟩

theorem encodes_addressRow (p : Params) (r : Reg) (read : Bool) : Encodes p .address [p.header r read] (addressRow r read) := by
  cases r <;> cases read <;> exact ⟨rfl, rfl⟩

/-- The row of a status byte is that of its code, and its other fields are the byte's (R52). -/
theorem encodes_statusRow (p : Params) (b : Byte) : Encodes p .status [b] (statusRow b) := by
  have hrow {i : Instr} (code : BitVec 4) (hcode : (b.extractLsb' 0 4).toNat = code.toNat)
      (h : Encodes p .status [statusRowByte (b.extractLsb' 6 2) (rcvOf b) (pwrOf b) code] i) : Encodes p .status [b] i := by
    rwa [← BitVec.eq_of_toNat_eq hcode, statusRowByte_of_fields] at h
  unfold statusRow
  dsimp only
  split
  case h_16 =>
    have hlt := (b.extractLsb' 0 4).isLt
    simp only [imp_false] at *
    exact hrow 15 (by change _ = 15; omega) ⟨rfl, rfl⟩
  all_goals exact hrow _ ‹_› ⟨rfl, rfl⟩

theorem encodes_versionRow (p : Params) (b : Byte) : Encodes p .version [b] (versionRow b) := by
  by_cases h1 : b = 0x91
  · subst h1; exact ⟨rfl, rfl⟩
  by_cases h2 : b = 0x92
  · subst h2; exact ⟨rfl, rfl⟩
  rw [versionRow_of_ne h1 h2]
  exact ⟨rfl, decide_eq_true ⟨h1, h2⟩⟩

theorem encodes_of_decodeByte {p : Params} {f : Format} {b : Byte} {i : Instr} (h : decodeByte p f b = .instr i) :
    Encodes p f [b] i := by
  cases f with
  | request | text | frame => cases h
  | address =>
    simp only [decodeByte] at h
    split at h <;> cases h
    rename_i r read hheader
    rw [← header_of_decodeHeader hheader]
    exact encodes_addressRow p r read
  | status => cases h; exact encodes_statusRow p b
  | levelWritten =>
    simp only [decodeByte] at h
    split at h <;> cases h
    next hflush => exact ⟨by rw [hflush]; rfl, rfl⟩
  | levelRead => cases h; exact ⟨by rw [encode, levelRowByte_of_fields], rfl⟩
  | version => cases h; exact encodes_versionRow p b

theorem encodes_of_decodeFrame {p : Params} {tx : List Byte} {i : Instr} (h : decodeFrame p tx = .instr i) :
    Encodes p .frame tx i := by
  unfold decodeFrame at h
  split at h
  case h_3 => cases h
  all_goals
    split at h <;> cases h
    rename_i hheader
    rw [← header_of_decodeHeader hheader]
    exact ⟨rfl, rfl⟩

/-- Settles O57: each format's decoder answers a row only for the bytes that encode it. -/
theorem encodeDecode : Obligations.EncodeDecode := by
  intro p f bytes i hf h
  show Encodes p f bytes i
  cases f with
  | request => exact absurd rfl hf
  | text =>
    obtain ⟨c, args, rfl, rfl, hargs⟩ := decodeText_inv h
    exact encodes_textRow p hargs
  | frame => exact encodes_of_decodeFrame h
  | address | status | levelWritten | levelRead | version =>
    match bytes, h with
    | [b], h => exact encodes_of_decodeByte h

/-- Settles O58: each word is a closed one, which the decoder evaluates. -/
theorem decodeWords : Obligations.DecodeWords := by
  unfold Obligations.DecodeWords
  decide

end Sys2Proof

/-! What answers at once (O10, O32): a request that is refused for an operand and a row of format S have no effect but the response
(`answersOnly_finish`). -/

namespace Sys2Proof.Machine

theorem answersOnly_finish (s : State) (r : Response) : AnswersOnly s (s.finish r) r :=
  ⟨endsWith_finish s r, KeepsOutside.finish s r, rfl, rfl, rfl, rfl, rfl⟩

/-! ### Rows of format S (R52, R75, R77, R78) -/

theorem statusByte_toNat (c : CommandCode) (pwr rcv : Bool) :
    (statusByte c pwr rcv).toNat = 32 * bitNat rcv + 16 * bitNat pwr + c.num.toNat := by
  cases c <;> decide +revert

theorem statusRowValue_eq (rsv : BitVec 2) (rcv pwr : Bool) (c : CommandCode) :
    statusRowValue rsv rcv pwr c = .status (statusByte c pwr rcv) rcv pwr (.known c) := by
  simp [statusRowValue, cmdField, statusRowByte_fields, cmdOf_num]

theorem reservedRowValue_eq (rsv : BitVec 2) (rcv pwr : Bool) (code : BitVec 4) :
    reservedRowValue rsv rcv pwr code = .decoded rcv pwr (cmdOf code) := by
  simp [reservedRowValue, cmdField, statusRowByte_fields]

theorem statusRow_answers (rsv : BitVec 2) (rcv pwr : Bool) (s : State) (c : CommandCode) : ∃ t b,
    answer (statusRowValue rsv rcv pwr c) s = .next t ∧ AnswersOnly s t (.ok (.status b rcv pwr (.known c)) none)
      ∧ b.toNat = 32 * bitNat rcv + 16 * bitNat pwr + c.num.toNat :=
  ⟨_, _, rfl, by rw [statusRowValue_eq]; exact answersOnly_finish s _, statusByte_toNat c pwr rcv⟩

theorem reservedRow_answers (rsv : BitVec 2) (rcv pwr : Bool) (s : State) {code : BitVec 4} (h : cmdOf code = .unknown code) :
    ∃ t, answer (reservedRowValue rsv rcv pwr code) s = .next t
      ∧ AnswersOnly s t (.ok (.decoded rcv pwr (.unknown code)) none) :=
  ⟨_, rfl, by rw [reservedRowValue_eq, h]; exact answersOnly_finish s _⟩

/-- Settles O10: every row of format S is one of two meanings, by whether its code is a defined one. -/
theorem statusRowsComplete : Obligations.StatusRowsComplete := by
  intro rsv rcv pwr s row reserved
  have hrow := statusRow_answers rsv rcv pwr s
  have hreserved {code : BitVec 4} := @reservedRow_answers rsv rcv pwr s code
  exact ⟨hrow .idle, hrow .mem, hrow .generateRandomId, hrow .calcCrc, hrow .transmit, hrow .noCmdChange, hrow .receive,
    hrow .transceive, hrow .mfAuthent, hrow .softReset, hreserved rfl, hreserved rfl, hreserved rfl, hreserved rfl,
    hreserved rfl, hreserved rfl⟩

/-! ### Refused operands (R59, R75, R159) -/

theorem cmdOf_of_not_isDefinedCode {code : BitVec 4} (h : isDefinedCode code = false) : ∃ x, cmdOf code = .unknown x := by
  unfold isDefinedCode at h
  split at h
  · cases h
  · exact ⟨_, ‹_›⟩

/-- A request with an operand its operation does not take fails before anything else. -/
theorem exec_of_operandRefusal {i : Instr} {f : Failure} (h : operandRefusal i = some f) (s : State) :
    exec i s = .next (s.failed f) := by
  unfold operandRefusal at h
  split at h
  case h_5 => cases h
  all_goals split at h <;> cases h
  · obtain ⟨x, hx⟩ := cmdOf_of_not_isDefinedCode (Bool.eq_false_iff.2 ‹_›)
    simp [exec, execStatEnc, hx, reject]
  · obtain ⟨x, hx⟩ := cmdOf_of_not_isDefinedCode (Bool.eq_false_iff.2 ‹_›)
    simp [exec, execSendCmd, hx, reject]
  · exact if_neg ‹_›
  · exact if_neg ‹_›

/-- Settles O32: the operands named are those `operandRefusal` refuses. -/
theorem operandRefusals : Obligations.OperandRefusals := by
  intro s refuses
  have hrefuses {i : Instr} {f : Failure} (h : operandRefusal i = some f) : refuses i f :=
    ⟨_, exec_of_operandRefusal h s, answersOnly_finish s _⟩
  have hreserved : ∀ code ∈ [(5 : BitVec 4), 6, 9, 10, 11, 13], isDefinedCode code = false := by decide
  refine ⟨fun code hcode => ?_, fun n hn => ?_⟩
  · have hundefined := hreserved code hcode
    exact ⟨fun pwr rcv => hrefuses (by simp [operandRefusal, hundefined]), hrefuses (by simp [operandRefusal, hundefined])⟩
  · have hover : ¬n.toNat ≤ 25 := by omega
    exact ⟨fun r => hrefuses (by simp [operandRefusal, hover]), fun data => hrefuses (by simp [operandRefusal, hover])⟩

end Sys2Proof.Machine

/-! A step of a free block with one request that waits (O49). -/

namespace Sys2Proof.Machine

/-- A free block serves the one input that waits, a reset included. -/
theorem step_of_held_single {s : State} {h : Held} (hfree : s.owned = false) (hheld : s.held = [h]) :
    step s = serve h.src h.ev (s.take h) := by
  have hfirst : firstOfEach s.held = [h] := by rw [hheld]; rfl
  by_cases hr : h.isReset = true <;> simp [step, State.resetNow, State.nextHeld, hfirst, hfree, hr]

theorem runBytes_of_decode {s : State} {f : Format} {bytes : List Byte} {i : Instr} (h : decode s.cfg f bytes = .instr i) :
    runBytes f bytes s = exec i s := by
  simp [runBytes, h]

theorem take_request {s : State} {src : Nat} {f : Format} {bytes : List Byte} (hheld : s.held = [⟨src, .request f bytes⟩]) :
    s.take ⟨src, .request f bytes⟩
      = { s.turnTo (if f = .text then s.owner else src) with held := [], tick := s.tick + 1, parsed := none } := by
  simp [State.take, State.turnFor, Held.isText, hheld, dropFirst]

theorem step_of_held_request {s : State} {src : Nat} {f : Format} {bytes : List Byte} {i : Instr} (hfree : s.owned = false)
    (hheld : s.held = [⟨src, .request f bytes⟩]) (hdecode : decode s.cfg f bytes = .instr i) :
    step s = exec i { s.turnTo (if f = .text then s.owner else src) with held := [], tick := s.tick + 1, parsed := none } := by
  rw [step_of_held_single hfree hheld, ← take_request hheld]
  exact runBytes_of_decode hdecode

theorem decode_of_decodeTableWord {nbits w : Nat} {i : Instr} (h : decodeTableWord nbits w = some i) :
    decode Config.params (tableFormat nbits w) (tableBytes (tableFormat nbits w) w) = .instr i := by
  unfold decodeTableWord at h
  split at h <;> cases h
  assumption

/-- Settles O49: the one request that waits is served, and a word of the table is placed as such a request. -/
theorem stepRunsDecodedRequest : Obligations.StepRunsDecodedRequest := by
  refine ⟨fun s src f bytes i => step_of_held_request, fun s nbits w i hcfg hword => ?_⟩
  have hdecode : decode (s.withFetchWord nbits w).cfg _ _ = .instr i := hcfg ▸ decode_of_decodeTableWord hword
  exact step_of_held_request rfl rfl hdecode

end Sys2Proof.Machine

/-! The address-byte encoder (O1 to O4): the byte of ADDR_ENC as a number (`addrByte_toNat`) and as the two fields it was made of
(`headerFields_addrByte_nat`), from which its bits, its inverse and the answers of the rows follow. -/

namespace Sys2Proof

/-! ### The address byte as a number (R70) -/

/-- The mode and the masked address do not overlap, so that ADDR_ENC adds them (R70). -/
theorem addrByte_toNat (m : Bool) (a : Nat) : (addrByte m a).toNat = 128 * bitNat m + 2 * (a % 64) := by
  have hmask : a &&& 0x3F = a % 64 := Nat.and_two_pow_sub_one_eq_mod a 6
  have haddress : (a % 64) <<< 1 = 2 * (a % 64) := by rw [Nat.shiftLeft_eq, Nat.mul_comm]
  have hmode : bitNat m <<< 7 = 128 * bitNat m := by rw [Nat.shiftLeft_eq, Nat.mul_comm]
  have hdisjoint : bitNat m <<< 7 ||| 2 * (a % 64) = bitNat m <<< 7 + 2 * (a % 64) :=
    (Nat.shiftLeft_add_eq_or_of_lt (by omega) (bitNat m)).symm
  have hm : bitNat m ≤ 1 := Bool.toNat_le m
  rw [addrByte, hmask, haddress, hdisjoint, hmode, BitVec.toNat_ofNat, Nat.mod_eq_of_lt (by omega)]

theorem addrByte_toNat_bitVec (m : Bool) (a : BitVec 6) : (addrByte m a.toNat).toNat = 128 * bitNat m + 2 * a.toNat := by
  rw [addrByte_toNat, Nat.mod_eq_of_lt a.isLt]

/-! ### The fields of an address byte (R71, R72) -/

theorem headerFields_eq_some_iff {ab : Byte} {m : Bool} {a : BitVec 6} :
    headerFields ab = some (m, a) ↔ ab.getLsbD 0 = false ∧ ab.getLsbD 7 = m ∧ ab.extractLsb' 1 6 = a := by
  unfold headerFields
  cases ab.getLsbD 0 <;> simp

theorem headerFields_addrByte_nat (m : Bool) {a : Nat} (ha : a ≤ 0x3F) :
    headerFields (addrByte m a) = some (m, BitVec.ofNat 6 a) := by
  have h := headerFields_addrByte m (BitVec.ofNat 6 a)
  rwa [BitVec.toNat_ofNat, Nat.mod_eq_of_lt (by omega)] at h

/-- The fields of the byte tell mode and address, so ADDR_ENC is injective (R72). -/
theorem addrByte_injective {m m' : Bool} {a a' : Nat} (ha : a ≤ 0x3F) (ha' : a' ≤ 0x3F) (h : addrByte m a = addrByte m' a') :
    m = m' ∧ a = a' := by
  have hfields : some (m, BitVec.ofNat 6 a) = some (m', BitVec.ofNat 6 a') := by
    rw [← headerFields_addrByte_nat m ha, h, headerFields_addrByte_nat m' ha']
  obtain ⟨hm, haddress⟩ := Prod.mk.inj (Option.some.inj hfields)
  have hmod : a % 64 = a' % 64 := congrArg BitVec.toNat haddress
  exact ⟨hm, by omega⟩

/-- Settles O3: a header is an address byte, whose fields name direction and register. -/
theorem addressByteInverse : Obligations.AddressByteInverse :=
  ⟨fun _ _ _ _ => addrByte_injective, fun m _ => headerFields_addrByte_nat m, fun _ => addrByte_of_even,
    fun _ r hp => ⟨decodeHeader_readHeader hp r, decodeHeader_writeHeader hp r⟩⟩

end Sys2Proof

namespace Sys2Proof.Machine

/-! ### ADDR_ENC and the rows of format A (R70, R74) -/

/-- ADDR_ENC answers its byte and does nothing else (R70). -/
theorem exec_addrEnc (m : Bool) (a : Nat) (s : State) :
    exec (.addrEnc m a) s = .next (s.finish (.ok (.byte (addrByte m a)) none)) := rfl

/-- Settles O1: ADDR_ENC finishes with its byte, a sum of mode and address. -/
theorem addrEncCompletes : Obligations.AddrEncCompletes :=
  fun m a s => ⟨_, _, exec_addrEnc m a s, answersOnly_finish s _, addrByte_toNat m a⟩

/-- Settles O2: the three properties are those of the fields of the byte. -/
theorem addressByteBits : Obligations.AddressByteBits := by
  intro m a s ha
  obtain ⟨heven, hmode, haddress⟩ := headerFields_eq_some_iff.1 (headerFields_addrByte_nat m ha)
  refine ⟨_, _, exec_addrEnc m a s, rfl, heven, hmode, ?_⟩
  rw [haddress, BitVec.toNat_ofNat, Nat.mod_eq_of_lt (by omega)]

/-- A row of format A answers the header of its register and direction, and does nothing else (R74; log 8). -/
theorem exec_addressRow (r : Reg) (read : Bool) (s : State) :
    exec (addressRow r read) s = .next (s.finish (.ok (.byte (s.cfg.header r read)) none)) := by
  cases r <;> cases read <;> rfl

theorem header_toNat (p : Params) (r : Reg) (read : Bool) :
    (p.header r read).toNat = 128 * bitNat (if read then p.modeRead else p.modeWrite) + 2 * (p.addrOf r).toNat := by
  cases read with
  | true => exact addrByte_toNat_bitVec p.modeRead (p.addrOf r)
  | false => exact addrByte_toNat_bitVec p.modeWrite (p.addrOf r)

/-- Settles O4: each of the eight rows is the row of a register and a direction. -/
theorem addressRowsComplete : Obligations.AddressRowsComplete := by
  intro s row
  have hrow (r : Reg) (read : Bool) :
      row (addressRow r read) (if read then s.cfg.modeRead else s.cfg.modeWrite) (s.cfg.addrOf r) :=
    ⟨_, _, exec_addressRow r read s, answersOnly_finish s _, header_toNat s.cfg r read⟩
  exact ⟨hrow .command true, hrow .command false, hrow .fifoData true, hrow .fifoData false, hrow .fifoLevel true,
    hrow .fifoLevel false, hrow .version true, hrow .version false⟩

end Sys2Proof.Machine

/-! The command/status codec (O5 to O9): a 4-bit code is the number of a command or one of the six reserved values (`cmdOf_cases`), and
the status byte of a defined code is the byte of its fields with bits 7 and 6 clear (`statusByte_eq_statusRowByte`), so that the codec's
laws are those of the fields of a byte. -/

namespace Sys2Proof

/-! ### The command codes (R83) -/

theorem CommandCode.num_injective {c d : CommandCode} (h : c.num = d.num) : c = d :=
  DecodedCode.known.inj (by rw [← cmdOf_num c, h, cmdOf_num])

/-- What `cmd_of` can answer (R83). -/
theorem cmdOf_cases (code : BitVec 4) :
    (∃ c : CommandCode, c.num = code ∧ cmdOf code = .known c)
      ∨ (code ∈ [(5 : BitVec 4), 6, 9, 10, 11, 13] ∧ cmdOf code = .unknown code) := by
  by_cases hreserved : code ∈ [(5 : BitVec 4), 6, 9, 10, 11, 13]
  · right
    decide +revert
  · left
    have hknown : ∃ c ∈ [CommandCode.idle, .mem, .generateRandomId, .calcCrc, .transmit, .noCmdChange, .receive, .transceive,
        .mfAuthent, .softReset], c.num = code := by decide +revert
    obtain ⟨c, -, rfl⟩ := hknown
    exact ⟨c, rfl, cmdOf_num c⟩

theorem num_of_cmdOf_eq_known {code : BitVec 4} {c : CommandCode} (h : cmdOf code = .known c) : c.num = code := by
  obtain ⟨d, hd, hcode⟩ | ⟨-, hcode⟩ := cmdOf_cases code
  · rwa [← DecodedCode.known.inj (hcode.symm.trans h)]
  · cases hcode.symm.trans h

theorem eq_of_cmdOf_eq_unknown {code x : BitVec 4} (h : cmdOf code = .unknown x) : x = code := by
  obtain ⟨d, -, hcode⟩ | ⟨-, hcode⟩ := cmdOf_cases code
  · cases hcode.symm.trans h
  · exact (DecodedCode.unknown.inj (hcode.symm.trans h)).symm

/-- Settles O5: `cmd_of` undoes `num`, and `cmdOf_cases` says what the other values are. -/
theorem commandCodeTable : Obligations.CommandCodeTable := by
  refine ⟨rfl, rfl, rfl, rfl, rfl, rfl, rfl, rfl, rfl, rfl, fun _ _ => CommandCode.num_injective, cmdOf_num, fun code => ?_, ?_⟩
  · exact (cmdOf_cases code).imp (fun ⟨c, hc, _⟩ => ⟨c, hc⟩) And.left
  · decide

/-! ### The fields of a status byte (R58, R75, R77) -/

theorem rcvOf_eq_decide (b : Byte) : rcvOf b = decide (b.toNat / 32 % 2 = 1) := Nat.testBit_eq_decide_div_mod_eq

theorem pwrOf_eq_decide (b : Byte) : pwrOf b = decide (b.toNat / 16 % 2 = 1) := Nat.testBit_eq_decide_div_mod_eq

theorem cmdField_eq_cmdOf_mod (b : Byte) : cmdField b = cmdOf (BitVec.ofNat 4 (b.toNat % 16)) :=
  congrArg cmdOf (BitVec.eq_of_toNat_eq (by simp))

/-- The Idle test is on bits 3 to 0 alone (R82). -/
theorem isIdle_iff (b : Byte) : isIdle b = true ↔ b.toNat % 16 = 0 := by
  have hnum : cmdField b = .known .idle ↔ b.extractLsb' 0 4 = 0 :=
    ⟨fun h => (num_of_cmdOf_eq_known h).symm, fun h => congrArg cmdOf h⟩
  rw [isIdle, decide_eq_true_iff, hnum, ← BitVec.toNat_inj]
  simp

/-- STAT_ENC writes bits 7 and 6 as 0 (R75, R76). -/
theorem statusByte_eq_statusRowByte (c : CommandCode) (pwr rcv : Bool) : statusByte c pwr rcv = statusRowByte 0 rcv pwr c.num := by
  simpa [statusRowByte] using congrArg (BitVec.ofNat 8) (Machine.statusByte_toNat c pwr rcv)

theorem rcvOf_statusByte (c : CommandCode) (pwr rcv : Bool) : rcvOf (statusByte c pwr rcv) = rcv := by
  simp [statusByte_eq_statusRowByte, statusRowByte_fields]

theorem pwrOf_statusByte (c : CommandCode) (pwr rcv : Bool) : pwrOf (statusByte c pwr rcv) = pwr := by
  simp [statusByte_eq_statusRowByte, statusRowByte_fields]

theorem cmdField_statusByte (c : CommandCode) (pwr rcv : Bool) : cmdField (statusByte c pwr rcv) = .known c := by
  rw [cmdField, statusByte_code, cmdOf_num]

/-- Bits 5 to 0 of a byte, put back in their places, are the byte with bits 7 and 6 cleared. -/
theorem statusRowByte_zero_of_fields (b : Byte) : statusRowByte 0 (rcvOf b) (pwrOf b) (b.extractLsb' 0 4) = b &&& 0x3F := by
  decide +revert

/-- STAT_ENC of the fields of a byte whose code is defined (R80). -/
theorem statusByte_of_cmdField {b : Byte} {c : CommandCode} (h : cmdField b = .known c) :
    statusByte c (pwrOf b) (rcvOf b) = b &&& 0x3F := by
  rw [statusByte_eq_statusRowByte, num_of_cmdOf_eq_known h, statusRowByte_zero_of_fields]

/-- The fixed points of clearing bits 7 and 6 (R80). -/
theorem and_0x3F_eq_self_iff (b : Byte) : b &&& 0x3F = b ↔ b.getLsbD 7 = false ∧ b.getLsbD 6 = false := by
  decide +revert

end Sys2Proof

namespace Sys2Proof.Machine

/-! ### STAT_ENC and STAT_DEC (R75, R77) -/

/-- STAT_DEC answers the fields of its byte and does nothing else (R77). -/
theorem exec_statDec (b : Byte) (s : State) :
    exec (.statDec b) s = .next (s.finish (.ok (.decoded (rcvOf b) (pwrOf b) (cmdField b)) none)) := rfl

/-- STAT_ENC of a reserved code has nothing to encode (R59, R75). -/
theorem exec_statEnc_of_unknown {code x : BitVec 4} (h : cmdOf code = .unknown x) (pwr rcv : Bool) (s : State) :
    exec (.statEnc code pwr rcv) s = .next (s.failed (.reservedCommandCode code)) :=
  exec_of_operandRefusal (by simp [operandRefusal, isDefinedCode, h]) s

/-- Settles O6: STAT_ENC finishes with its byte, a sum of the three operands. -/
theorem statEncCompletes : Obligations.StatEncCompletes :=
  fun c pwr rcv s => ⟨_, _, exec_statEnc_num c pwr rcv s, answersOnly_finish s _, statusByte_toNat c pwr rcv⟩

/-- Settles O7: STAT_DEC finishes with the fields of its byte, here as numbers. -/
theorem statDecCompletes : Obligations.StatDecCompletes := by
  intro b s
  rw [← rcvOf_eq_decide, ← pwrOf_eq_decide, ← cmdField_eq_cmdOf_mod]
  exact ⟨_, exec_statDec b s, answersOnly_finish s _, isIdle_iff b⟩

/-- Settles O8: the fields of the byte are the operands it was made of. -/
theorem decodeAfterEncode : Obligations.DecodeAfterEncode := by
  intro c pwr rcv s
  refine ⟨_, _, _, exec_statEnc_num c pwr rcv s, rfl, exec_statDec _ _, ?_⟩
  rw [rcvOf_statusByte, pwrOf_statusByte, cmdField_statusByte]
  rfl

/-- Settles O9: a defined code is encoded again with the fields it was read with, and a reserved one is refused. -/
theorem encodeAfterDecode : Obligations.EncodeAfterDecode := by
  intro b s
  refine ⟨_, _, _, _, exec_statDec b s, rfl, fun c hc => ?_, fun code hcode => ?_, and_0x3F_eq_self_iff b⟩
  · refine ⟨_, exec_statEnc_num c _ _ _, ?_⟩
    rw [statusByte_of_cmdField hc]
    rfl
  · have hlow : code = b.extractLsb' 0 4 := eq_of_cmdOf_eq_unknown hcode
    subst hlow
    exact ⟨rfl, _, exec_statEnc_of_unknown hcode _ _ _, rfl⟩

end Sys2Proof.Machine

/-! Register access (O13 to O16, O34): REG_RD and the read frame from what a register read does on a bound device, the four
operations of one write frame as one (`oneWrite`), and the trace law from both; then the shapes of all frames, from `Grows`. -/

namespace Sys2Proof.Machine

/-! ### Reading (R85, R86) -/

/-- REG_RD of a count the answer buffer has room for (R85). -/
theorem exec_regRd {n : BitVec 5} (hn : n.toNat ≤ 25) (r : Reg) (s : State) :
    exec (.regRd r n) s
      = conclude ((regRd r n.toNat .ans (s.begin .regRd { reg := r, n := n })).andThen fun _ => .ok { value := .none }) :=
  if_pos hn

/-- The read frame is a register read of one byte into the scratch byte (R86; log 8). -/
theorem exec_readFrame (r : Reg) (s : State) :
    exec (.readFrame r) s
      = conclude ((regRd r 1 .tmp (s.begin .readFrame { reg := r, n := 1 })).andThen fun _ s' =>
          .ok { value := .byte s'.seq.tmp } s') := rfl

/-- The count of free values drawn is no part of how an operation ends (log 4). -/
theorem Ended.draw {s s' : State} {r : Response} {calls : List BusCall} {replies : List Reply}
    (h : Ended s (s'.finish r) r calls replies) : Ended s (s'.draw.finish r) r calls replies := h

section
variable {r : Reg} {s : State}

theorem exec_regRd_ok {n : BitVec 5} {bytes : List Byte} (hb : s.bound = true) (hn : n.toNat ≤ 25)
    (hlength : bytes.length = n.toNat)
    (h : s.replies (List.replicate n.toNat (readCall s.cfg r)) = bytes.map Reply.ok) : ∃ t,
      exec (.regRd r n) s = .next t
        ∧ Ended s t (.ok .none none) (List.replicate n.toNat (readCall s.cfg r)) (bytes.map Reply.ok)
        ∧ t.ans.toList = bytes ++ s.ans.toList.drop n.toNat ∧ t.sink = s.sink := by
  rw [exec_regRd hn]
  rw [← hlength] at h hn ⊢
  obtain ⟨s', hrun, hpiece, -, hans, -⟩ :=
    regRd_ok (d := .ans) (s := s.begin .regRd { reg := r, n := n }) hb ((replies_begin ..).trans h) hn
  exact ⟨_, by rw [hrun]; rfl, hpiece.reached.ended_begin _ h, hans rfl, hpiece.sink⟩

theorem exec_regRd_err {n : BitVec 5} {bytes : List Byte} (hb : s.bound = true) (hn : n.toNat ≤ 25)
    (hlength : bytes.length < n.toNat)
    (h : s.replies (List.replicate (bytes.length + 1) (readCall s.cfg r)) = bytes.map Reply.ok ++ [.err]) : ∃ t,
      exec (.regRd r n) s = .next t
        ∧ Ended s t (.failed (.busError (some bytes.length))) (List.replicate (bytes.length + 1) (readCall s.cfg r))
            (bytes.map Reply.ok ++ [.err])
        ∧ t.ans.toList.take bytes.length = bytes
        ∧ t.ans.toList.drop (bytes.length + 1) = s.ans.toList.drop (bytes.length + 1) ∧ t.sink = s.sink := by
  obtain ⟨s', hrun, hpiece, -, hans, -⟩ :=
    regRd_err (d := .ans) (s := s.begin .regRd { reg := r, n := n }) hb ((replies_begin ..).trans h) hlength hn
  obtain ⟨hbefore, hafter⟩ := hans rfl
  exact ⟨_, by rw [exec_regRd hn, hrun]; rfl, (hpiece.reached.ended_begin _ h).draw, hbefore, hafter, hpiece.sink⟩

theorem exec_readFrame_ok {b : Byte} (hb : s.bound = true) (h : s.replies [readCall s.cfg r] = [.ok b]) : ∃ t,
    exec (.readFrame r) s = .next t ∧ Ended s t (.ok (.byte b) none) [readCall s.cfg r] [.ok b]
      ∧ t.ans = s.ans ∧ t.sink = s.sink := by
  obtain ⟨s', hrun, hpiece, htmp, hans, -⟩ :=
    regRd_tmp_ok (s := s.begin .readFrame { reg := r, n := 1 }) hb ((replies_begin ..).trans h)
  exact ⟨_, by rw [exec_readFrame, hrun, andThen_ok, htmp]; rfl, hpiece.reached.ended_begin _ h, hans, hpiece.sink⟩

theorem exec_readFrame_err (hb : s.bound = true) (h : s.replies [readCall s.cfg r] = [.err]) : ∃ t,
    exec (.readFrame r) s = .next t ∧ Ended s t (.failed (.busError (some 0))) [readCall s.cfg r] [.err]
      ∧ t.ans = s.ans ∧ t.sink = s.sink := by
  obtain ⟨s', hrun, hpiece, hans⟩ :=
    regRd_tmp_err (s := s.begin .readFrame { reg := r, n := 1 }) hb ((replies_begin ..).trans h)
  exact ⟨_, by rw [exec_readFrame, hrun]; rfl, (hpiece.reached.ended_begin _ h).draw, hans, hpiece.sink⟩

end

/-- Settles O13: a register read answered Ok, into the answer buffer or the scratch byte. -/
theorem readsComplete : Obligations.ReadsComplete :=
  fun _ _ hb => ⟨fun _ _ hn hlength => exec_regRd_ok hb hn hlength, fun _ => exec_readFrame_ok hb⟩

/-- Settles O14: a register read with a failed frame, into the answer buffer or the scratch byte. -/
theorem readsFail : Obligations.ReadsFail := by
  refine fun r s hb => ⟨fun _ _ hn hlength => exec_regRd_err hb hn hlength, fun h => ?_⟩
  obtain ⟨t, ht⟩ := exec_readFrame_err hb h
  exact ⟨t, _, ht⟩

/-! ### Writing (R87, R88, R98) -/

/-- The operations of one write frame: they begin under their own name, issue the frame, and end without a value. -/
def oneWrite (op : OpName) (l : Latches) (r : Reg) (v : Byte) (s : State) : Host.Outcome State Fault Refusal :=
  conclude ((regWr r v (s.begin op l)).andThen fun _ => .ok { value := .none })

theorem exec_regWr (r : Reg) (v : Byte) (s : State) :
    exec (.regWr r v) s = oneWrite .regWr { reg := r, val := v } r v s := rfl

theorem exec_writeFrame (r : Reg) (v : Byte) (s : State) :
    exec (.writeFrame r v) s = oneWrite .writeFrame { reg := r, val := v } r v s := rfl

theorem exec_fifoFlush (s : State) : exec .fifoFlush s = oneWrite .fifoFlush {} .fifoLevel flushWord s := rfl

theorem exec_lFlush (s : State) : exec .lFlush s = oneWrite .fifoFlush {} .fifoLevel flushWord s := rfl

/-- The response to a single write frame: no value and no count (log 12), or BusError without an index (log 21). -/
def writeResponse : Reply → Response
  | .ok _ => .ok .none none
  | .err => .failed (.busError none)

theorem oneWrite_ends {r : Reg} {v : Byte} {s : State} (hb : s.bound = true) (op : OpName) (l : Latches) {x : Reply}
    (h : s.replies [writeCall s.cfg r v] = [x]) : ∃ t,
      oneWrite op l r v s = .next t ∧ Ended s t (writeResponse x) [writeCall s.cfg r v] [x]
        ∧ t.ans = s.ans ∧ t.sink = s.sink := by
  have hbegun : (s.begin op l).replies [writeCall s.cfg r v] = [x] := (replies_begin ..).trans h
  have hended := (afterCall_piece (s.begin op l) (writeCall s.cfg r v)).reached.ended_begin (writeResponse x) h
  cases x with
  | ok b => exact ⟨_, by rw [oneWrite, regWr_ok (s := s.begin op l) hb hbegun]; rfl, hended, rfl, rfl⟩
  | err => exact ⟨_, by rw [oneWrite, regWr_err (s := s.begin op l) hb hbegun]; rfl, hended, rfl, rfl⟩

/-- Settles O15: each row is `oneWrite` of its frame. -/
theorem writesComplete : Obligations.WritesComplete := by
  intro r v s hb row
  have hrow {i : Instr} {op : OpName} {l : Latches} {r : Reg} {v : Byte} (hi : exec i s = oneWrite op l r v s) :
      row i (writeCall s.cfg r v) := by
    refine ⟨fun x h => hi ▸ oneWrite_ends hb op l h, fun h => ?_⟩
    obtain ⟨t, ht⟩ := oneWrite_ends hb op l h
    exact ⟨t, none, hi ▸ ht⟩
  exact ⟨hrow (exec_regWr r v s), hrow (exec_writeFrame r v s), hrow (exec_fifoFlush s), hrow (exec_lFlush s)⟩

/-! ### What REG_RD and REG_WR append to the trace (R89) -/

/-- Equal calls are answered Ok throughout, or up to a first Err (R38, R42). -/
theorem replies_replicate_cases (c : BusCall) (n : Nat) (s : State) :
    (∃ bytes : List Byte, bytes.length = n ∧ s.replies (List.replicate n c) = bytes.map Reply.ok)
      ∨ ∃ bytes : List Byte, bytes.length < n
          ∧ s.replies (List.replicate (bytes.length + 1) c) = bytes.map Reply.ok ++ [.err] := by
  induction n generalizing s with
  | zero => exact .inl ⟨[], rfl, rfl⟩
  | succ n ih =>
    cases hreply : (s.answerOf c).1 with
    | err => exact .inr ⟨[], Nat.succ_pos n, by simp [State.replies, hreply]⟩
    | ok b =>
      rcases ih (s.afterCall c) with ⟨bytes, hlength, h⟩ | ⟨bytes, hlength, h⟩
      · exact .inl ⟨b :: bytes, by simp [hlength], by simp [List.replicate_succ, State.replies, hreply, h]⟩
      · refine .inr ⟨b :: bytes, by simpa using hlength, ?_⟩
        rw [List.length_cons, List.replicate_succ, State.replies, hreply, h]
        rfl

theorem zipWith_entry_replicate (c : BusCall) (replies : List Reply) :
    List.zipWith entry (List.replicate replies.length c) replies = replies.map (entry c) := by
  induction replies with
  | nil => rfl
  | cons r rs ih => simp [List.replicate_succ, ih]

/-- An operation of equal calls appends one entry for each reply (R42). -/
theorem Ended.trace_replicate {s t : State} {r : Response} {n : Nat} {c : BusCall} {replies : List Reply}
    (h : Ended s t r (List.replicate n c) replies) (hlength : replies.length = n) : t.trace = s.trace ++ replies.map (entry c) := by
  obtain ⟨-, -, -, htrace, -⟩ := h
  rw [htrace, ← hlength, zipWith_entry_replicate]

theorem Ended.resp {s t : State} {r : Response} {calls : List BusCall} {replies : List Reply} (h : Ended s t r calls replies) :
    t.resp = some r := by
  obtain ⟨⟨-, -, -, hresp⟩, -⟩ := h
  exact hresp

/-- What holds on success, on BusError and on any other failure. -/
def ByResponse (resp : Option Response) (success bus other : Prop) : Prop :=
  (∀ v c, resp = some (.ok v c) → success) ∧ (∀ k, resp = some (.failed (.busError k)) → bus)
    ∧ ∀ f, resp = some (.failed f) → (∀ k, f ≠ .busError k) → other

section
variable {resp : Option Response} {success bus other : Prop}

theorem ByResponse.of_ok {v : Value} {c : Option Nat} (hresp : resp = some (.ok v c)) (h : success) :
    ByResponse resp success bus other := by
  subst hresp
  exact ⟨fun _ _ _ => h, nofun, nofun⟩

theorem ByResponse.of_busError {k : Option Nat} (hresp : resp = some (.failed (.busError k))) (h : bus) :
    ByResponse resp success bus other := by
  subst hresp
  refine ⟨nofun, fun _ _ => h, fun f hf hother => ?_⟩
  cases hf
  exact absurd rfl (hother k)

theorem ByResponse.of_other {f : Failure} (hresp : resp = some (.failed f)) (hf : ∀ k, f ≠ .busError k) (h : other) :
    ByResponse resp success bus other := by
  subst hresp
  refine ⟨nofun, fun k hk => ?_, fun _ _ _ => h⟩
  cases hk
  exact absurd rfl (hf k)

end

/-- With no device bound a register read and a write frame fail before any frame (R154). -/
theorem exec_regRd_unbound {n : BitVec 5} {s : State} (hb : s.bound = false) (hn : n.toNat ≤ 25) (r : Reg) :
    exec (.regRd r n) s = .next ((s.begin .regRd { reg := r, n := n }).failed .deviceNotBound) := by
  rw [exec_regRd hn, regRd, ifBound_unbound (s := s.begin .regRd { reg := r, n := n }) _ hb]
  rfl

theorem oneWrite_unbound {s : State} (hb : s.bound = false) (op : OpName) (l : Latches) (r : Reg) (v : Byte) :
    oneWrite op l r v s = .next ((s.begin op l).failed .deviceNotBound) := by
  rw [oneWrite, regWr, ifBound_unbound (s := s.begin op l) _ hb]
  rfl

theorem exec_regRd_trace {s t : State} {r : Reg} {n : BitVec 5} (ht : exec (.regRd r n) s = .next t) :
    let frame := entry (readCall s.cfg r)
    ByResponse t.resp
      (∃ bytes : List Byte, bytes.length = n.toNat ∧ t.trace = s.trace ++ bytes.map fun b => frame (.ok b))
      (∃ bytes : List Byte, bytes.length < n.toNat ∧ t.trace = s.trace ++ (bytes.map fun b => frame (.ok b)) ++ [frame .err])
      (t.trace = s.trace) := by
  by_cases hn : n.toNat ≤ 25
  · cases hb : s.bound with
    | false =>
      cases (exec_regRd_unbound hb hn r).symm.trans ht
      exact .of_other rfl nofun rfl
    | true =>
      rcases replies_replicate_cases (readCall s.cfg r) n.toNat s with ⟨bytes, hlength, h⟩ | ⟨bytes, hlength, h⟩
      · obtain ⟨u, hu, hended, -⟩ := exec_regRd_ok hb hn hlength h
        cases hu.symm.trans ht
        refine .of_ok hended.resp ⟨bytes, hlength, ?_⟩
        simpa [Function.comp_def] using hended.trace_replicate (by simpa using hlength)
      · obtain ⟨u, hu, hended, -⟩ := exec_regRd_err hb hn hlength h
        cases hu.symm.trans ht
        refine .of_busError hended.resp ⟨bytes, hlength, ?_⟩
        simpa [Function.comp_def] using hended.trace_replicate (by simp)
  · cases (exec_of_operandRefusal (i := .regRd r n) (if_neg hn) s).symm.trans ht
    exact .of_other rfl nofun rfl

theorem exec_regWr_trace {s t : State} {r : Reg} {v : Byte} (ht : exec (.regWr r v) s = .next t) :
    let frame := entry (writeCall s.cfg r v)
    ByResponse t.resp (t.trace = s.trace ++ [frame (.ok 0)]) (t.trace = s.trace ++ [frame .err]) (t.trace = s.trace) := by
  rw [exec_regWr] at ht
  cases hb : s.bound with
  | false =>
    cases (oneWrite_unbound hb _ _ r v).symm.trans ht
    exact .of_other rfl nofun rfl
  | true =>
    obtain ⟨x, hx⟩ : ∃ x, s.replies [writeCall s.cfg r v] = [x] := ⟨_, rfl⟩
    obtain ⟨u, hu, hended, -⟩ := oneWrite_ends hb .regWr { reg := r, val := v } hx
    cases hu.symm.trans ht
    have htrace := hended.trace_replicate (n := 1) rfl
    cases x with
    | ok b => exact .of_ok hended.resp htrace
    | err => exact .of_busError hended.resp htrace

/-- Settles O16: the trace by the response, for REG_RD and for REG_WR. -/
theorem registerTraceLaw : Obligations.RegisterTraceLaw :=
  fun _ _ _ => ⟨fun _ => exec_regRd_trace, fun _ => exec_regWr_trace⟩

/-! ### The shapes of the frames (R90) -/

/-- The state a piece ends in has what it grew by, whichever way it ends. -/
theorem Grows.all {α : Type} {P : State → Prop} {s : State} {run : Run α} (h : Grows s run)
    (hgrew : ∀ s' new, Grew s s' new → P s') : run.All P := by
  cases run with
  | ok a s' =>
    obtain ⟨new, g, -⟩ := h
    exact hgrew s' new g
  | fail f s' =>
    obtain ⟨new, g, -⟩ := h
    exact hgrew s' new g
  | wait s' =>
    obtain ⟨new, g, -⟩ := h
    exact hgrew s' new g

/-- From `s` to `t` the trace grew by frames of the two shapes alone (R33, R90). -/
def GrewLegally (s t : State) : Prop := ∃ new, t.trace = s.trace ++ new ∧ ∀ x ∈ new, Transaction.legal s.cfg x

theorem GrewLegally.of_trace_eq {s t : State} (h : t.trace = s.trace) : GrewLegally s t := ⟨[], by simpa using h, by simp⟩

theorem GrewLegally.of_beginAs {locked : Bool} {s t : State} {op : OpName} {l : Latches}
    (h : GrewLegally (beginAs locked s op l) t) : GrewLegally s t := by
  cases locked <;> exact h

theorem grewLegally_conclude {s t : State} {run : Run Result} (h : Grows s run) (ht : conclude run = .next t) :
    GrewLegally s t := by
  have hall : run.All (GrewLegally s) := h.all fun _ new g => ⟨new, g.trace, g.legal⟩
  exact All_conclude hall (fun _ _ g => g) (fun _ g => g) ht

theorem grewLegally_exec {i : Instr} {s t : State} (ht : exec i s = .next t) : GrewLegally s t := by
  have hshape := exec_shape i s
  rw [ht] at hshape
  generalize ho : Host.Outcome.next t = o at hshape
  cases hshape with
  | answers _ r _ =>
    cases ho
    exact .of_trace_eq rfl
  | runs _ op l run hg _ => exact (grewLegally_conclude hg ho.symm).of_beginAs
  | parses _ r =>
    cases ho
    exact .of_trace_eq rfl
  | reserved _ => cases ho
  | plus _ => cases ho

theorem grewLegally_resume {s t : State} (ht : resume s = .next t) : GrewLegally s t := by
  rw [resume_eq (wait_of_resume ht)] at ht
  exact grewLegally_conclude (Grows_pollThen (Grows_restOf _) s) ht

/-- A frame that receives is a read frame: one byte out, and one byte in where it is answered (R34, R90). -/
theorem Transaction.legal.wtr_lengths {p : Params} {x : Transaction} (h : Transaction.legal p x) {tx : List Byte} {k : Nat}
    (hcall : x.call = .wtr tx k) : tx.length = 1 ∧ k = 1 ∧ ∀ rx, x.answer = .ok rx → rx.length = 1 := by
  obtain ⟨r, reply, rfl⟩ | ⟨r, v, reply, rfl⟩ := h
  · cases hcall
    refine ⟨rfl, rfl, fun rx hanswer => ?_⟩
    cases reply <;> cases hanswer
    rfl
  · cases hcall

/-- A frame that only sends is a write frame: two bytes out, and none in (R35, R90). -/
theorem Transaction.legal.w_lengths {p : Params} {x : Transaction} (h : Transaction.legal p x) {tx : List Byte}
    (hcall : x.call = .w tx) : tx.length = 2 ∧ ∀ rx, x.answer = .ok rx → rx = [] := by
  obtain ⟨r, reply, rfl⟩ | ⟨r, v, reply, rfl⟩ := h
  · cases hcall
  · cases hcall
    refine ⟨rfl, fun rx hanswer => ?_⟩
    cases reply <;> cases hanswer
    rfl

/-- Settles O34: an operation and a further poll append frames of the two shapes alone, whose lengths are fixed. -/
theorem frameShapes : Obligations.FrameShapes := by
  intro s t h
  have hgrew : GrewLegally s t := by
    rcases h with ⟨i, ht⟩ | ht
    · exact grewLegally_exec ht
    · exact grewLegally_resume ht
  obtain ⟨new, htrace, hlegal⟩ := hgrew
  exact ⟨new, htrace, fun x hx => ⟨hlegal x hx, fun _ _ => (hlegal x hx).wtr_lengths, fun _ => (hlegal x hx).w_lengths⟩⟩

end Sys2Proof.Machine

/-! The FIFO sequencer (O12, O17 to O20): the level of a level byte as a number, each operation on a bound device from the spec of its
piece, and what a success appends to the trace, from the replies that can lead to one. -/

namespace Sys2Proof

/-! ### The level of a level byte (R96) -/

theorem levelOf_toNat (b : Byte) : (levelOf b).toNat = b.toNat % 128 := by
  simp [levelOf]

theorem levelOf_eq_ofNat (b : Byte) : levelOf b = BitVec.ofNat 7 (b.toNat % 128) := by
  rw [← levelOf_toNat, BitVec.ofNat_toNat, BitVec.setWidth_eq]

theorem zeroExtend_level_toNat (l : BitVec 7) : (l.zeroExtend 8).toNat = l.toNat :=
  BitVec.toNat_setWidth_of_le (by decide)

/-- Masking bit 7 off keeps the level (R96). -/
theorem and_0x7F_eq_levelOf (b : Byte) : b &&& 0x7F = (levelOf b).zeroExtend 8 := by
  apply BitVec.eq_of_toNat_eq
  rw [zeroExtend_level_toNat, levelOf_toNat, BitVec.toNat_and]
  exact Nat.and_two_pow_sub_one_eq_mod b.toNat 7

end Sys2Proof

namespace Sys2Proof.Machine

/-! ### FIFO_LVL (R95, R96) -/

/-- The answer to a level byte: the level as value and as count (log 12). -/
def levelResponse (b : Byte) : Response := .ok (.byte (b &&& 0x7F)) (some (b &&& 0x7F).toNat)

theorem levelResponse_eq (b : Byte) :
    levelResponse b = .ok (.byte ((levelOf b).zeroExtend 8)) (some (levelOf b).toNat) := by
  rw [levelResponse, and_0x7F_eq_levelOf, zeroExtend_level_toNat]

theorem exec_fifoLvl (s : State) :
    exec .fifoLvl s = conclude ((fifoLvl (s.begin .fifoLvl {})).andThen fun l =>
      .ok { value := .byte (l.zeroExtend 8), count := some l.toNat }) := rfl

/-- A level byte as read stands for its level (R53; log 8). -/
theorem exec_lLevel (b : Byte) (s : State) : exec (.lLevel (b.getLsbD 7) (levelOf b)) s = .next (s.finish (levelResponse b)) := by
  rw [levelResponse_eq]
  show execLLevel _ _ s = _
  rw [execLLevel, levelRowByte_of_fields]
  rfl

/-- FIFO_LVL whose read is answered Err. -/
theorem fifoLvl_err {s : State} (hb : s.bound = true) (h : s.replies [readCall s.cfg .fifoLevel] = [.err]) :
    ∃ s', fifoLvl s = .fail (.busError (some 0)) s'.draw ∧ Piece s s' [readCall s.cfg .fifoLevel] ∧ s'.ans = s.ans := by
  obtain ⟨s', hrun, hrest⟩ := regRd_tmp_err hb h
  exact ⟨s', by rw [fifoLvl, hrun, andThen_fail], hrest⟩

/-- With no device bound FIFO_LVL issues no frame (R154). -/
theorem fifoLvl_unbound {s : State} (hb : s.bound = false) : fifoLvl s = .fail .deviceNotBound s := by
  rw [fifoLvl, regRd, ifBound_unbound _ hb, andThen_fail]

section
variable {s : State}

theorem exec_fifoLvl_unbound (hb : s.bound = false) :
    exec .fifoLvl s = .next ((s.begin .fifoLvl {}).failed .deviceNotBound) := by
  rw [exec_fifoLvl, fifoLvl_unbound (s := s.begin .fifoLvl {}) hb]
  rfl

theorem exec_fifoLvl_ok {b : Byte} (hb : s.bound = true) (h : s.replies [readCall s.cfg .fifoLevel] = [.ok b]) : ∃ t,
    exec .fifoLvl s = .next t ∧ Ended s t (levelResponse b) [readCall s.cfg .fifoLevel] [.ok b]
      ∧ t.ans = s.ans ∧ t.sink = s.sink := by
  obtain ⟨s', hrun, hpiece, hans, -⟩ := fifoLvl_ok (s := s.begin .fifoLvl {}) hb ((replies_begin ..).trans h)
  exact ⟨_, by rw [exec_fifoLvl, hrun, levelResponse_eq]; rfl, hpiece.reached.ended_begin _ h, hans, hpiece.sink⟩

theorem exec_fifoLvl_err (hb : s.bound = true) (h : s.replies [readCall s.cfg .fifoLevel] = [.err]) : ∃ t,
    exec .fifoLvl s = .next t ∧ Ended s t (.failed (.busError (some 0))) [readCall s.cfg .fifoLevel] [.err] := by
  obtain ⟨s', hrun, hpiece, -⟩ := fifoLvl_err (s := s.begin .fifoLvl {}) hb ((replies_begin ..).trans h)
  exact ⟨_, by rw [exec_fifoLvl, hrun]; rfl, (hpiece.reached.ended_begin _ h).draw⟩

end

/-- Settles O12: one read of the level, whose answer is that of the level byte as read. -/
theorem fifoLvlCompletes : Obligations.FifoLvlCompletes :=
  fun s b => ⟨exec_fifoLvl_ok, and_0x7F_eq_levelOf b, _, exec_lLevel b s, answersOnly_finish s _⟩

/-! ### FIFO_RD (R100, R101) -/

theorem exec_fifoRd (s : State) :
    exec .fifoRd s = conclude ((fifoRd .ans (s.begin .fifoRd {})).andThen fun l =>
      .ok { value := .none, count := some l.toNat }) := rfl

section
variable {s : State}

theorem exec_fifoRd_unbound (hb : s.bound = false) :
    exec .fifoRd s = .next ((s.begin .fifoRd {}).failed .deviceNotBound) := by
  rw [exec_fifoRd, fifoRd, fifoLvl_unbound (s := s.begin .fifoRd {}) hb]
  rfl

theorem exec_fifoRd_ok {lb : Byte} {bytes : List Byte} (hb : s.bound = true) (hlength : bytes.length = lb.toNat % 128)
    (hroom : bytes.length ≤ 25)
    (h : s.replies (readCall s.cfg .fifoLevel :: List.replicate bytes.length (readCall s.cfg .fifoData))
      = Reply.ok lb :: bytes.map Reply.ok) : ∃ t,
      exec .fifoRd s = .next t
        ∧ Ended s t (.ok .none (some bytes.length))
            (readCall s.cfg .fifoLevel :: List.replicate bytes.length (readCall s.cfg .fifoData))
            (Reply.ok lb :: bytes.map Reply.ok)
        ∧ t.ans.toList = bytes ++ s.ans.toList.drop bytes.length ∧ t.sink = s.sink := by
  have hlevel : (levelOf lb).toNat = bytes.length := (levelOf_toNat lb).trans hlength.symm
  obtain ⟨s', hrun, hpiece, hans, -⟩ :=
    fifoRd_ok (d := .ans) (s := s.begin .fifoRd {}) hb hlevel hroom ((replies_begin ..).trans h)
  exact ⟨_, by rw [exec_fifoRd, hrun, andThen_ok, hlevel]; rfl, hpiece.reached.ended_begin _ h, hans rfl, hpiece.sink⟩

theorem exec_fifoRd_level_err (hb : s.bound = true) (h : s.replies [readCall s.cfg .fifoLevel] = [.err]) : ∃ t,
    exec .fifoRd s = .next t ∧ Ended s t (.failed (.busError (some 0))) [readCall s.cfg .fifoLevel] [.err]
      ∧ t.ans = s.ans ∧ t.sink = s.sink := by
  obtain ⟨s', hrun, hpiece, hans⟩ := fifoLvl_err (s := s.begin .fifoRd {}) hb ((replies_begin ..).trans h)
  exact ⟨_, by rw [exec_fifoRd, fifoRd, hrun]; rfl, (hpiece.reached.ended_begin _ h).draw, hans, hpiece.sink⟩

theorem exec_fifoRd_over {lb : Byte} (hb : s.bound = true) (hpolicy : s.cfg.levelOver = .fault) (hover : 25 < lb.toNat % 128)
    (h : s.replies [readCall s.cfg .fifoLevel] = [.ok lb]) : ∃ t,
      exec .fifoRd s = .next t
        ∧ Ended s t (.failed (.fifoLevelExceedsBuffer (BitVec.ofNat 7 (lb.toNat % 128)))) [readCall s.cfg .fifoLevel] [.ok lb]
        ∧ t.ans = s.ans ∧ t.sink = s.sink := by
  obtain ⟨s', hrun, hpiece, hans⟩ := fifoRd_over (d := .ans) (s := s.begin .fifoRd {}) hb hpolicy
    (hover.trans_eq (levelOf_toNat lb).symm) ((replies_begin ..).trans h)
  exact ⟨_, by rw [exec_fifoRd, hrun, levelOf_eq_ofNat]; rfl, hpiece.reached.ended_begin _ h, hans, hpiece.sink⟩

theorem exec_fifoRd_data_err {lb : Byte} {bytes : List Byte} (hb : s.bound = true) (hroom : lb.toNat % 128 ≤ 25)
    (hlength : bytes.length < lb.toNat % 128)
    (h : s.replies (readCall s.cfg .fifoLevel :: List.replicate (bytes.length + 1) (readCall s.cfg .fifoData))
      = Reply.ok lb :: (bytes.map Reply.ok ++ [.err])) : ∃ t,
      exec .fifoRd s = .next t
        ∧ Ended s t (.failed (.busError (some bytes.length)))
            (readCall s.cfg .fifoLevel :: List.replicate (bytes.length + 1) (readCall s.cfg .fifoData))
            (Reply.ok lb :: (bytes.map Reply.ok ++ [.err]))
        ∧ t.ans.toList.take bytes.length = bytes
        ∧ t.ans.toList.drop (bytes.length + 1) = s.ans.toList.drop (bytes.length + 1) ∧ t.sink = s.sink := by
  rw [← levelOf_toNat] at hroom hlength
  obtain ⟨s', hrun, hpiece, hans⟩ :=
    fifoRd_err (d := .ans) (s := s.begin .fifoRd {}) hb hlength hroom ((replies_begin ..).trans h)
  obtain ⟨hbefore, hafter⟩ := hans rfl
  exact ⟨_, by rw [exec_fifoRd, hrun]; rfl, (hpiece.reached.ended_begin _ h).draw, hbefore, hafter, hpiece.sink⟩

end

/-- Settles O17: the level read and the data reads answered Ok. -/
theorem fifoRdCompletes : Obligations.FifoRdCompletes :=
  fun _ _ _ hb hlength hroom h => exec_fifoRd_ok hb hlength hroom h

/-- Settles O18: the level read fails, the level is too large, or a data read fails. -/
theorem fifoRdFails : Obligations.FifoRdFails := by
  refine fun s hb => ⟨fun h => ?_, fun _ => exec_fifoRd_over hb, fun _ _ => exec_fifoRd_data_err hb⟩
  obtain ⟨t, ht⟩ := exec_fifoRd_level_err hb h
  exact ⟨t, _, ht⟩

/-! ### FIFO_WR (R103) -/

/-- FIFO_WR of a count the data has bytes for (R103). -/
theorem exec_fifoWr {n : BitVec 5} (hn : n.toNat ≤ 25) (data : Buffer) (s : State) :
    exec (.fifoWr n data) s
      = conclude ((fifoWr (data.toList.take n.toNat) (s.begin .fifoWr { n := n, data := data })).andThen fun _ =>
          .ok { value := .none }) :=
  if_pos hn

/-- The write frames of the first `k` bytes, in order. -/
def dataCalls (p : Params) (data : Buffer) (k : Nat) : List BusCall := (data.toList.take k).map (writeCall p .fifoData)

theorem length_dataCalls (p : Params) (data : Buffer) {k : Nat} (hk : k ≤ 25) : (dataCalls p data k).length = k := by
  simp [dataCalls, hk]

theorem take_dataCalls (p : Params) (data : Buffer) {k n : Nat} (hk : k ≤ n) :
    (dataCalls p data n).take k = dataCalls p data k := by
  rw [dataCalls, ← List.map_take, List.take_take, Nat.min_eq_left hk, dataCalls]

/-- The bytes that were sent, the one whose frame failed, and those that are left. -/
theorem take_eq_append_cons {α : Type} {l : List α} {k n : Nat} (hk : k < n) (hn : n ≤ l.length) :
    ∃ x rest, l.take n = l.take k ++ x :: rest ∧ l.take (k + 1) = l.take k ++ [x] := by
  have hlt : k < (l.take n).length := by simp; omega
  refine ⟨l[k], (l.take n).drop (k + 1), ?_, (List.take_concat_get' l k (by omega)).symm⟩
  have hsplit := List.take_append_drop k (l.take n)
  rw [List.drop_eq_getElem_cons hlt, List.take_take, Nat.min_eq_left hk.le, List.getElem_take] at hsplit
  exact hsplit.symm

section
variable {s : State} {n : BitVec 5} {data : Buffer} {rs : List Byte}

theorem exec_fifoWr_unbound (hb : s.bound = false) (hn : n.toNat ≤ 25) :
    exec (.fifoWr n data) s = .next ((s.begin .fifoWr { n := n, data := data }).failed .deviceNotBound) := by
  rw [exec_fifoWr hn, fifoWr, ifBound_unbound (s := s.begin .fifoWr { n := n, data := data }) _ hb]
  rfl

theorem exec_fifoWr_ok (hb : s.bound = true) (hn : n.toNat ≤ 25)
    (h : s.replies (dataCalls s.cfg data n.toNat) = rs.map Reply.ok) : ∃ t,
      exec (.fifoWr n data) s = .next t ∧ Ended s t (.ok .none none) (dataCalls s.cfg data n.toNat) (rs.map Reply.ok)
        ∧ t.ans = s.ans ∧ t.sink = s.sink := by
  obtain ⟨s', hrun, hpiece, hans, -⟩ :=
    fifoWr_ok (s := s.begin .fifoWr { n := n, data := data }) hb ((replies_begin ..).trans h)
  exact ⟨_, by rw [exec_fifoWr hn, hrun]; rfl, hpiece.reached.ended_begin _ h, hans, hpiece.sink⟩

theorem exec_fifoWr_err (hb : s.bound = true) (hn : n.toNat ≤ 25) (hlength : rs.length < n.toNat)
    (h : s.replies (dataCalls s.cfg data (rs.length + 1)) = rs.map Reply.ok ++ [.err]) : ∃ t,
      exec (.fifoWr n data) s = .next t
        ∧ Ended s t (.failed (.busError (some rs.length))) (dataCalls s.cfg data (rs.length + 1))
            (rs.map Reply.ok ++ [.err])
        ∧ t.ans = s.ans ∧ t.sink = s.sink := by
  obtain ⟨x, rest, hall, hsent⟩ := take_eq_append_cons (l := data.toList) hlength (by simpa using hn)
  have hk : (data.toList.take rs.length).length = rs.length := by simp; omega
  rw [dataCalls, hsent] at h ⊢
  obtain ⟨s', hrun, hpiece, hans⟩ :=
    fifoWr_err (rest := rest) (s := s.begin .fifoWr { n := n, data := data }) hb hk ((replies_begin ..).trans h)
  exact ⟨_, by rw [exec_fifoWr hn, hall, hrun, hk]; rfl, hpiece.reached.ended_begin _ h, hans, hpiece.sink⟩

end

/-- Settles O19: the write frames answered Ok throughout, or up to one that fails. -/
theorem fifoWrCompletes : Obligations.FifoWrCompletes :=
  fun _ _ _ hb hn => ⟨fun _ => exec_fifoWr_ok hb hn, fun _ => exec_fifoWr_err hb hn⟩

/-! ### What a success appends to the trace (R105) -/

theorem Ended.trace {s t : State} {r : Response} {calls : List BusCall} {replies : List Reply} (h : Ended s t r calls replies) :
    t.trace = s.trace ++ List.zipWith entry calls replies := by
  obtain ⟨-, -, -, htrace, -⟩ := h
  exact htrace

/-- The outcome is a success that leads to `t`. -/
def Succeeds (o : Host.Outcome State Fault Refusal) (t : State) : Prop := o = .next t ∧ ∃ v c, t.resp = some (.ok v c)

section
variable {o : Host.Outcome State Fault Refusal} {s t u : State}

/-- Any next state with a failure as its response speaks against a success. -/
theorem Succeeds.not_failed {f : Failure} (h : Succeeds o t) (hu : o = .next u) (hresp : u.resp = some (.failed f)) : False := by
  obtain ⟨ht, v, c, hok⟩ := h
  cases hu.symm.trans ht
  cases hresp.symm.trans hok

/-- With the operation over, the trace has one entry for each call and its reply (R42). -/
theorem Succeeds.trace {r : Response} {calls : List BusCall} {replies : List Reply} (h : Succeeds o t) (hu : o = .next u)
    (hended : Ended s u r calls replies) : t.resp = some r ∧ t.trace = s.trace ++ List.zipWith entry calls replies := by
  cases hu.symm.trans h.1
  exact ⟨hended.resp, hended.trace⟩

/-- A single call is answered one way or the other (R38). -/
theorem replies_single_cases (s : State) (c : BusCall) : (∃ b, s.replies [c] = [.ok b]) ∨ s.replies [c] = [.err] := by
  rcases transact_cases c s with ⟨b, hreply, -⟩ | ⟨hreply, -⟩
  · exact .inl ⟨b, by simp [State.replies, hreply]⟩
  · exact .inr (by simp [State.replies, hreply])

theorem replies_cons_of_single {c : BusCall} {x : Reply} (h : s.replies [c] = [x]) (calls : List BusCall) :
    s.replies (c :: calls) = x :: (s.afterCall c).replies calls := by
  rw [← List.singleton_append, replies_append, h]
  rfl

/-- Calls are answered Ok throughout, or up to a first Err (R38, R42). -/
theorem replies_cases (calls : List BusCall) (s : State) :
    (∃ bytes : List Byte, bytes.length = calls.length ∧ s.replies calls = bytes.map Reply.ok)
      ∨ ∃ bytes : List Byte, bytes.length < calls.length
          ∧ s.replies (calls.take (bytes.length + 1)) = bytes.map Reply.ok ++ [.err] := by
  induction calls generalizing s with
  | nil => exact .inl ⟨[], rfl, rfl⟩
  | cons c cs ih =>
    cases hreply : (s.answerOf c).1 with
    | err => exact .inr ⟨[], by simp, by simp [State.replies, hreply]⟩
    | ok b =>
      rcases ih (s.afterCall c) with ⟨bytes, hlength, h⟩ | ⟨bytes, hlength, h⟩
      · exact .inl ⟨b :: bytes, by simp [hlength], by simp [State.replies, hreply, h]⟩
      · exact .inr ⟨b :: bytes, by simpa using hlength, by simp [State.replies, hreply, h]⟩

theorem zipWith_entry_reads (p : Params) (r : Reg) (bytes : List Byte) :
    List.zipWith entry (List.replicate bytes.length (readCall p r)) (bytes.map Reply.ok) = readEntries p r bytes := by
  simpa [readEntries, Function.comp_def] using zipWith_entry_replicate (readCall p r) (bytes.map Reply.ok)

/-- The trace does not have the byte that comes with the Ok to a write frame (R33). -/
theorem zipWith_entry_writes (p : Params) (r : Reg) {data rs : List Byte} (hlength : rs.length = data.length) :
    List.zipWith entry (data.map (writeCall p r)) (rs.map Reply.ok) = writeEntries p r data := by
  induction data generalizing rs with
  | nil => rfl
  | cons d ds ih =>
    obtain ⟨x, xs, rfl⟩ := List.exists_cons_of_length_eq_add_one hlength
    exact congrArg _ (ih (by simpa using hlength))

theorem fifoLvl_trace (h : Succeeds (exec .fifoLvl s) t) :
    ∃ b, t.trace = s.trace ++ [entry (readCall s.cfg .fifoLevel) (.ok b)] := by
  cases hb : s.bound with
  | false => exact (h.not_failed (exec_fifoLvl_unbound hb) rfl).elim
  | true =>
    rcases replies_single_cases s (readCall s.cfg .fifoLevel) with ⟨b, hreply⟩ | hreply
    · obtain ⟨u, hu, hended, -⟩ := exec_fifoLvl_ok hb hreply
      exact ⟨b, (h.trace hu hended).2⟩
    · obtain ⟨u, hu, hended⟩ := exec_fifoLvl_err hb hreply
      exact (h.not_failed hu hended.resp).elim

theorem fifoFlush_trace (h : Succeeds (exec .fifoFlush s) t) :
    t.trace = s.trace ++ [entry (writeCall s.cfg .fifoLevel 0x80) (.ok 0)] := by
  rw [exec_fifoFlush] at h
  cases hb : s.bound with
  | false => exact (h.not_failed (oneWrite_unbound hb _ _ _ _) rfl).elim
  | true =>
    obtain ⟨x, hreply⟩ : ∃ x, s.replies [writeCall s.cfg .fifoLevel flushWord] = [x] := ⟨_, rfl⟩
    obtain ⟨u, hu, hended, -⟩ := oneWrite_ends hb .fifoFlush {} hreply
    cases x with
    | ok b => exact (h.trace hu hended).2
    | err => exact (h.not_failed hu hended.resp).elim

theorem fifoRd_trace (hpolicy : s.cfg.levelOver = .fault) (h : Succeeds (exec .fifoRd s) t) :
    ∃ lb bytes, t.resp = some (.ok .none (some (List.length bytes)))
      ∧ t.trace = s.trace ++ entry (readCall s.cfg .fifoLevel) (.ok lb) :: readEntries s.cfg .fifoData bytes := by
  cases hb : s.bound with
  | false => exact (h.not_failed (exec_fifoRd_unbound hb) rfl).elim
  | true =>
    rcases replies_single_cases s (readCall s.cfg .fifoLevel) with ⟨lb, hreply⟩ | hreply
    · by_cases hroom : lb.toNat % 128 ≤ 25
      · rcases replies_replicate_cases (readCall s.cfg .fifoData) (lb.toNat % 128) (s.afterCall (readCall s.cfg .fifoLevel))
          with ⟨bytes, hlength, hdata⟩ | ⟨bytes, hlength, hdata⟩
        · obtain ⟨u, hu, hended, -⟩ :=
            exec_fifoRd_ok hb hlength (hlength.trans_le hroom) ((replies_cons_of_single hreply _).trans (by rw [hlength, hdata]))
          obtain ⟨hresp, htrace⟩ := h.trace hu hended
          rw [List.zipWith_cons_cons, zipWith_entry_reads] at htrace
          exact ⟨lb, bytes, hresp, htrace⟩
        · obtain ⟨u, hu, hended, -⟩ := exec_fifoRd_data_err hb hroom hlength ((replies_cons_of_single hreply _).trans (by rw [hdata]))
          exact (h.not_failed hu hended.resp).elim
      · obtain ⟨u, hu, hended, -⟩ := exec_fifoRd_over hb hpolicy (by omega) hreply
        exact (h.not_failed hu hended.resp).elim
    · obtain ⟨u, hu, hended, -⟩ := exec_fifoRd_level_err hb hreply
      exact (h.not_failed hu hended.resp).elim

theorem fifoWr_trace {n : BitVec 5} {data : Buffer} (h : Succeeds (exec (.fifoWr n data) s) t) :
    n.toNat ≤ 25 ∧ t.trace = s.trace ++ writeEntries s.cfg .fifoData (data.toList.take n.toNat) := by
  by_cases hn : n.toNat ≤ 25
  · refine ⟨hn, ?_⟩
    cases hb : s.bound with
    | false => exact (h.not_failed (exec_fifoWr_unbound hb hn) rfl).elim
    | true =>
      rcases replies_cases (dataCalls s.cfg data n.toNat) s with ⟨rs, hlength, hreply⟩ | ⟨rs, hlength, hreply⟩
      · obtain ⟨u, hu, hended, -⟩ := exec_fifoWr_ok hb hn hreply
        rw [(h.trace hu hended).2, dataCalls, zipWith_entry_writes _ _ (by rw [hlength, dataCalls, List.length_map])]
      · rw [length_dataCalls _ _ hn] at hlength
        rw [take_dataCalls _ _ hlength] at hreply
        obtain ⟨u, hu, hended, -⟩ := exec_fifoWr_err hb hn hlength hreply
        exact (h.not_failed hu hended.resp).elim
  · exact (h.not_failed (exec_of_operandRefusal (i := .fifoWr n data) (if_neg hn) s) rfl).elim

end

/-- Settles O20: each operation succeeds only by its frames answered Ok, and those are what it appends. -/
theorem fifoTraceLaws : Obligations.FifoTraceLaws := by
  refine fun s t => ⟨fun _ _ ht hok => fifoLvl_trace ⟨ht, _, _, hok⟩, fun _ _ ht hok => fifoFlush_trace ⟨ht, _, _, hok⟩,
    fun v c hpolicy ht hok => ?_, fun _ _ _ _ ht hok => fifoWr_trace ⟨ht, _, _, hok⟩⟩
  obtain ⟨lb, bytes, hresp, htrace⟩ := fifoRd_trace hpolicy ⟨ht, v, c, hok⟩
  cases hresp.symm.trans hok
  exact ⟨lb, bytes, rfl, htrace⟩

end Sys2Proof.Machine

/-! The Command Engine (O11, O21 to O24, O27, O41): the version byte and what GET_VERSION makes of it, one turn of the poll loop of
any SEND_CMD that waits, and SEND_CMD over its whole run. -/

namespace Sys2Proof.Machine

/-! ### Version bytes (R116, R117) -/

/-- Settles O11: the rows of format V answer the class of their byte, and `verClass_of_ne` says which that is. -/
theorem versionRowsComplete : Obligations.VersionRowsComplete := by
  intro s row
  have hrow {i : Instr} {v : ChipVersion} (hi : exec i s = answer (.version v) s) : row i v :=
    ⟨_, hi, answersOnly_finish s _⟩
  refine ⟨hrow rfl, hrow rfl, fun b h1 h2 => ?_, hrow rfl, hrow rfl⟩
  have hclass := verClass_of_ne h1 h2
  exact ⟨hrow (hclass ▸ rfl), hrow (hclass ▸ rfl)⟩

/-- What GET_VERSION answers to a version byte (R117, R152). -/
def versionResponse (b : Byte) : Response :=
  match verClass b with
  | .unknown b => .failed (.unrecognizedDevice b)
  | v => .ok (.version v) none

section
variable {s : State}

theorem exec_getVersion (hb : s.bound = true) : exec .getVersion s = conclude (getVersion (s.beginLocked .getVersion {})) :=
  congrArg conclude (ifBound_bound _ hb)

theorem exec_getVersion_ok {b : Byte} (hb : s.bound = true) (h : s.replies [readCall s.cfg .version] = [.ok b]) : ∃ t,
    exec .getVersion s = .next t ∧ Ended s t (versionResponse b) [readCall s.cfg .version] [.ok b]
      ∧ t.ans = s.ans ∧ t.sink = s.sink := by
  obtain ⟨s', hrun, hpiece, htmp, hans, -⟩ :=
    regRd_tmp_ok (s := s.beginLocked .getVersion {}) hb ((replies_beginLocked ..).trans h)
  refine ⟨_, ?_, hpiece.reached.ended_beginLocked _ h, hans, hpiece.sink⟩
  rw [exec_getVersion hb, getVersion, hrun, andThen_ok, htmp, versionResponse]
  cases verClass b <;> rfl

theorem exec_getVersion_err (hb : s.bound = true) (h : s.replies [readCall s.cfg .version] = [.err]) : ∃ t,
    exec .getVersion s = .next t ∧ Ended s t (.failed (.busError (some 0))) [readCall s.cfg .version] [.err]
      ∧ t.ans = s.ans ∧ t.sink = s.sink := by
  obtain ⟨s', hrun, hpiece, hans⟩ :=
    regRd_tmp_err (s := s.beginLocked .getVersion {}) hb ((replies_beginLocked ..).trans h)
  exact ⟨_, by rw [exec_getVersion hb, getVersion, hrun]; rfl, (hpiece.reached.ended_beginLocked _ h).draw, hans, hpiece.sink⟩

end

/-- Settles O27: one read of Version, and what its byte stands for. -/
theorem getVersionCompletes : Obligations.GetVersionCompletes := by
  refine fun s hb => ⟨fun b h => ?_, fun h => ?_⟩
  · have hok := exec_getVersion_ok hb h
    refine ⟨?_, ?_, fun h1 h2 => ?_⟩
    · rintro rfl
      exact hok
    · rintro rfl
      exact hok
    · rwa [versionResponse, verClass_of_ne h1 h2] at hok
  · obtain ⟨t, ht⟩ := exec_getVersion_err hb h
    exact ⟨t, _, ht⟩

/-! ### One turn of the poll loop (R110, R153, R159) -/

theorem Piece.keepsOutside {s t : State} {calls : List BusCall} (h : Piece s t calls) (hparsed : t.parsed = none) :
    KeepsOutside s t :=
  ⟨h.cfg, h.bound, h.transport, h.owner, h.answers, h.held, hparsed⟩

/-- An operation that had begun before `s` and issued these calls since, ended. -/
theorem Piece.ended {s s' : State} {calls : List BusCall} {replies : List Reply} (h : Piece s s' calls) (r : Response)
    (hr : s.replies calls = replies) : Ended s (s'.finish r) r calls replies :=
  h.reached.ended r (.refl s) rfl rfl rfl rfl hr

section
variable {s : State} {w : Wait}

/-- A step of an operation that waits, when nothing goes before it, is one turn of its poll loop (log 5, log 17, log 24). -/
theorem step_waiting (hquiet : Quiet s) (hwait : Waiting s w) (hw : w ≠ .idle) : step s = conclude (pollThen (restOf w) s) := by
  obtain ⟨hbusy, rfl, -⟩ := hwait
  rw [step_owned hquiet (by simp [State.owned, hbusy]), resume_eq hw]

/-- A poll that is not Idle goes on waiting. -/
theorem step_poll_busy {b : Byte} (hquiet : Quiet s) (hb : s.bound = true) (hwait : Waiting s w) (hw : w ≠ .idle)
    (hbudget : budgetSpent s.cfg.pollBudget s.seq.polls = false) (hi : isIdle b = false)
    (h : s.replies [readCall s.cfg .command] = [.ok b]) : ∃ t,
      step s = .next t ∧ Piece s t [readCall s.cfg .command] ∧ Waiting t w ∧ t.seq.polls = s.seq.polls + 1
        ∧ t.seq.tmp = b ∧ t.ans = s.ans ∧ t.parsed = none := by
  obtain ⟨t, ht, hpiece, hans, -, hpolls, htmp, hparsed⟩ := poll_waits (k := restOf w) hb hbudget hi h
  have hwaits : Waiting t w := by
    obtain ⟨hbusy, hin, hcur, hresp, -⟩ := hwait
    exact ⟨hpiece.busy.trans hbusy, hpiece.wait.trans hin, hpiece.curOp.trans hcur, hpiece.resp.trans hresp, htmp ▸ hi⟩
  exact ⟨t, (step_waiting hquiet hwait hw).trans ht, hpiece, hwaits, hpolls, htmp, hans, hparsed⟩

end

/-- Settles O23: the turn ends at the spent budget, goes on after a poll that is not Idle, ends at Err, or ends at Idle. -/
theorem pollTurn : Obligations.PollTurn := by
  intro s w hquiet hb hwait hw
  have hstep := step_waiting hquiet hwait hw
  refine ⟨fun hbudget => ?timeout, fun hbudget => ⟨fun b hi h => ?busy, fun h => ?err, fun b hsend hi h => ?idle⟩⟩
  case timeout =>
    exact ⟨_, by rw [hstep, pollThen_timeout hbudget]; rfl, (Piece.refl s).ended _ rfl, rfl, rfl⟩
  case busy =>
    obtain ⟨t, ht, hpiece, hwaits, hpolls, htmp, hans, hparsed⟩ := step_poll_busy hquiet hb hwait hw hbudget hi h
    exact ⟨t, ht, hwaits, hpolls, htmp, hpiece.locked, hpiece.lat, hpiece.keepsOutside hparsed, hpiece.issued h, hans,
      hpiece.sink⟩
  case err =>
    obtain ⟨s', hrun, hpiece, hans⟩ := pollThen_err (k := restOf w) hb hbudget h
    exact ⟨_, _, by rw [hstep, hrun]; rfl, (hpiece.ended _ h).draw, hans, hpiece.sink⟩
  case idle =>
    subst hsend
    obtain ⟨s', hrun, hpiece, hans, -⟩ := pollThen_idle (k := restOf .sendCmd) hb hbudget hi h
    exact ⟨_, by rw [hstep, hrun]; rfl, hpiece.ended _ h, hans, hpiece.sink⟩

/-- Settles O41: each step is one more poll that is not Idle. -/
theorem unboundedWaitStays : Obligations.UnboundedWaitStays := by
  rintro n s w bytes hquiet hb hwait hw hbudget rfl hnot h
  induction bytes generalizing s with
  | nil => exact ⟨s, rfl, hwait, rfl⟩
  | cons b bs ih =>
    obtain ⟨hfirst, hrest⟩ := replies_split (cs := [readCall s.cfg .command]) (xs := [Reply.ok b]) h rfl
    obtain ⟨s1, hstep, hpiece, hwait1, hpolls, -⟩ :=
      step_poll_busy hquiet hb hwait hw (by rw [hbudget]; rfl) (hnot b (by simp)) hfirst
    obtain ⟨t, hsteps, hwaits, hcount⟩ := ih s1 (quiet_of_held hquiet hpiece.held hpiece.owner) (hpiece.bound.trans hb) hwait1
      (hpiece.cfg ▸ hbudget) (fun x hx => hnot x (by simp [hx])) (by rw [hpiece.cfg, hpiece.replies]; exact hrest)
    exact ⟨t, leadsTo_step ⟨s1, hstep, hsteps⟩, hwaits, by rw [hcount, hpolls, List.length_cons]; omega⟩

/-! ### SEND_CMD (R110, R153) -/

theorem exec_sendCmd_num (c : CommandCode) (s : State) :
    exec (.sendCmd c.num) s = conclude (sendCmdThen c .sendCmd (restOf .sendCmd) (s.begin .sendCmd { code := c.num })) := by
  cases c <;> rfl

/-- The write of SEND_CMD fails (R110). -/
theorem sendCmdThen_err {c : CommandCode} {w : Wait} {k : State → Run Result} {s : State} (hb : s.bound = true)
    (h : s.replies (sendCalls s.cfg c 0) = [.err]) :
    sendCmdThen c w k s = .fail (.busError none) (s.afterCalls (sendCalls s.cfg c 0)) := by
  rw [sendCmdThen, sendStart, ifBound_bound _ hb, regWr_err (v := commandByte s.cfg c) hb h]
  rfl

/-- The write of SEND_CMD answered Ok: the poll loop begins (R110). -/
theorem sendCmdThen_ok {c : CommandCode} {s : State} {x : Byte} (hb : s.bound = true)
    (h : s.replies (sendCalls s.cfg c 0) = [.ok x]) (w : Wait) (k : State → Run Result) : ∃ s',
      sendCmdThen c w k s = pollThen k s' ∧ Reached s s' (sendCalls s.cfg c 0) ∧ s'.ans = s.ans ∧ s'.seq.polls = 0
        ∧ s'.seq.wait = w := by
  obtain ⟨s', hrun, hpiece, hans, -, hpolls⟩ := sendStart_ok hb h
  exact ⟨s'.setWait w, by rw [sendCmdThen, hrun]; rfl, hpiece.reached.trans (setWait_reached s' w), hans, hpolls, rfl⟩

theorem pollsOk_first {p : Params} (hwf : p.wf) {idle : Byte} (hi : isIdle idle = true) : PollsOk p [] idle := by
  refine ⟨nofun, hi, fun k hk => Nat.pos_of_ne_zero ?_⟩
  rintro rfl
  exact hwf.2 hk

section
variable {o : Host.Outcome State Fault Refusal} {n : Nat} {P : State → Prop}

theorem exists_steps_of_leadsTo (h : ∃ t, LeadsTo o n t ∧ P t) : ∃ t0 t, o = .next t0 ∧ stepsTo n t0 = some t ∧ P t := by
  obtain ⟨t, ⟨t0, h0, hsteps⟩, ht⟩ := h
  exact ⟨t0, t, h0, hsteps, ht⟩

theorem exists_next_of_leadsTo (h : ∃ t, LeadsTo o 0 t ∧ P t) : ∃ t, o = .next t ∧ P t := by
  obtain ⟨t, ⟨t0, h0, hsteps⟩, ht⟩ := h
  cases hsteps
  exact ⟨_, h0, ht⟩

end

section
variable {c : CommandCode} {s : State} {x : Byte} {busy : List Byte}

/-- SEND_CMD after any polls that the budget allows (R110). -/
theorem sendCmd_run {idle : Byte} (hb : s.bound = true) (hquiet : busy ≠ [] → Quiet s) (hpolls : PollsOk s.cfg busy idle)
    (h : s.replies (sendCalls s.cfg c (busy.length + 1)) = sendReplies x busy idle) : ∃ t,
      LeadsTo (exec (.sendCmd c.num) s) busy.length t
        ∧ Ended s t (.ok .none none) (sendCalls s.cfg c (busy.length + 1)) (sendReplies x busy idle)
        ∧ t.ans = s.ans ∧ t.sink = s.sink := by
  obtain ⟨s', hreached, hans, -, hrest⟩ := sendCmdThen_run (w := .sendCmd) (s := s.begin .sendCmd { code := c.num }) nofun rfl hb
    hquiet hpolls ((replies_begin ..).trans h)
  refine ⟨_, ?_, hreached.ended_begin (.ok .none none) h, hans, hreached.sink⟩
  rw [exec_sendCmd_num]
  exact hrest 0 _ (leadsTo_zero rfl)

/-- SEND_CMD whose write is answered Ok comes to its first poll (R110). -/
theorem sendCmd_polls {n : Nat} {replies : List Reply} (hb : s.bound = true)
    (h : s.replies (sendCalls s.cfg c n) = Reply.ok x :: replies) : ∃ s',
      exec (.sendCmd c.num) s = conclude (pollThen (restOf .sendCmd) s')
        ∧ Reached (s.begin .sendCmd { code := c.num }) s' (sendCalls s.cfg c 0)
        ∧ s'.ans = s.ans ∧ s'.seq.polls = 0 ∧ s'.seq.wait = .sendCmd
        ∧ s'.replies (List.replicate n (readCall s'.cfg .command)) = replies := by
  set s0 := s.begin .sendCmd { code := c.num }
  have hbegun : s0.replies (sendCalls s.cfg c n) = Reply.ok x :: replies := (replies_begin ..).trans h
  obtain ⟨hwrite, hread⟩ := replies_split (cs := sendCalls s.cfg c 0) (xs := [Reply.ok x]) hbegun rfl
  obtain ⟨s', hrun, hreached, hans, hpolls, hwait⟩ := sendCmdThen_ok (s := s0) hb hwrite .sendCmd (restOf .sendCmd)
  refine ⟨s', by rw [exec_sendCmd_num, hrun], hreached, hans, hpolls, hwait, ?_⟩
  rw [hreached.cfg, hreached.replies]
  exact hread

/-- SEND_CMD whose polls are none of them Idle, as many as the budget allows (R110, R153). -/
theorem sendCmd_timeout (hb : s.bound = true) (hquiet : Quiet s) (hne : busy ≠ [])
    (hbudget : s.cfg.pollBudget = some busy.length) (hnot : ∀ b ∈ busy, isIdle b = false)
    (h : s.replies (sendCalls s.cfg c busy.length) = Reply.ok x :: busy.map Reply.ok) : ∃ t,
      LeadsTo (exec (.sendCmd c.num) s) busy.length t
        ∧ Ended s t (.failed .chipTimeout) (sendCalls s.cfg c busy.length) (Reply.ok x :: busy.map Reply.ok)
        ∧ t.ans = s.ans ∧ t.sink = s.sink := by
  obtain ⟨s1, hexec, r1, hans1, hpolls, hwait, hread⟩ := sendCmd_polls hb h
  obtain ⟨s2, p2, hans2, hleads⟩ := polls_timeout (w := .sendCmd) nofun busy s1 hne hwait r1.busy (r1.bound.trans hb)
    (quiet_of_held hquiet r1.held r1.owner) hnot (by rw [r1.cfg, hpolls, Nat.zero_add]; exact hbudget) hread
  have hreached := r1.trans (r1.cfg ▸ p2.reached)
  exact ⟨_, hexec ▸ hleads, hreached.ended_begin _ h, hans2.trans hans1, hreached.sink⟩

end

/-- Settles O21: a run whose first poll is Idle takes no further step. -/
theorem sendCmdCompletes : Obligations.SendCmdCompletes := fun _ _ _ _ hb hwf hi h =>
  exists_next_of_leadsTo (sendCmd_run (busy := []) hb (absurd rfl) (pollsOk_first hwf hi) h)

/-- Settles O24: the polls end with Idle, or with the budget, which R6 does not let be 0. -/
theorem sendCmdAfterPolls : Obligations.SendCmdAfterPolls := by
  refine fun c s x busy hb hwf hquiet => ⟨fun idle hpolls h => ?_, fun hbudget hnot h => ?_⟩
  · exact exists_steps_of_leadsTo (sendCmd_run hb (fun _ => hquiet) hpolls h)
  · have hne : busy ≠ [] := by
      rintro rfl
      exact hwf.2 hbudget
    exact exists_steps_of_leadsTo (sendCmd_timeout hb hquiet hne hbudget hnot h)

/-- Settles O22: the write fails, or the first poll does, or it is not Idle. -/
theorem sendCmdWaitsOrFails : Obligations.SendCmdWaitsOrFails := by
  refine fun c s hb hwf => ⟨fun x b hi h => ?waits, fun h => ?write, fun x h => ?poll⟩
  case waits =>
    obtain ⟨s1, hexec, r1, hans1, hpolls1, hwait, hread⟩ := sendCmd_polls hb h
    obtain ⟨s2, hrun, p2, hans2, -, hpolls2, htmp⟩ := pollThen_busy (k := restOf .sendCmd) (r1.bound.trans hb)
      (by rw [hpolls1, r1.cfg]; exact budgetSpent_zero hwf) hi hread
    have hreached := r1.trans (r1.cfg ▸ p2.reached)
    obtain ⟨hkeeps, hissued⟩ := hreached.left (envEq_begin ..) rfl rfl rfl rfl h
    exact ⟨s2.dropParsed, by rw [hexec, hrun, conclude_wait],
      ⟨hreached.busy, p2.wait.trans hwait, hreached.curOp, hreached.resp, htmp ▸ hi⟩,
      hpolls2.trans (by rw [hpolls1]), htmp, hreached.locked, hkeeps, hissued, hans2.trans hans1, hreached.sink⟩
  case write =>
    set s0 := s.begin .sendCmd { code := c.num }
    have hrun := sendCmdThen_err (c := c) (w := .sendCmd) (k := restOf .sendCmd) (s := s0) hb ((replies_begin ..).trans h)
    exact ⟨_, _, by rw [exec_sendCmd_num, hrun]; rfl, (afterCalls_piece s0 _).reached.ended_begin _ h, rfl, rfl⟩
  case poll =>
    obtain ⟨s1, hexec, r1, hans1, hpolls1, -, hread⟩ := sendCmd_polls hb h
    obtain ⟨s2, hrun, p2, hans2⟩ := pollThen_err (k := restOf .sendCmd) (r1.bound.trans hb)
      (by rw [hpolls1, r1.cfg]; exact budgetSpent_zero hwf) hread
    have hreached := r1.trans (r1.cfg ▸ p2.reached)
    exact ⟨_, _, by rw [hexec, hrun]; rfl, (hreached.ended_begin _ h).draw, hans2.trans hans1, hreached.sink⟩

end Sys2Proof.Machine

/-! The compound operations over their whole run (O25, O26, O28, O29): their pieces follow one another (`Advances`) up to the FIFO_RD
at the end, which fails or not by the level it reads. -/

namespace Sys2Proof.Machine

/-! ### Pieces that follow one another (R112, R122) -/

/-- An operation in progress on a bound device, under these parameters; where `later` holds it takes further steps, and then nothing
that waits goes before its polls (log 17, log 24). -/
structure Ready (p : Params) (later : Prop) (s : State) : Prop where
  cfg : s.cfg = p
  bound : s.bound = true
  busy : s.seq.busy = true
  quiet : later → Quiet s

theorem ready_beginLocked {s : State} {later : Prop} (hb : s.bound = true) (hquiet : later → Quiet s) (op : OpName) (l : Latches) :
    Ready s.cfg later (s.beginLocked op l) := ⟨rfl, hb, rfl, hquiet⟩

theorem Reached.ready {p : Params} {later : Prop} {s s' : State} {calls : List BusCall} (h : Reached s s' calls)
    (hs : Ready p later s) : Ready p later s' :=
  ⟨h.cfg.trans hs.cfg, h.bound.trans hs.bound, h.busy.trans hs.busy, fun hl => quiet_of_held (hs.quiet hl) h.held h.owner⟩

/-- Running `f` from `s` comes to running `g` from `s'`, by these calls and so many further steps; the answer buffer is as it was. -/
structure Advances (f g : State → Run Result) (s s' : State) (steps : Nat) (calls : List BusCall) : Prop where
  reached : Reached s s' calls
  ans : s'.ans = s.ans
  leads : ∀ n t, LeadsTo (conclude (g s')) n t → LeadsTo (conclude (f s)) (steps + n) t

theorem Advances.trans {f g k : State → Run Result} {s s1 s2 : State} {m n : Nat} {cs ds : List BusCall}
    (h : Advances f g s s1 m cs) (h' : Advances g k s1 s2 n ds) : Advances f k s s2 (m + n) (cs ++ ds) where
  reached := h.reached.trans h'.reached
  ans := h'.ans.trans h.ans
  leads i t ht := by
    rw [Nat.add_assoc]
    exact h.leads _ t (h'.leads i t ht)

/-- A piece that waits for nothing goes before. -/
theorem Advances.after {f g k : State → Run Result} {s s1 s2 : State} {n : Nat} {cs ds : List BusCall}
    (h : Advances g k s1 s2 n ds) (hreached : Reached s s1 cs) (hans : s1.ans = s.ans) (hrun : f s = g s1) :
    Advances f k s s2 n (cs ++ ds) where
  reached := hreached.trans h.reached
  ans := h.ans.trans hans
  leads i t ht := by
    rw [hrun]
    exact h.leads i t ht

theorem Advances.ifBound {f g : State → Run Result} {s s' : State} {n : Nat} {calls : List BusCall}
    (h : Advances f g s s' n calls) (hb : s.bound = true) : Advances (ifBound f) g s s' n calls :=
  h.after (Piece.refl s).reached rfl (ifBound_bound f hb)

/-- What comes to an end there ends the whole. -/
theorem Advances.leadsTo {f g : State → Run Result} {s s' t : State} {n : Nat} {calls : List BusCall}
    (h : Advances f g s s' n calls) (ht : conclude (g s') = .next t) : LeadsTo (conclude (f s)) n t :=
  h.leads 0 t (leadsTo_zero ht)

/-- FIFO_WR, then SEND_CMD Mem (R113). -/
def writeThenMem (data : List Byte) (w : Wait) (s : State) : Run Result :=
  (fifoWr data s).andThen fun _ => sendCmdThen .mem w (restOf w)

/-- FIFO_FLUSH, then SEND_CMD Mem (R114). -/
def flushThenMem (w : Wait) (s : State) : Run Result :=
  (fifoFlush s).andThen fun _ => sendCmdThen .mem w (restOf w)

theorem exec_memWrite_eq (d : Byte) (payload : Buffer) (s : State) :
    exec (.memWrite d payload) s
      = conclude (ifBound (writeThenMem payload.toList .memWrite) (s.beginLocked .memWrite { data := payload })) := rfl

theorem exec_memRead_eq (s : State) :
    exec .memRead s = conclude (ifBound (flushThenMem .memRead) (s.beginLocked .memRead {})) := rfl

theorem exec_genRandId_eq (s : State) :
    exec .genRandId s = conclude (ifBound (writeThenMem Buffer.zero.toList .genClear) (s.beginLocked .genRandId {})) := rfl

/-- After the Idle of its MEM_WRITE, GEN_RAND_ID sends GenerateRandomId (R118). -/
theorem restOf_genClear : restOf .genClear = sendCmdThen .generateRandomId .genGenerate (restOf .genGenerate) := rfl

/-- After the Idle of GenerateRandomId, GEN_RAND_ID runs its MEM_READ (R118). -/
theorem restOf_genGenerate : restOf .genGenerate = ifBound (flushThenMem .genFetch) := rfl

/-- Replies to a SEND_CMD that ends with Idle, after `n` polls that are not and that the budget allows (R110, R153). -/
def SendOk (p : Params) (n : Nat) (replies : List Reply) : Prop :=
  ∃ x busy idle, busy.length = n ∧ PollsOk p busy idle ∧ replies = sendReplies x busy idle

theorem PollsOk.sendOk {p : Params} {busy : List Byte} {idle : Byte} (h : PollsOk p busy idle) (x : Byte) :
    SendOk p busy.length (sendReplies x busy idle) := ⟨x, busy, idle, rfl, h, rfl⟩

theorem SendOk.length {p : Params} {n : Nat} {replies : List Reply} (h : SendOk p n replies) : replies.length = n + 2 := by
  obtain ⟨x, busy, idle, rfl, -, rfl⟩ := h
  simp [sendReplies]

theorem length_sendCalls (p : Params) (c : CommandCode) (n : Nat) : (sendCalls p c n).length = n + 1 := by
  simp [sendCalls]

section
variable {p : Params} {later : Prop} {s : State} {n : Nat} {sent : List Reply} {w : Wait}

theorem advances_sendCmd {c : CommandCode} (hs : Ready p later s) (hw : w ≠ .idle) (hlater : n ≠ 0 → later)
    (hok : SendOk p n sent) (h : s.replies (sendCalls p c (n + 1)) = sent) : ∃ s',
      Advances (sendCmdThen c w (restOf w)) (restOf w) s s' n (sendCalls p c (n + 1)) := by
  obtain ⟨x, busy, idle, rfl, hpolls, rfl⟩ := hok
  obtain ⟨rfl, hb, hbusy, hquiet⟩ := hs
  obtain ⟨s', hreached, hans, -, hleads⟩ := sendCmdThen_run hw hbusy hb (fun hne => hquiet (hlater (by simpa using hne))) hpolls h
  exact ⟨s', hreached, hans, hleads⟩

theorem advances_writeThenMem {data rs : List Byte} (hs : Ready p later s) (hw : w ≠ .idle) (hlater : n ≠ 0 → later)
    (hrs : rs.length = data.length) (hok : SendOk p n sent)
    (h : s.replies (data.map (writeCall p .fifoData) ++ sendCalls p .mem (n + 1)) = rs.map Reply.ok ++ sent) : ∃ s',
      Advances (writeThenMem data w) (restOf w) s s' n
        (data.map (writeCall p .fifoData) ++ sendCalls p .mem (n + 1)) := by
  obtain ⟨hdata, hsend⟩ := replies_split h (by simp [hrs])
  obtain ⟨s1, hrun, p1, hans, -⟩ := fifoWr_ok hs.bound (hs.cfg ▸ hdata)
  have hreached := hs.cfg ▸ p1.reached
  obtain ⟨s2, hmem⟩ := advances_sendCmd (hreached.ready hs) hw hlater hok ((hreached.replies _).trans hsend)
  exact ⟨s2, hmem.after hreached hans (by rw [writeThenMem, hrun, andThen_ok])⟩

theorem advances_flushThenMem {x : Byte} (hs : Ready p later s) (hw : w ≠ .idle) (hlater : n ≠ 0 → later)
    (hok : SendOk p n sent)
    (h : s.replies (writeCall p .fifoLevel flushWord :: sendCalls p .mem (n + 1)) = Reply.ok x :: sent) : ∃ s',
      Advances (flushThenMem w) (restOf w) s s' n (writeCall p .fifoLevel flushWord :: sendCalls p .mem (n + 1)) := by
  obtain ⟨hflush, hsend⟩ := replies_split (cs := [writeCall p .fifoLevel flushWord]) (xs := [Reply.ok x]) h rfl
  have hrun := regWr_ok hs.bound (hs.cfg ▸ hflush)
  rw [hs.cfg] at hrun
  have hreached := (afterCall_piece s (writeCall p .fifoLevel flushWord)).reached
  obtain ⟨s2, hmem⟩ := advances_sendCmd (hreached.ready hs) hw hlater hok ((hreached.replies _).trans hsend)
  exact ⟨s2, hmem.after hreached rfl (by rw [flushThenMem, fifoFlush, hrun, andThen_ok])⟩

end

/-! ### The FIFO_RD at the end of MEM_READ and GEN_RAND_ID (R101, R114, R118) -/

theorem afterMemRead_over {s : State} {lb : Byte} (hb : s.bound = true) (hpolicy : s.cfg.levelOver = .fault)
    (hover : 25 < lb.toNat % 128) (h : s.replies [readCall s.cfg .fifoLevel] = [.ok lb]) : ∃ s',
      afterMemRead s = .fail (.fifoLevelExceedsBuffer (levelOf lb)) s' ∧ Piece s s' [readCall s.cfg .fifoLevel]
        ∧ s'.ans = s.ans := by
  obtain ⟨s', hrun, hrest⟩ := fifoRd_over (d := .ans) hb hpolicy (hover.trans_eq (levelOf_toNat lb).symm) h
  exact ⟨s', by rw [afterMemRead, hrun, andThen_fail], hrest⟩

/-- GEN_RAND_ID fails so under either routing (log 19). -/
theorem afterGenFetch_over {s : State} {lb : Byte} (hb : s.bound = true) (hpolicy : s.cfg.levelOver = .fault)
    (hover : 25 < lb.toNat % 128) (h : s.replies [readCall s.cfg .fifoLevel] = [.ok lb]) : ∃ s',
      afterGenFetch s = .fail (.fifoLevelExceedsBuffer (levelOf lb)) s' ∧ Piece s s' [readCall s.cfg .fifoLevel]
        ∧ s'.ans = s.ans := by
  by_cases hroute : s.cfg.routeRandomId = true
  · rw [show afterGenFetch s = afterMemRead s from if_pos hroute]
    exact afterMemRead_over hb hpolicy hover h
  · obtain ⟨s', hrun, hrest⟩ := fifoRd_over (d := .loc) hb hpolicy (hover.trans_eq (levelOf_toNat lb).symm) h
    exact ⟨s', by rw [afterGenFetch, if_neg hroute, hrun, andThen_fail], hrest⟩

/-- The bytes of the local buffer go to the sink, under the routing the spec decides (D27). -/
theorem afterGenFetch_ok {s : State} {lb : Byte} {bytes : List Byte} (hb : s.bound = true) (hroute : s.cfg.routeRandomId = false)
    (hlength : bytes.length = lb.toNat % 128) (hroom : bytes.length ≤ 25)
    (h : s.replies (readCall s.cfg .fifoLevel :: List.replicate bytes.length (readCall s.cfg .fifoData))
      = Reply.ok lb :: bytes.map Reply.ok) : ∃ s',
      afterGenFetch s = .ok { value := .command .noAnswer } (s'.emit bytes)
        ∧ Piece s s' (readCall s.cfg .fifoLevel :: List.replicate bytes.length (readCall s.cfg .fifoData))
        ∧ s'.ans = s.ans := by
  have hlevel : (levelOf lb).toNat = bytes.length := (levelOf_toNat lb).trans hlength.symm
  obtain ⟨s', hrun, hpiece, -, hans, hloc⟩ := fifoRd_ok (d := .loc) hb hlevel hroom h
  refine ⟨s', ?_, hpiece, hans nofun⟩
  rw [afterGenFetch, if_neg (by simp [hroute]), hrun, andThen_ok, hlevel, hloc rfl, List.take_left]

/-- What is on the sink is no part of how an operation ends. -/
theorem Ended.emit {s s' : State} {r : Response} {calls : List BusCall} {replies : List Reply}
    (h : Ended s (s'.finish r) r calls replies) (bytes : List Byte) : Ended s ((s'.emit bytes).finish r) r calls replies := h

/-! ### The runs of MEM_READ and GEN_RAND_ID (R101, R114, R118) -/

/-- What the last piece of a compound operation leaves is what the operation leaves. -/
theorem Advances.ended {f g : State → Run Result} {s s1 s2 : State} {op : OpName} {l : Latches} {n : Nat}
    {cs ds : List BusCall} {r : Response} {replies : List Reply} (h : Advances f g (s.beginLocked op l) s1 n cs)
    (hpiece : Piece s1 s2 ds) (hend : conclude (g s1) = .next (s2.finish r)) (hans : s2.ans = s1.ans)
    (hr : s.replies (cs ++ ds) = replies) : ∃ t, LeadsTo (conclude (f (s.beginLocked op l))) n t
      ∧ Ended s t r (cs ++ ds) replies ∧ t.ans = s.ans ∧ t.sink = s.sink := by
  have hreached := h.reached.trans hpiece.reached
  exact ⟨_, h.leadsTo hend, hreached.ended_beginLocked r hr, hans.trans h.ans, hreached.sink⟩

section
variable {s : State} {n n1 n2 n3 : Nat} {sent : List Reply} {x lb : Byte} {bytes : List Byte}

/-- MEM_READ whose frames are answered Ok up to a level above 25 (R101, R114). -/
theorem memRead_run_over (hb : s.bound = true) (hpolicy : s.cfg.levelOver = .fault) (hquiet : n ≠ 0 → Quiet s)
    (hover : 25 < lb.toNat % 128) (hok : SendOk s.cfg n sent) :
    let calls := writeCall s.cfg .fifoLevel flushWord :: sendCalls s.cfg .mem (n + 1) ++ [readCall s.cfg .fifoLevel]
    let replies := Reply.ok x :: sent ++ [Reply.ok lb]
    s.replies calls = replies → ∃ t, LeadsTo (exec .memRead s) n t
      ∧ Ended s t (.failed (.fifoLevelExceedsBuffer (levelOf lb))) calls replies ∧ t.ans = s.ans ∧ t.sink = s.sink := by
  intro calls replies h
  obtain ⟨hcommand, hread⟩ := replies_split ((replies_beginLocked s .memRead {} calls).trans h)
    (by simp [length_sendCalls, hok.length])
  obtain ⟨s1, hadv⟩ := advances_flushThenMem (w := .memRead) (ready_beginLocked hb hquiet .memRead {}) nofun id hok hcommand
  have hcfg : s1.cfg = s.cfg := hadv.reached.cfg
  obtain ⟨s2, hrun, hpiece, hans⟩ := afterMemRead_over (hadv.reached.bound.trans hb) (hcfg ▸ hpolicy) hover
    (by rw [hcfg, hadv.reached.replies]; exact hread)
  rw [exec_memRead_eq]
  exact (hadv.ifBound hb).ended (hcfg ▸ hpiece) (congrArg conclude hrun) hans h

/-- The frames of GEN_RAND_ID up to its FIFO_RD, with so many polls that are not Idle in each SEND_CMD (R118, R122). -/
def genCalls (p : Params) (n1 n2 n3 : Nat) : List BusCall :=
  List.replicate 25 (writeCall p .fifoData 0) ++ sendCalls p .mem (n1 + 1) ++ sendCalls p .generateRandomId (n2 + 1)
    ++ writeCall p .fifoLevel flushWord :: sendCalls p .mem (n3 + 1)

/-- Replies to these frames: Ok throughout, and each SEND_CMD ends with Idle. -/
def GenOk (p : Params) (n1 n2 n3 : Nat) (replies : List Reply) : Prop :=
  ∃ (rs : List Byte) (r1 r2 r3 : List Reply) (x : Byte), rs.length = 25 ∧ SendOk p n1 r1 ∧ SendOk p n2 r2 ∧ SendOk p n3 r3
    ∧ replies = rs.map Reply.ok ++ r1 ++ r2 ++ Reply.ok x :: r3

theorem GenOk.length (h : GenOk s.cfg n1 n2 n3 sent) : (genCalls s.cfg n1 n2 n3).length = sent.length := by
  obtain ⟨rs, r1, r2, r3, x, hrs, h1, h2, h3, rfl⟩ := h
  simp [-List.reduceReplicate, genCalls, length_sendCalls, hrs, h1.length, h2.length, h3.length]

theorem genRandId_advances (hb : s.bound = true) (hquiet : n1 + n2 + n3 ≠ 0 → Quiet s) (hok : GenOk s.cfg n1 n2 n3 sent)
    (h : (s.beginLocked .genRandId {}).replies (genCalls s.cfg n1 n2 n3) = sent) : ∃ s',
      Advances (ifBound (writeThenMem Buffer.zero.toList .genClear)) afterGenFetch (s.beginLocked .genRandId {}) s'
        (n1 + n2 + n3) (genCalls s.cfg n1 n2 n3) := by
  obtain ⟨rs, r1, r2, r3, x, hrs, ok1, ok2, ok3, rfl⟩ := hok
  have hs := ready_beginLocked hb hquiet .genRandId {}
  obtain ⟨h12, h3⟩ := replies_split h
    (by simp [-List.reduceReplicate, length_sendCalls, hrs, ok1.length, ok2.length])
  obtain ⟨h1, h2⟩ := replies_split h12 (by simp [-List.reduceReplicate, length_sendCalls, hrs, ok1.length])
  obtain ⟨s1, a1⟩ := advances_writeThenMem (data := Buffer.zero.toList) (w := .genClear) hs nofun (by omega) hrs ok1 h1
  rw [restOf_genClear] at a1
  obtain ⟨s2, a2⟩ := advances_sendCmd (w := .genGenerate) (a1.reached.ready hs) nofun (by omega) ok2
    ((a1.reached.replies _).trans h2)
  rw [restOf_genGenerate] at a2
  have a12 := (a1.ifBound hb).trans a2
  have hs2 := a12.reached.ready hs
  obtain ⟨s3, a3⟩ := advances_flushThenMem (w := .genFetch) hs2 nofun (by omega) ok3 ((a12.reached.replies _).trans h3)
  exact ⟨s3, a12.trans (a3.ifBound hs2.bound)⟩

/-- GEN_RAND_ID whose frames are all answered Ok, with a level of at most 25, under the routing the spec decides (R118, D27). -/
theorem genRandId_run (hb : s.bound = true) (hquiet : n1 + n2 + n3 ≠ 0 → Quiet s) (hroute : s.cfg.routeRandomId = false)
    (hok : GenOk s.cfg n1 n2 n3 sent) (hlength : bytes.length = lb.toNat % 128) (hroom : bytes.length ≤ 25) :
    let calls := genCalls s.cfg n1 n2 n3
      ++ readCall s.cfg .fifoLevel :: List.replicate bytes.length (readCall s.cfg .fifoData)
    let replies := sent ++ Reply.ok lb :: bytes.map Reply.ok
    s.replies calls = replies → ∃ t, LeadsTo (exec .genRandId s) (n1 + n2 + n3) t
      ∧ Ended s t (.ok (.command .noAnswer) none) calls replies ∧ t.ans = s.ans ∧ t.sink = s.sink ++ bytes := by
  intro calls replies h
  obtain ⟨hcommand, hread⟩ := replies_split ((replies_beginLocked s .genRandId {} calls).trans h) hok.length
  obtain ⟨s1, hadv⟩ := genRandId_advances hb hquiet hok hcommand
  have hcfg : s1.cfg = s.cfg := hadv.reached.cfg
  obtain ⟨s2, hrun, hpiece, hans⟩ := afterGenFetch_ok (hadv.reached.bound.trans hb) (hcfg ▸ hroute) hlength hroom
    (by rw [hcfg, hadv.reached.replies]; exact hread)
  have hreached := hadv.reached.trans (hcfg ▸ hpiece.reached)
  exact ⟨_, exec_genRandId_eq s ▸ hadv.leadsTo (congrArg conclude hrun), (hreached.ended_beginLocked _ h).emit bytes,
    hans.trans hadv.ans, congrArg (· ++ bytes) hreached.sink⟩

/-- GEN_RAND_ID whose frames are answered Ok up to a level above 25 (R101, R118). -/
theorem genRandId_run_over (hb : s.bound = true) (hpolicy : s.cfg.levelOver = .fault) (hquiet : n1 + n2 + n3 ≠ 0 → Quiet s)
    (hover : 25 < lb.toNat % 128) (hok : GenOk s.cfg n1 n2 n3 sent) :
    let calls := genCalls s.cfg n1 n2 n3 ++ [readCall s.cfg .fifoLevel]
    let replies := sent ++ [Reply.ok lb]
    s.replies calls = replies → ∃ t, LeadsTo (exec .genRandId s) (n1 + n2 + n3) t
      ∧ Ended s t (.failed (.fifoLevelExceedsBuffer (levelOf lb))) calls replies ∧ t.ans = s.ans ∧ t.sink = s.sink := by
  intro calls replies h
  obtain ⟨hcommand, hread⟩ := replies_split ((replies_beginLocked s .genRandId {} calls).trans h) hok.length
  obtain ⟨s1, hadv⟩ := genRandId_advances hb hquiet hok hcommand
  have hcfg : s1.cfg = s.cfg := hadv.reached.cfg
  obtain ⟨s2, hrun, hpiece, hans⟩ := afterGenFetch_over (hadv.reached.bound.trans hb) (hcfg ▸ hpolicy) hover
    (by rw [hcfg, hadv.reached.replies]; exact hread)
  rw [exec_genRandId_eq]
  exact hadv.ended (hcfg ▸ hpiece) (congrArg conclude hrun) hans h

end

theorem genOk_of_pollsOk {p : Params} {rs b1 b2 b3 : List Byte} {x1 x2 x3 x4 i1 i2 i3 : Byte} (hrs : rs.length = 25)
    (h1 : PollsOk p b1 i1) (h2 : PollsOk p b2 i2) (h3 : PollsOk p b3 i3) : GenOk p b1.length b2.length b3.length
      (rs.map Reply.ok ++ sendReplies x1 b1 i1 ++ sendReplies x2 b2 i2 ++ Reply.ok x3 :: sendReplies x4 b3 i3) :=
  ⟨rs, _, _, _, x3, hrs, h1.sendOk x1, h2.sendOk x2, h3.sendOk x4, rfl⟩

/-- Settles O25: a run whose first poll is Idle takes no further step. -/
theorem memWriteCompletes : Obligations.MemWriteCompletes := by
  intro d payload s rs idle calls hb hwf hi h
  have hcount : rs.length = 26 := by simpa [calls, length_sendCalls] using (congrArg List.length h).symm
  obtain ⟨ws, x, rfl⟩ := List.eq_nil_or_concat' rs |>.resolve_left (by rintro rfl; simp at hcount)
  have hsplit : (ws ++ [x] ++ [idle]).map Reply.ok = ws.map Reply.ok ++ sendReplies x [] idle := by simp [sendReplies]
  rw [hsplit] at h ⊢
  exact exists_next_of_leadsTo
    (memWrite_run (busy := []) d x payload hb (absurd rfl) (pollsOk_first hwf hi) (by simpa using hcount) h)

/-- Settles O26: a run whose first poll is Idle takes no further step. -/
theorem memReadCompletes : Obligations.MemReadCompletes := fun _ x y _ lb _ hb hwf hi hlength hroom h =>
  exists_next_of_leadsTo
    (memRead_run (busy := []) x y hb (absurd rfl) (pollsOk_first hwf hi) ((levelOf_toNat lb).trans hlength.symm) hroom h)

/-- Settles O28: a run whose first polls are all Idle takes no further step. -/
theorem genRandIdCompletes : Obligations.GenRandIdCompletes := by
  intro s rs x1 x2 x3 x4 i1 i2 i3 lb bytes calls replies hb hwf hroute h1 h2 h3 hlength hroom hrs h
  have hok := genOk_of_pollsOk (b1 := []) (b2 := []) (b3 := []) (x1 := x1) (x2 := x2) (x3 := x3) (x4 := x4) hrs
    (pollsOk_first hwf h1) (pollsOk_first hwf h2) (pollsOk_first hwf h3)
  exact exists_next_of_leadsTo (genRandId_run hb (absurd rfl) hroute hok hlength hroom h)

/-- Settles O29: each compound operation over its whole run. -/
theorem compoundsAfterPolls : Obligations.CompoundsAfterPolls := by
  intro s rs x1 x2 x3 x4 i1 i2 i3 lb b1 b2 b3 bytes read readOk hb hwf hquiet hp1 hrs
  refine ⟨fun d payload h => ?memWrite, fun hlength hroom => ⟨fun h => ?memRead, fun hp2 hp3 hroute h => ?genRandId⟩⟩
  case memWrite => exact exists_steps_of_leadsTo (memWrite_run d x1 payload hb (fun _ => hquiet) hp1 hrs h)
  case memRead =>
    exact exists_steps_of_leadsTo (memRead_run x3 x1 hb (fun _ => hquiet) hp1 ((levelOf_toNat lb).trans hlength.symm) hroom h)
  case genRandId =>
    exact exists_steps_of_leadsTo (genRandId_run hb (fun _ => hquiet) hroute (genOk_of_pollsOk hrs hp1 hp2 hp3) hlength hroom h)

end Sys2Proof.Machine

/-! How a compound operation fails (O30): the failures each piece can raise (`FailsIn`), and the level above 25 from the runs. -/

namespace Sys2Proof.Machine

/-! ### The failures of a piece (R115, R117, R153) -/

/-- A failure the run ends with is one of these. -/
def FailsIn {α : Type} (P : Failure → Prop) : Run α → Prop
  | .ok _ _ => True
  | .fail f _ => P f
  | .wait _ => True

section
variable {α β : Type} {P : Failure → Prop}

theorem failsIn_andThen {r : Run α} {k : α → State → Run β} (h : FailsIn P r) (hk : ∀ a s, FailsIn P (k a s)) :
    FailsIn P (r.andThen k) := by
  cases r with
  | ok a s => exact hk a s
  | fail f s => exact h
  | wait s => trivial

/-- The failures of every operation that uses the bus: no device (R154), and a frame that fails (R151). -/
structure HasBusFailures (P : Failure → Prop) : Prop where
  unbound : P .deviceNotBound
  bus : ∀ k, P (.busError k)

theorem HasBusFailures.atIndex (hP : HasBusFailures P) (i : Nat) : HasBusFailures fun f => P (atIndex i f) :=
  ⟨hP.unbound, fun _ => hP.bus _⟩

variable (hP : HasBusFailures P)
include hP

theorem failsIn_ifBound {k : State → Run α} {s : State} (h : FailsIn P (k s)) : FailsIn P (ifBound k s) := by
  unfold ifBound
  split
  · exact h
  · exact hP.unbound

theorem failsIn_transact (c : BusCall) (s : State) : FailsIn P (transact c s) := by
  rcases transact_cases c s with ⟨b, -, h⟩ | ⟨-, h⟩
  · exact h ▸ trivial
  · exact h ▸ hP.bus none

theorem failsIn_regWr (r : Reg) (v : Byte) (s : State) : FailsIn P (regWr r v s) :=
  failsIn_ifBound hP (failsIn_andThen (failsIn_transact hP _ s) fun _ _ => trivial)

theorem failsIn_readLoop (r : Reg) (d : Dest) (k : Nat) (s : State) : FailsIn P (readLoop r d k s) := by
  induction k generalizing s with
  | zero => trivial
  | succ k ih =>
    rw [readLoop, memRead1]
    rcases transact_cases (readCall s.cfg r) s with ⟨b, -, h⟩ | ⟨-, h⟩
    · rw [h]
      exact ih _
    · rw [h]
      exact hP.bus _

theorem failsIn_regRd (r : Reg) (n : Nat) (d : Dest) (s : State) : FailsIn P (regRd r n d s) :=
  failsIn_ifBound hP (failsIn_readLoop hP r d n _)

theorem failsIn_writeLoop (data : List Byte) (s : State) : FailsIn P (writeLoop data s) := by
  induction data generalizing s with
  | nil => trivial
  | cons b rest ih =>
    have h := fun i => failsIn_regWr (hP.atIndex i) .fifoData b s
    unfold writeLoop
    revert h
    cases regWr .fifoData b s with
    | ok u s' => exact fun _ => ih _
    | fail f s' => exact fun h => h _
    | wait s' => exact fun _ => trivial

theorem failsIn_fifoWr (data : List Byte) (s : State) : FailsIn P (fifoWr data s) :=
  failsIn_ifBound hP (failsIn_writeLoop hP data _)

theorem failsIn_getVersion (hversion : ∀ b, P (.unrecognizedDevice b)) (s : State) : FailsIn P (getVersion s) := by
  refine failsIn_andThen (failsIn_regRd hP _ _ _ s) fun _ s' => ?_
  split
  · exact hversion _
  · trivial

theorem failsIn_fifoRd (hlevel : ∀ l, P (.fifoLevelExceedsBuffer l)) (d : Dest) (s : State) : FailsIn P (fifoRd d s) := by
  refine failsIn_andThen (failsIn_andThen (failsIn_regRd hP _ _ _ s) fun _ _ => trivial) fun l s1 => ?_
  split
  · exact failsIn_andThen (failsIn_regRd hP _ _ _ s1) fun _ _ => trivial
  · split
    · exact hlevel l
    · exact failsIn_andThen (failsIn_regRd hP _ _ _ s1) fun _ _ => trivial

theorem failsIn_pollThen (htimeout : P .chipTimeout) {k : State → Run Result} (hk : ∀ s, FailsIn P (k s)) (s : State) :
    FailsIn P (pollThen k s) := by
  refine failsIn_andThen ?_ fun idle s' => ?_
  · unfold pollOnce
    split
    · exact htimeout
    · exact failsIn_andThen (failsIn_regRd hP _ _ _ s) fun _ _ => trivial
  · split
    · exact hk s'
    · trivial

theorem failsIn_sendCmdThen (htimeout : P .chipTimeout) (c : CommandCode) (w : Wait) {k : State → Run Result}
    (hk : ∀ s, FailsIn P (k s)) (s : State) : FailsIn P (sendCmdThen c w k s) :=
  failsIn_andThen (failsIn_ifBound hP (failsIn_andThen (failsIn_regWr hP _ _ s) fun _ _ => trivial)) fun _ _ =>
    failsIn_pollThen hP htimeout hk _

theorem failsIn_afterGenFetch (hlevel : ∀ l, P (.fifoLevelExceedsBuffer l)) (s : State) : FailsIn P (afterGenFetch s) := by
  unfold afterGenFetch
  split <;> exact failsIn_andThen (failsIn_fifoRd hP hlevel _ s) fun _ _ => trivial

theorem failsIn_afterGenGenerate (htimeout : P .chipTimeout) (hlevel : ∀ l, P (.fifoLevelExceedsBuffer l)) (s : State) :
    FailsIn P (afterGenGenerate s) :=
  failsIn_ifBound hP (failsIn_andThen (failsIn_regWr hP _ _ s) fun _ =>
    failsIn_sendCmdThen hP htimeout _ _ (failsIn_afterGenFetch hP hlevel))

/-- What follows a SEND_CMD reads the FIFO unless it belongs to MEM_WRITE or is an operation of its own (R113, R114, R118). -/
theorem failsIn_restOf (htimeout : P .chipTimeout) (w : Wait)
    (hlevel : w ≠ .sendCmd → w ≠ .memWrite → ∀ l, P (.fifoLevelExceedsBuffer l)) (s : State) : FailsIn P (restOf w s) := by
  cases w with
  | idle | sendCmd | memWrite => trivial
  | memRead => exact failsIn_andThen (failsIn_fifoRd hP (hlevel nofun nofun) _ s) fun _ _ => trivial
  | genClear => exact failsIn_sendCmdThen hP htimeout _ _ (failsIn_afterGenGenerate hP htimeout (hlevel nofun nofun)) s
  | genGenerate => exact failsIn_afterGenGenerate hP htimeout (hlevel nofun nofun) s
  | genFetch => exact failsIn_afterGenFetch hP (hlevel nofun nofun) s

theorem failsIn_writeThenMem (htimeout : P .chipTimeout) {w : Wait}
    (hlevel : w ≠ .sendCmd → w ≠ .memWrite → ∀ l, P (.fifoLevelExceedsBuffer l)) (data : List Byte) (s : State) :
    FailsIn P (writeThenMem data w s) :=
  failsIn_andThen (failsIn_fifoWr hP data s) fun _ =>
    failsIn_sendCmdThen hP htimeout _ _ (failsIn_restOf hP htimeout w hlevel)

theorem failsIn_flushThenMem (htimeout : P .chipTimeout) {w : Wait}
    (hlevel : w ≠ .sendCmd → w ≠ .memWrite → ∀ l, P (.fifoLevelExceedsBuffer l)) (s : State) :
    FailsIn P (flushThenMem w s) :=
  failsIn_andThen (failsIn_regWr hP _ _ s) fun _ => failsIn_sendCmdThen hP htimeout _ _ (failsIn_restOf hP htimeout w hlevel)

end

theorem grows_writeThenMem {data : List Byte} (hdata : data.length ≤ 25) (w : Wait) (s : State) :
    Grows s (writeThenMem data w s) :=
  Grows_andThen (Grows_fifoWr _ s hdata) fun _ => Grows_sendCmdThen _ _ (Grows_restOf w)

theorem grows_flushThenMem (w : Wait) (s : State) : Grows s (flushThenMem w s) :=
  Grows_andThen (Grows_fifoFlush s) fun _ => Grows_sendCmdThen _ _ (Grows_restOf w)

/-- A failed response is that of a run that failed: one that waits has none (log 12). -/
theorem failure_of_conclude {P : Failure → Prop} {s t : State} {run : Run Result} {f : Failure} (h : FailsIn P run)
    (hgrows : Grows s run) (hresp : s.resp = none) (ht : conclude run = .next t) (hf : t.resp = some (.failed f)) : P f := by
  cases run with
  | ok a s' =>
    cases ht
    cases hf
  | fail g s' =>
    cases ht
    cases hf
    exact h
  | wait s' =>
    obtain ⟨new, g, -⟩ := hgrows
    cases ht
    cases (g.kept.resp.trans hresp).symm.trans hf

/-- The failures of a compound operation that sends commands, one that reads the FIFO or not. -/
def SendsCommands (readsFifo : Prop) (f : Failure) : Prop :=
  f = .deviceNotBound ∨ (∃ k, f = .busError k) ∨ f = .chipTimeout ∨ (readsFifo ∧ ∃ l, f = .fifoLevelExceedsBuffer l)

theorem sendsCommands_bus (readsFifo : Prop) : HasBusFailures (SendsCommands readsFifo) :=
  ⟨.inl rfl, fun k => .inr (.inl ⟨k, rfl⟩)⟩

theorem sendsCommands_timeout (readsFifo : Prop) : SendsCommands readsFifo .chipTimeout := .inr (.inr (.inl rfl))

theorem sendsCommands_level {readsFifo : Prop} (h : readsFifo) (l : BitVec 7) :
    SendsCommands readsFifo (.fifoLevelExceedsBuffer l) := .inr (.inr (.inr ⟨h, l, rfl⟩))

section
variable {s t : State} {f : Failure}

theorem memWrite_failure {d : Byte} {payload : Buffer} (ht : exec (.memWrite d payload) s = .next t)
    (hf : t.resp = some (.failed f)) : SendsCommands False f := by
  rw [exec_memWrite_eq] at ht
  have hfails := failsIn_writeThenMem (sendsCommands_bus False) (sendsCommands_timeout _) (w := .memWrite) (by simp)
  exact failure_of_conclude (failsIn_ifBound (sendsCommands_bus _) (hfails payload.toList _))
    (Grows_ifBound (grows_writeThenMem (by simp) .memWrite _)) rfl ht hf

theorem memRead_failure (ht : exec .memRead s = .next t) (hf : t.resp = some (.failed f)) : SendsCommands True f := by
  rw [exec_memRead_eq] at ht
  have hfails := failsIn_flushThenMem (sendsCommands_bus True) (sendsCommands_timeout _) (w := .memRead)
    fun _ _ => sendsCommands_level trivial
  exact failure_of_conclude (failsIn_ifBound (sendsCommands_bus _) (hfails _))
    (Grows_ifBound (grows_flushThenMem .memRead _)) rfl ht hf

theorem genRandId_failure (ht : exec .genRandId s = .next t) (hf : t.resp = some (.failed f)) : SendsCommands True f := by
  rw [exec_genRandId_eq] at ht
  have hfails := failsIn_writeThenMem (sendsCommands_bus True) (sendsCommands_timeout _) (w := .genClear)
    fun _ _ => sendsCommands_level trivial
  exact failure_of_conclude (failsIn_ifBound (sendsCommands_bus _) (hfails _ _))
    (Grows_ifBound (grows_writeThenMem (by simp) .genClear _)) rfl ht hf

theorem getVersion_failure (ht : exec .getVersion s = .next t) (hf : t.resp = some (.failed f)) :
    f = .deviceNotBound ∨ (∃ k, f = .busError k) ∨ ∃ b, f = .unrecognizedDevice b := by
  have hbus : HasBusFailures fun f => f = .deviceNotBound ∨ (∃ k, f = .busError k) ∨ ∃ b, f = .unrecognizedDevice b :=
    ⟨.inl rfl, fun k => .inr (.inl ⟨k, rfl⟩)⟩
  exact failure_of_conclude (s := s.beginLocked .getVersion {})
    (failsIn_ifBound hbus (failsIn_getVersion hbus (fun b => .inr (.inr ⟨b, rfl⟩)) _))
    (Grows_ifBound (Grows_getVersion _)) rfl ht hf

theorem step_failure {w : Wait} (hwait : Waiting s w) (hw : w ≠ .idle) (hquiet : Quiet s) (ht : step s = .next t)
    (hf : t.resp = some (.failed f)) : SendsCommands (w ≠ .sendCmd ∧ w ≠ .memWrite) f := by
  rw [step_waiting hquiet hwait hw] at ht
  obtain ⟨-, -, -, hresp, -⟩ := hwait
  refine failure_of_conclude (failsIn_pollThen (sendsCommands_bus _) (sendsCommands_timeout _) ?_ s)
    (Grows_pollThen (Grows_restOf w) s) hresp ht hf
  exact failsIn_restOf (sendsCommands_bus _) (sendsCommands_timeout _) w fun h1 h2 => sendsCommands_level ⟨h1, h2⟩

end

/-- A step of a block that is owned with no SEND_CMD that waits gives no next state. -/
theorem ne_idle_of_step {s t : State} {w : Wait} (hwait : Waiting s w) (hquiet : Quiet s) (ht : step s = .next t) : w ≠ .idle := by
  obtain ⟨hbusy, rfl, -⟩ := hwait
  rw [step_owned hquiet (by simp [State.owned, hbusy])] at ht
  exact wait_of_resume ht

/-- Settles O30: what each operation can raise, at once and after waiting, and the two runs that meet a level above 25. -/
theorem compoundFailures : Obligations.CompoundFailures := by
  refine ⟨fun s t f hf => ⟨fun d payload ht => ?_, fun ht => ?_, fun ht => getVersion_failure ht hf⟩,
    fun s t f w hwait hquiet ht hf => ?_, fun s rs x1 x2 x3 x4 i1 i2 i3 lb b1 b2 b3 hb _ hpolicy hquiet hover hp1 => ?_⟩
  · simpa [SendsCommands] using memWrite_failure ht hf
  · simpa [SendsCommands] using ht.elim (memRead_failure · hf) (genRandId_failure · hf)
  · simpa [SendsCommands, and_assoc] using step_failure hwait (ne_idle_of_step hwait hquiet ht) hquiet ht hf
  · rw [← levelOf_eq_ofNat]
    exact ⟨fun h => exists_steps_of_leadsTo (memRead_run_over hb hpolicy (fun _ => hquiet) hover (hp1.sendOk x1) h),
      fun hp2 hp3 hrs h => exists_steps_of_leadsTo
        (genRandId_run_over hb hpolicy (fun _ => hquiet) hover (genOk_of_pollsOk hrs hp1 hp2 hp3) h)⟩

end Sys2Proof.Machine

/-! With a finite budget every wait ends (O40): a step of an operation that waits is one poll more of the same SEND_CMD, or leaves fewer
SEND_CMDs to come, or ends the operation. -/

namespace Sys2Proof.Machine

/-- The SEND_CMDs still to end: the one that waits and those that follow it (R112, R118). -/
def Wait.sendCmdsLeft : Wait → Nat
  | .idle => 0
  | .sendCmd | .memWrite | .memRead | .genFetch => 1
  | .genGenerate => 2
  | .genClear => 3

/-- A run that waits does so with at most so many SEND_CMDs still to end. -/
def WaitsWithin {α : Type} (n : Nat) : Run α → Prop
  | .ok _ _ => True
  | .fail _ _ => True
  | .wait s => s.seq.wait.sendCmdsLeft ≤ n

section
variable {α β : Type} {n : Nat}

theorem waitsWithin_andThen {r : Run α} {k : α → State → Run β} (h : NoWait r) (hk : ∀ a s, r = .ok a s → WaitsWithin n (k a s)) :
    WaitsWithin n (r.andThen k) := by
  cases r with
  | ok a s => exact hk a s rfl
  | fail f s => trivial
  | wait s => exact h.elim

theorem NoWait.waitsWithin {r : Run α} (h : NoWait r) : WaitsWithin n r := by
  cases r with
  | ok a s => trivial
  | fail f s => trivial
  | wait s => exact h.elim

theorem WaitsWithin.mono {m : Nat} {r : Run α} (h : WaitsWithin m r) (hmn : m ≤ n) : WaitsWithin n r := by
  cases r with
  | ok a s => trivial
  | fail f s => trivial
  | wait s => exact Nat.le_trans h hmn

theorem waitsWithin_ifBound {k : State → Run α} {s : State} (h : WaitsWithin n (k s)) : WaitsWithin n (ifBound k s) := by
  unfold ifBound
  split
  · exact h
  · trivial

theorem waitsWithin_sendCmdThen (c : CommandCode) {w : Wait} (hw : w.sendCmdsLeft ≤ n) {k : State → Run Result}
    (hk : ∀ s, WaitsWithin n (k s)) (s : State) : WaitsWithin n (sendCmdThen c w k s) := by
  refine waitsWithin_andThen (NoWait_sendStart c s) fun _ s1 _ => waitsWithin_andThen (NoWait_pollOnce _) fun idle s2 h => ?_
  obtain ⟨-, -, -, -, hwait, -⟩ := pollOnce_result h
  split
  · exact hk s2
  · show s2.seq.wait.sendCmdsLeft ≤ n
    rw [hwait]
    exact hw

end

theorem waitsWithin_afterGenGenerate (s : State) : WaitsWithin 1 (afterGenGenerate s) :=
  waitsWithin_ifBound (waitsWithin_andThen (NoWait_regWr _ _ s) fun _ s' _ =>
    waitsWithin_sendCmdThen _ le_rfl (fun s => (NoWait_afterGenFetch s).waitsWithin) s')

theorem waitsWithin_afterGenClear (s : State) : WaitsWithin 2 (afterGenClear s) :=
  waitsWithin_sendCmdThen (n := 2) _ le_rfl (fun s => (waitsWithin_afterGenGenerate s).mono (by decide)) s

theorem waitsWithin_restOf (w : Wait) (s : State) : WaitsWithin (w.sendCmdsLeft - 1) (restOf w s) := by
  cases w with
  | idle | sendCmd | memWrite => trivial
  | memRead => exact (NoWait_afterMemRead s).waitsWithin
  | genFetch => exact (NoWait_afterGenFetch s).waitsWithin
  | genGenerate => exact waitsWithin_afterGenGenerate s
  | genClear => exact waitsWithin_afterGenClear s

theorem sendCmdsLeft_pos {w : Wait} (hw : w ≠ .idle) : 1 ≤ w.sendCmdsLeft := by
  cases w with
  | idle => exact absurd rfl hw
  | sendCmd | memWrite | memRead | genFetch | genGenerate | genClear => decide

theorem sendCmdsLeft_le (w : Wait) : w.sendCmdsLeft ≤ 3 := by
  cases w <;> decide

/-- A turn of the poll loop that goes on waiting: one poll more of the same SEND_CMD, or a later one. -/
theorem turn_of_wait {w : Wait} (hw : w ≠ .idle) {s t : State} (h : pollThen (restOf w) s = .wait t) :
    (t.seq.wait = s.seq.wait ∧ t.seq.polls = s.seq.polls + 1) ∨ t.seq.wait.sendCmdsLeft < w.sendCmdsLeft := by
  have hnowait := NoWait_pollOnce s
  unfold pollThen at h
  cases hpoll : pollOnce s with
  | fail f s1 =>
    rw [hpoll] at h
    cases h
  | wait s1 =>
    rw [hpoll] at hnowait
    exact hnowait.elim
  | ok idle s1 =>
    rw [hpoll, andThen_ok] at h
    cases idle with
    | true =>
      have hrest : WaitsWithin (w.sendCmdsLeft - 1) (.wait t : Run Result) := h ▸ waitsWithin_restOf w s1
      exact .inr (Nat.lt_of_le_pred (sendCmdsLeft_pos hw) hrest)
    | false =>
      obtain ⟨-, -, -, -, hwait, -, hpolls⟩ := pollOnce_result hpoll
      cases h
      exact .inl ⟨hwait, hpolls⟩

/-- An operation that is still in progress waits. -/
theorem wait_of_busy {run : Run Result} {t : State} (ht : conclude run = .next t) (hbusy : t.seq.busy = true) :
    ∃ s, run = .wait s ∧ t = s.dropParsed := by
  cases run with
  | ok a s =>
    cases ht
    cases hbusy
  | fail f s =>
    cases ht
    cases hbusy
  | wait s =>
    cases ht
    exact ⟨s, rfl, rfl⟩

theorem exists_next_of_conclude (run : Run Result) : ∃ t, conclude run = .next t := by
  cases run <;> exact ⟨_, rfl⟩

/-- With the budget `k`, at most `n` further steps until no operation is in progress: each SEND_CMD that is still to end has `k`
polls, of which the one that waits has made some. -/
structure EndsWithin (k n : Nat) (s : State) : Prop where
  inv : s.Inv
  quiet : Quiet s
  budget : s.cfg.pollBudget = some k
  left : s.seq.busy = true → k * s.seq.wait.sendCmdsLeft < n + s.seq.polls

theorem State.Inv.polls_bounds {k : Nat} {s : State} (h : s.Inv) (hbusy : s.seq.busy = true) (hbudget : s.cfg.pollBudget = some k) :
    1 ≤ s.seq.polls ∧ s.seq.polls ≤ k := by
  obtain ⟨hfirst, hlast⟩ := h.budget hbusy
  exact ⟨hfirst, hlast k hbudget⟩

/-- One step of an operation that waits comes one step nearer to its end. -/
theorem EndsWithin.succ {k n : Nat} {s : State} (h : EndsWithin k (n + 1) s) (hbusy : s.seq.busy = true) :
    ∃ t, step s = .next t ∧ EndsWithin k n t := by
  obtain ⟨hwaiting, hwait, -⟩ := h.inv.waiting hbusy
  have hstep := step_waiting h.quiet hwaiting hwait
  obtain ⟨t, ht⟩ := exists_next_of_conclude (pollThen (restOf s.seq.wait) s)
  obtain ⟨hinv, hcfg⟩ := keepsInv_step h.inv t (hstep.trans ht)
  obtain ⟨-, -, -, howner, -, hheld, -⟩ := keepsOutside_conclude (Grows_pollThen (Grows_restOf _) s) ht
  have hbudget : t.cfg.pollBudget = some k := hcfg ▸ h.budget
  refine ⟨t, hstep.trans ht, hinv, quiet_of_held h.quiet hheld howner, hbudget, fun hbusy' => ?_⟩
  have hleft := h.left hbusy
  obtain ⟨-, hpolls⟩ := h.inv.polls_bounds hbusy h.budget
  obtain ⟨hpolls', -⟩ := hinv.polls_bounds hbusy' hbudget
  obtain ⟨s', hrun, rfl⟩ := wait_of_busy ht hbusy'
  rw [dropParsed_seq] at hpolls' ⊢
  rcases turn_of_wait hwait hrun with ⟨hsame, hmore⟩ | hfewer
  · rw [hsame, hmore]
    omega
  · have hk : k * s'.seq.wait.sendCmdsLeft + k ≤ k * s.seq.wait.sendCmdsLeft := Nat.mul_le_mul_left k hfewer
    omega

theorem EndsWithin.not_busy {k : Nat} {s : State} (h : EndsWithin k 0 s) : s.seq.busy = false := by
  by_contra hbusy
  have hbusy : s.seq.busy = true := by simpa using hbusy
  obtain ⟨-, hwait, -⟩ := h.inv.waiting hbusy
  obtain ⟨-, hpolls⟩ := h.inv.polls_bounds hbusy h.budget
  have hleft := h.left hbusy
  have hk : k ≤ k * s.seq.wait.sendCmdsLeft := Nat.le_mul_of_pos_right k (sendCmdsLeft_pos hwait)
  omega

theorem EndsWithin.ends {k n : Nat} {s : State} (h : EndsWithin k n s) : ∃ j t,
    j ≤ n ∧ stepsTo j s = some t ∧ t.owned = false := by
  induction n generalizing s with
  | zero => exact ⟨0, s, le_rfl, rfl, h.inv.owned_eq_busy.trans h.not_busy⟩
  | succ n ih =>
    cases hbusy : s.seq.busy with
    | false => exact ⟨0, s, Nat.zero_le _, rfl, h.inv.owned_eq_busy.trans hbusy⟩
    | true =>
      obtain ⟨t, ht, hnext⟩ := h.succ hbusy
      obtain ⟨j, u, hj, hsteps, hfree⟩ := ih hnext
      exact ⟨j + 1, u, Nat.succ_le_succ hj, leadsTo_step ⟨t, ht, hsteps⟩, hfree⟩

/-- Settles O40: an operation has at most three SEND_CMDs still to end. -/
theorem boundedWaitEnds : Obligations.BoundedWaitEnds := by
  intro s k hinv hquiet hbudget
  refine EndsWithin.ends ⟨hinv, hquiet, hbudget, fun hbusy => ?_⟩
  obtain ⟨hpolls, -⟩ := hinv.polls_bounds hbusy hbudget
  have hk : k * s.seq.wait.sendCmdsLeft ≤ k * 3 := Nat.mul_le_mul_left k (sendCmdsLeft_le _)
  omega

end Sys2Proof.Machine

/-! The text front end (O42 to O48, O60): the decimal numerals a length token can be, PARSE after the name as one equation per test
of the document, a line as its row or its rejection, and what is served of a line. -/

namespace Sys2Proof.Machine

/-! ### Decimal numerals (R140, R142) -/

theorem isDigit_iff (c : Byte) : isDigit c = true ↔ 0x30 ≤ c.toNat ∧ c.toNat ≤ 0x39 := by
  simp [isDigit]

theorem isDigits_iff (tok : List Byte) : isDigits tok = true ↔ tok ≠ [] ∧ ∀ c ∈ tok, isDigit c = true := by
  simp [isDigits]

theorem decimal_concat (tok : List Byte) (c : Byte) : decimal (tok ++ [c]) = 10 * decimal tok + (c.toNat - 0x30) := by
  simp [decimal]

/-- Leading zeros count for nothing (R140). -/
theorem decimal_zeros_append (z : Nat) (tok : List Byte) : decimal (List.replicate z 0x30 ++ tok) = decimal tok := by
  induction z with
  | zero => rfl
  | succ z ih => exact ih

/-- The numeral of a digit's value is the digit. -/
theorem decimalBytes_of_isDigit {c : Byte} (h : isDigit c = true) : decimalBytes (c.toNat - 0x30) = [c] := by
  obtain ⟨hlow, hhigh⟩ := (isDigit_iff c).1 h
  have hlt : c.toNat - 0x30 < 10 := by omega
  have hchar : (c.toNat - 0x30).digitChar.toNat = c.toNat := by
    rw [Nat.toNat_digitChar_of_lt_ten hlt]
    omega
  simp [decimalBytes, Nat.toDigits_of_lt_base hlt, hchar]

/-- A digit behind a numeral with no leading zero gives the numeral of ten times the number and the digit. -/
theorem decimalBytes_append_digit {n : Nat} (hn : 0 < n) {c : Byte} (h : isDigit c = true) :
    decimalBytes (10 * n + (c.toNat - 0x30)) = decimalBytes n ++ [c] := by
  have hlt : c.toNat - 0x30 < 10 := by
    have := (isDigit_iff c).1 h
    omega
  rw [← decimalBytes_of_isDigit h]
  simp [decimalBytes, ← Nat.toDigits_append_toDigits (by decide) hn hlt]

theorem exists_digit {v : Nat} (h : v < 10) : ∃ c : Byte, isDigit c = true ∧ c.toNat - 0x30 = v := by
  refine ⟨BitVec.ofNat 8 (0x30 + v), (isDigit_iff _).2 ?_, ?_⟩ <;> simp only [BitVec.toNat_ofNat] <;> omega

/-- A numeral is digits, and its value is the number it was written for. -/
theorem decimalBytes_spec (n : Nat) : isDigits (decimalBytes n) = true ∧ decimal (decimalBytes n) = n := by
  induction n using Nat.strong_induction_on with
  | _ n ih =>
    obtain ⟨c, hc, hv⟩ := exists_digit (Nat.mod_lt n (by decide : 0 < 10))
    by_cases hn : n < 10
    · have hone : decimalBytes n = [c] := by
        rw [← decimalBytes_of_isDigit hc, hv, Nat.mod_eq_of_lt hn]
      rw [hone, isDigits_iff, decimal]
      simp [hc, hv, Nat.mod_eq_of_lt hn]
    · have hmore : decimalBytes n = decimalBytes (n / 10) ++ [c] := by
        rw [← decimalBytes_append_digit (by omega) hc, hv, Nat.div_add_mod]
      obtain ⟨hdigits, hvalue⟩ := ih (n / 10) (by omega)
      obtain ⟨-, hall⟩ := (isDigits_iff _).1 hdigits
      rw [hmore, isDigits_iff, decimal_concat, hvalue, hv]
      refine ⟨⟨by simp, fun b hb => ?_⟩, Nat.div_add_mod n 10⟩
      rcases List.mem_append.1 hb with hb | hb
      · exact hall b hb
      · rwa [List.mem_singleton.1 hb]

/-- Digits are the numeral of their value behind leading zeros (R140). -/
theorem eq_zeros_append_decimalBytes {tok : List Byte} (h : isDigits tok = true) :
    ∃ z, tok = List.replicate z 0x30 ++ decimalBytes (decimal tok) := by
  obtain ⟨hne, hall⟩ := (isDigits_iff tok).1 h
  clear h
  induction tok using List.reverseRecOn with
  | nil => exact absurd rfl hne
  | append_singleton tok c ih =>
    have hc : isDigit c = true := hall c (by simp)
    rw [decimal_concat]
    by_cases htok : tok = []
    · refine ⟨0, ?_⟩
      simp [htok, decimal, decimalBytes_of_isDigit hc]
    · obtain ⟨z, hz⟩ := ih htok fun b hb => hall b (by simp [hb])
      by_cases hzero : decimal tok = 0
      · refine ⟨z + 1, ?_⟩
        have hnumeral : decimalBytes 0 = [0x30] := rfl
        rw [hzero, hnumeral, ← List.replicate_succ'] at hz
        rw [hzero, Nat.mul_zero, Nat.zero_add, decimalBytes_of_isDigit hc, ← hz]
      · refine ⟨z, ?_⟩
        rw [decimalBytes_append_digit (Nat.pos_of_ne_zero hzero) hc, ← List.append_assoc, ← hz]

/-! ### Length tokens (R135, R140) -/

theorem unsignedByte_eq_some_iff (tok : List Byte) (d : Nat) :
    unsignedByte tok = some d ↔ isDigits tok = true ∧ decimal tok = d ∧ d ≤ 255 := by
  simp only [unsignedByte, Option.ite_none_right_eq_some, Bool.and_eq_true, decide_eq_true_eq, Option.some.injEq]
  constructor
  · rintro ⟨⟨hdigits, hle⟩, rfl⟩
    exact ⟨hdigits, rfl, hle⟩
  · rintro ⟨hdigits, rfl, hle⟩
    exact ⟨⟨hdigits, hle⟩, rfl⟩

theorem unsignedByte_of_not_digit {tok : List Byte} {c : Byte} (hc : c ∈ tok) (h : isDigit c = false) :
    unsignedByte tok = none := by
  have hdigits : isDigits tok = false := by
    rw [Bool.eq_false_iff, ne_eq, isDigits_iff]
    exact fun hall => by simp [hall.2 c hc] at h
  simp [unsignedByte, hdigits]

theorem unsignedByte_zeros_append (z d : Nat) :
    unsignedByte (List.replicate z 0x30 ++ decimalBytes d) = if d ≤ 255 then some d else none := by
  obtain ⟨hdigits, hvalue⟩ := decimalBytes_spec d
  obtain ⟨hne, hall⟩ := (isDigits_iff _).1 hdigits
  have hzeros : isDigits (List.replicate z 0x30 ++ decimalBytes d) = true := by
    refine (isDigits_iff _).2 ⟨by simp [hne], fun c hc => ?_⟩
    rcases List.mem_append.1 hc with hc | hc
    · rw [List.eq_of_mem_replicate hc]
      rfl
    · exact hall c hc
  rw [unsignedByte, hzeros, decimal_zeros_append, hvalue]
  simp

/-- Settles O44: a numeral has its value, any other byte shuts a token out, and digits are a numeral behind zeros. -/
theorem lengthTokens : Obligations.LengthTokens := by
  refine ⟨unsignedByte_zeros_append, rfl, fun tok c hc hbad => ?_, fun tok ⟨d, hd⟩ => ?_⟩
  · have hdigit : isDigit c = false := by
      rw [Bool.eq_false_iff, ne_eq, isDigit_iff]
      omega
    exact unsignedByte_of_not_digit hc hdigit
  · obtain ⟨hdigits, hvalue, -⟩ := (unsignedByte_eq_some_iff tok d).1 hd
    obtain ⟨z, hz⟩ := eq_zeros_append_decimalBytes hdigits
    exact ⟨z, d, hvalue ▸ hz, hd⟩

theorem isPlusDigits_of_isDigits {tok : List Byte} (h : isDigits tok = true) : isPlusDigits tok = false := by
  cases tok with
  | nil => rfl
  | cons c rest =>
    have hc := (isDigit_iff c).1 (((isDigits_iff _).1 h).2 c (by simp))
    have hplus : c ≠ 0x2B := by
      rintro rfl
      exact absurd hc (by decide)
    rw [isPlusDigits, decide_eq_false hplus, Bool.false_and]

theorem isPlusDigits_plus {rest : List Byte} (h : isDigits rest = true) : isPlusDigits (0x2B :: rest) = true := by
  simp [isPlusDigits, h]

/-! ### PARSE after the name (R130): one equation per test, in the document's order -/

section
variable (c : TextCommand) {lenTok : List Byte} (dataTok : Option (List Byte)) {d : Nat}

/-- An empty length token (R135). -/
theorem parseArgs_emptyLength : parseArgs c (.complex [] dataTok) = .error .invalidArgNumber := rfl

/-- A length token `+digits` (R140). -/
theorem parseArgs_plus (h : isPlusDigits lenTok = true) : parseArgs c (.complex lenTok dataTok) = .undefined := by
  have hne : lenTok ≠ [] := by
    rintro rfl
    cases h
  simp [parseArgs, hne, h]

/-- A length token that is no unsigned byte (R135). -/
theorem parseArgs_notByte (hne : lenTok ≠ []) (hplus : isPlusDigits lenTok = false) (h : unsignedByte lenTok = none) :
    parseArgs c (.complex lenTok dataTok) = .error .invalidDataLen := by
  simp [parseArgs, hne, hplus, h]

/-- A length token that is an unsigned byte passes the tests before its value's (R135). -/
theorem parseArgs_byte (h : unsignedByte lenTok = some d) :
    parseArgs c (.complex lenTok dataTok) =
      if 25 < d then .error .dataLenTooBig
      else
        match dataTok with
        | none => .error .invalidArgNumber
        | some data =>
          if c = .memWrite then .operation (.memWrite (Fin.ofNat 26 d) (bufferOf data)) else .error .invalidArgNumber := by
  obtain ⟨hdigits, -, -⟩ := (unsignedByte_eq_some_iff _ _).1 h
  obtain ⟨hne, -⟩ := (isDigits_iff _).1 hdigits
  cases dataTok <;> cases c <;> simp [parseArgs, hne, isPlusDigits_of_isDigits hdigits, h, declaredLenMax]

end

/-- Only a length token `+digits` has no result (R140, R144). -/
theorem isPlusDigits_of_parseArgs {c : TextCommand} {args : TextArgs} (h : parseArgs c args = .undefined) :
    ∃ lenTok dataTok, args = .complex lenTok dataTok ∧ isPlusDigits lenTok = true := by
  cases args with
  | simple => cases c <;> cases h
  | complex lenTok dataTok =>
    refine ⟨lenTok, dataTok, rfl, ?_⟩
    by_contra hplus
    rw [Bool.not_eq_true] at hplus
    by_cases hne : lenTok = []
    · rw [hne, parseArgs_emptyLength] at h
      cases h
    · cases hbyte : unsignedByte lenTok with
      | none =>
        rw [parseArgs_notByte c dataTok hne hplus hbyte] at h
        cases h
      | some d =>
        rw [parseArgs_byte c dataTok hbyte] at h
        repeat' split at h
        all_goals cases h

/-! ### The four text rows (R133, R135 to R137) -/

theorem exec_textRow (c : TextCommand) (args : TextArgs) (s : State) :
    exec (textRow c args) s = parseResult (parseArgs c args) s := by
  cases c <;> rfl

/-- The four rows with what stands after the name. -/
def textRows (args : TextArgs) : List Instr :=
  [.parseMemRead args, .parseMemWrite args, .parseGetVersion args, .parseGenRandId args]

theorem eq_textRow_of_mem {args : TextArgs} {i : Instr} (h : i ∈ textRows args) : ∃ c, i = textRow c args := by
  simp only [textRows, List.mem_cons, List.not_mem_nil, or_false] at h
  rcases h with rfl | rfl | rfl | rfl
  exacts [⟨.memRead, rfl⟩, ⟨.memWrite, rfl⟩, ⟨.getVersion, rfl⟩, ⟨.genRandId, rfl⟩]

theorem exec_of_mem_textRows {args : TextArgs} {p : ParseOutcome} (h : ∀ c, parseArgs c args = p) (s : State) :
    ∀ i ∈ textRows args, exec i s = parseResult p s := by
  intro i hi
  obtain ⟨c, rfl⟩ := eq_textRow_of_mem hi
  rw [exec_textRow, h]

/-- Settles O43: the rows answer what PARSE gives after the name, test by test. -/
theorem parseRowsComplete : Obligations.ParseRowsComplete := by
  refine fun s => ⟨rfl, rfl, rfl, rfl, fun dataTok => ?_, fun lenTok dataTok hne hplus hbyte => ?_,
    fun lenTok dataTok d hbyte hd => ?_, fun lenTok d hbyte hd => ?_, fun lenTok data d hbyte hd => ?_⟩
  · exact exec_of_mem_textRows (fun c => parseArgs_emptyLength c dataTok) s
  · exact exec_of_mem_textRows (fun c => parseArgs_notByte c dataTok hne hplus hbyte) s
  · exact exec_of_mem_textRows (fun c => by rw [parseArgs_byte c dataTok hbyte, if_pos hd]) s
  · exact exec_of_mem_textRows (fun c => by rw [parseArgs_byte c none hbyte, if_neg hd.not_gt]) s
  · have hparse : ∀ c, parseArgs c (.complex lenTok (some data)) = if c = .memWrite then
        .operation (.memWrite (Fin.ofNat 26 d) (bufferOf data)) else .error .invalidArgNumber := fun c => by
      rw [parseArgs_byte c (some data) hbyte, if_neg hd.not_gt]
    refine ⟨?_, ?_, ?_, bufferOf data, bufferOf_bytes data, ?_⟩
    · exact (exec_textRow .memRead _ s).trans (congrArg (parseResult · s) (hparse .memRead))
    · exact (exec_textRow .getVersion _ s).trans (congrArg (parseResult · s) (hparse .getVersion))
    · exact (exec_textRow .genRandId _ s).trans (congrArg (parseResult · s) (hparse .genRandId))
    · exact (exec_textRow .memWrite _ s).trans (congrArg (parseResult · s) (hparse .memWrite))

/-! ### A line by its parts (R130, R131, R141) -/

/-- Three or more ':' bytes are what no name and arguments are read from (R141). -/
theorem lineParts_eq_none_iff (line : List Byte) : lineParts line = none ↔ 3 ≤ line.count colon := by
  have hlength := splitColon_length line
  rw [lineParts]
  generalize splitColon line = fields at hlength ⊢
  rcases fields with _ | ⟨name, _ | ⟨lenTok, _ | ⟨dataTok, _ | ⟨extra, rest⟩⟩⟩⟩ <;> simp at hlength ⊢ <;> omega

section
variable {line name : List Byte} {args : TextArgs} (s : State)

theorem runBytes_of_notUtf8 (h : utf8Valid line = false) : runBytes .text line s = .refused .notUtf8 := by
  simp [runBytes, decode, decodeText, h, rejectBytes]

theorem runBytes_of_extraFields (hutf8 : utf8Valid line = true) (h : lineParts line = none) :
    runBytes .text line s = .refused .extraFields := by
  simp [runBytes, decode, decodeText, hutf8, h, rejectBytes]

theorem runBytes_of_noCommand {e : ParseError} (hutf8 : utf8Valid line = true) (hparts : lineParts line = some (name, args))
    (h : resolve name = .inr e) : runBytes .text line s = .next (s.parseReturns (.failed (.parse e))) := by
  simp [runBytes, decode, decodeText, hutf8, hparts, h, rejectBytes]

theorem runBytes_of_command {c : TextCommand} (hutf8 : utf8Valid line = true) (hparts : lineParts line = some (name, args))
    (h : resolve name = .inl c) : runBytes .text line s = parseResult (parseArgs c args) s := by
  simp [runBytes, decode, decodeText, hutf8, hparts, h, exec_textRow]

end

/-- The line of a command's name and well-formed arguments (R132). -/
theorem runBytes_lineOf {c : TextCommand} {args : TextArgs} (h : textArgsOk c args = true) (s : State) :
    runBytes .text (lineOf c args) s = parseResult (parseArgs c args) s :=
  (runBytes_of_decode (s := s) (f := .text) (decodeText_lineOf h)).trans (exec_textRow c args s)

/-- Settles O46: the name gives an error, or PARSE goes on and only a token `+digits` leaves it without a result. -/
theorem parseTotal : Obligations.ParseTotal := by
  intro line s hutf8 hcount hplus
  cases hparts : lineParts line with
  | none =>
    have := (lineParts_eq_none_iff line).1 hparts
    omega
  | some parts =>
    obtain ⟨name, args⟩ := parts
    cases hname : resolve name with
    | inr e => exact ⟨_, runBytes_of_noCommand s hutf8 hparts hname, .inr ⟨e, rfl⟩⟩
    | inl c =>
      rw [runBytes_of_command s hutf8 hparts hname]
      cases hparse : parseArgs c args with
      | operation o => exact ⟨_, rfl, .inl ⟨o, rfl⟩⟩
      | error e => exact ⟨_, rfl, .inr ⟨e, rfl⟩⟩
      | undefined =>
        obtain ⟨lenTok, dataTok, rfl, h⟩ := isPlusDigits_of_parseArgs hparse
        simp [hplus _ _ _ hparts] at h

/-! ### Lines without ':' (R133) -/

theorem resolve_of_unknown {tok : List Byte} (hne : tok ≠ []) (h : ∀ c : TextCommand, tok ≠ c.name) :
    resolve tok = .inr .unknownCommand := by
  simp [resolve, hne, h]

theorem runBytes_unknown {line : List Byte} (s : State) (hutf8 : utf8Valid line = true) (hcolon : colon ∉ line)
    (hne : line ≠ []) (h : ∀ c : TextCommand, line ≠ c.name) :
    runBytes .text line s = .next (s.parseReturns (.failed (.parse .unknownCommand))) :=
  runBytes_of_noCommand s hutf8 (by rw [lineParts, splitColon_single hcolon]) (resolve_of_unknown hne h)

theorem runBytes_name (c : TextCommand) (s : State) : runBytes .text c.name s = parseResult (parseArgs c .simple) s :=
  runBytes_lineOf (args := .simple) (by cases c <;> decide) s

/-- Settles O42: the four names, the empty line, and a name that is none of these. -/
theorem simpleTextForm : Obligations.SimpleTextForm := by
  intro s
  refine ⟨runBytes_name .memRead s, runBytes_name .getVersion s, runBytes_name .genRandId s, runBytes_name .memWrite s, ?_, ?_,
    fun line => runBytes_unknown s⟩
  · exact runBytes_of_noCommand s rfl rfl rfl
  · exact runBytes_unknown s (by decide) (by decide) (by decide) fun c => by cases c <;> decide

/-! ### Lines with a length token (R140 to R142) -/

/-- A length token of digits and `+`, which stand before ':' in ASCII, keeps a line within PARSE's domain (R130). -/
theorem textArgsOk_of_lt_colon (c : TextCommand) {lenTok : List Byte} {dataTok : Option (List Byte)}
    (hlen : ∀ b ∈ lenTok, b.toNat < 0x3A) (hdata : ∀ data ∈ dataTok, utf8Valid data = true ∧ colon ∉ data) :
    textArgsOk c (.complex lenTok dataTok) = true := by
  have hname := name_ascii c
  have hascii : ∀ b ∈ c.name ++ colon :: lenTok, b.toNat < 0x80 := by
    intro b hb
    rcases List.mem_append.1 hb with hb | hb
    · exact hname b hb
    · rcases List.mem_cons.1 hb with rfl | hb
      · decide
      · have := hlen b hb
        omega
  have hcolon : colon ∉ lenTok := fun h => absurd (hlen _ h) (by decide)
  rw [textArgsOk_iff]
  cases dataTok with
  | none =>
    refine ⟨(tokenOk_iff _).2 hcolon, ?_⟩
    have h := utf8From_ascii [] hascii
    rwa [List.append_nil] at h
  | some data =>
    obtain ⟨hutf8, hdataColon⟩ := hdata data rfl
    refine ⟨(Bool.and_eq_true _ _).mpr ⟨(tokenOk_iff _).2 hcolon, (tokenOk_iff _).2 hdataColon⟩, ?_⟩
    have h := utf8From_ascii (colon :: data) hascii
    rw [List.append_assoc] at h
    exact h.trans hutf8

theorem lt_colon_of_isDigit {c : Byte} (h : isDigit c = true) : c.toNat < 0x3A := by
  have := (isDigit_iff c).1 h
  omega

/-- Settles O45: the line is that of `mem_write` with a numeral and a data token. -/
theorem memWriteLine : Obligations.MemWriteLine := by
  intro p n s hutf8 hcolon
  obtain ⟨hdigits, -⟩ := decimalBytes_spec n
  obtain ⟨-, hall⟩ := (isDigits_iff _).1 hdigits
  have hn : n.val ≤ 25 := Nat.le_of_lt_succ n.isLt
  have hbyte : unsignedByte (decimalBytes n) = some n.val :=
    (unsignedByte_zeros_append 0 n).trans (if_pos (by omega))
  have hok : textArgsOk .memWrite (.complex (decimalBytes n) (some (p.toList.take n))) = true :=
    textArgsOk_of_lt_colon _ (fun b hb => lt_colon_of_isDigit (hall b hb)) (by simp [hutf8, hcolon])
  refine ⟨bufferOf (p.toList.take n), ?_, (runBytes_lineOf hok s).trans ?_⟩
  · rw [bufferOf_bytes, List.take_take, List.length_take, Vector.length_toList, Nat.min_eq_right hn, Nat.min_eq_left hn]
  · rw [parseArgs_byte _ _ hbyte, if_neg hn.not_gt]
    simp [parseResult, State.parseReturns]

/-- Settles O47: the decoder rejects the first two, and a token `+digits` stops PARSE whatever the command and the data. -/
theorem textOutsideDomain : Obligations.TextOutsideDomain := by
  refine fun line s => ⟨runBytes_of_notUtf8 s, fun hutf8 hcount => ?_, fun c rest dataTok hne hall => ?_⟩
  · exact runBytes_of_extraFields s hutf8 ((lineParts_eq_none_iff line).2 hcount)
  · have hplus : isPlusDigits (0x2B :: rest) = true := isPlusDigits_plus ((isDigits_iff rest).2 ⟨hne, hall⟩)
    have hlen : ∀ b ∈ 0x2B :: rest, b.toNat < 0x3A :=
      List.forall_mem_cons.2 ⟨by decide, fun b hb => lt_colon_of_isDigit (hall b hb)⟩
    refine ⟨exec_of_mem_textRows (fun c => parseArgs_plus c dataTok hplus) s, ?_, fun data hutf8 hcolon => ?_⟩
    · have hok := textArgsOk_of_lt_colon c (dataTok := none) hlen (by simp)
      exact (runBytes_lineOf hok s).trans (congrArg (parseResult · s) (parseArgs_plus c none hplus))
    · have hok := textArgsOk_of_lt_colon c (dataTok := some data) hlen (by simp [hutf8, hcolon])
      exact (runBytes_lineOf hok s).trans (congrArg (parseResult · s) (parseArgs_plus c (some data) hplus))

/-! ### Serving a line and its operation (R139; log 22) -/

/-- A line that PARSE accepts leaves its operation as the next input of its source. -/
theorem serve_line_of_accepted {s t : State} {line : List Byte} {o : Operation} (src : Nat) (hrun : runBytes .text line s = .next t)
    (hparsed : t.parsed = some (.ok (.operation o) none)) :
    serve src (.line line) s = .next { t with held := ⟨src, .operation o⟩ :: t.held } := by
  have haccepted : t.accepted = some o := by simp [State.accepted, hparsed]
  simp [serve, runLine, hrun, haccepted]

/-- A free block runs the one operation that waits as the row it names, on its source's own answer buffer (log 27). -/
theorem step_of_held_operation {s : State} {src : Nat} {o : Operation} (hfree : s.owned = false)
    (hheld : s.held = [⟨src, .operation o⟩]) :
    step s = exec o.toInstr { s.turnTo src with held := [], tick := s.tick + 1, parsed := none } := by
  rw [step_of_held_single hfree hheld]
  simp [serve, State.take, State.turnFor, Held.isText, hheld, dropFirst]

/-- Settles O48: an accepted line leaves its operation to be served, and serving it runs the row it names. -/
theorem textLineRuns : Obligations.TextLineRuns := by
  refine ⟨fun s t src line o => serve_line_of_accepted src, fun s src hfree => ?_⟩
  exact ⟨fun d p => step_of_held_operation hfree, step_of_held_operation hfree, step_of_held_operation hfree,
    step_of_held_operation hfree⟩

/-! ### Lines while the block is owned (R168; log 24) -/

/-- The first input of its source waits behind none of that source (log 10). -/
theorem held_of_mem_firstOfEach {h : Held} {l : List Held} (hm : h ∈ firstOfEach l) :
    ∃ before after, l = before ++ h :: after ∧ ∀ g ∈ before, g.src ≠ h.src := by
  induction l with
  | nil => cases hm
  | cons a l ih =>
    rcases List.mem_cons.1 hm with rfl | hm
    · exact ⟨[], l, rfl, by simp⟩
    · obtain ⟨hrest, hsrc⟩ := List.mem_filter.1 hm
      obtain ⟨before, after, rfl, hbefore⟩ := ih hrest
      exact ⟨a :: before, after, rfl, List.forall_mem_cons.2 ⟨fun he => by simp [he] at hsrc, hbefore⟩⟩

theorem readyLines_spec {s : State} {h : Held} (hm : h ∈ s.readyLines) :
    h ∈ firstOfEach s.held ∧ h.isText = true ∧ h.src ≠ s.owner := by
  simpa [State.readyLines] using hm

/-- While an operation waits and no reset does, the step goes on with it or takes a ready line. -/
theorem step_owned_cases {s : State} (hreset : NoReset s) (howned : s.owned = true) :
    step s = resume s ∨ ∃ h ∈ s.readyLines, step s = serve h.src h.ev (s.take h) := by
  unfold step
  rw [show s.resetNow = none from hreset, if_pos howned]
  cases hline : s.lineNow with
  | none => exact .inl rfl
  | some h => exact .inr ⟨h, lineNow_mem hline, rfl⟩

/-- Settles O60: a ready line is the first of a source other than the owner, and serving it touches what PARSE returns and what
waits. -/
theorem linesNeedNoTurn : Obligations.LinesNeedNoTurn := by
  intro s hreset howned
  refine ⟨step_owned_cases hreset howned, fun h hm => ?_⟩
  obtain ⟨hfirst, htext, howner⟩ := readyLines_spec hm
  obtain ⟨before, after, hheld, hbefore⟩ := held_of_mem_firstOfEach hfirst
  refine ⟨howner, before, after, hheld, hbefore, fun t ht => ?_⟩
  have hdrop : dropFirst h.src s.held = before ++ after := hheld ▸ dropFirst_append_cons hbefore after
  rcases serve_text htext (s.take h) with ⟨r, more, hserve, hmore⟩ | ⟨x, hserve⟩ <;> rw [hserve] at ht <;> cases ht
  exact ⟨r, more, by rw [take_of_isText s htext, hdrop], hmore⟩

end Sys2Proof.Machine

/-! With no device bound (O31): a row that can issue a frame fails at its test of `bound`, whatever it began with, and no other row
makes the test. -/

namespace Sys2Proof.Machine

/-- A compound operation fails at its test of `bound` as if it had not begun (R154, R160). -/
theorem conclude_ifBound_beginLocked_unbound {s : State} (hb : s.bound = false) (k : State → Run Result) (op : OpName) (l : Latches) :
    conclude (ifBound k (s.beginLocked op l)) = .next (s.failed .deviceNotBound) := by
  rw [ifBound_unbound (s := s.beginLocked op l) k hb]
  rfl

theorem exec_sendCmd_unbound {s : State} (hb : s.bound = false) (c : CommandCode) :
    exec (.sendCmd c.num) s = .next (s.failed .deviceNotBound) := by
  rw [exec_sendCmd_num, sendCmdThen, sendStart, ifBound_unbound (s := s.begin .sendCmd { code := c.num }) _ hb]
  rfl

theorem exec_readFrame_unbound {s : State} (hb : s.bound = false) (r : Reg) :
    exec (.readFrame r) s = .next (s.failed .deviceNotBound) := by
  rw [exec_readFrame, regRd, ifBound_unbound (s := s.begin .readFrame { reg := r, n := 1 }) _ hb]
  rfl

/-- Every row that can issue a frame, its operands being ones it takes, fails at its test of `bound` (R154). -/
theorem exec_unbound {i : Instr} {s : State} (hi : usesBus i = true) (hoperands : operandRefusal i = none) (hb : s.bound = false) :
    exec i s = .next (s.failed .deviceNotBound) := by
  cases i with
  | regRd r n => exact exec_regRd_unbound hb (by simpa [operandRefusal] using hoperands) r
  | fifoWr n data => exact exec_fifoWr_unbound hb (by simpa [operandRefusal] using hoperands)
  | sendCmd code =>
    obtain ⟨c, rfl, -⟩ | ⟨-, hcode⟩ := cmdOf_cases code
    · exact exec_sendCmd_unbound hb c
    · simp [operandRefusal, isDefinedCode, hcode] at hoperands
  | readFrame r => exact exec_readFrame_unbound hb r
  | regWr | fifoFlush | lFlush | writeFrame => exact oneWrite_unbound hb _ _ _ _
  | fifoLvl => exact exec_fifoLvl_unbound hb
  | fifoRd => exact exec_fifoRd_unbound hb
  | memWrite | memRead | getVersion | genRandId => exact conclude_ifBound_beginLocked_unbound hb _ _ _
  | _ => cases hi

theorem parseResult_setBound {p : ParseOutcome} {s t : State} (b : Bool) (ht : parseResult p s = .next t) :
    parseResult p { s with bound := b } = .next { t with bound := b } := by
  cases p with
  | operation o =>
    cases ht
    rfl
  | error e =>
    cases ht
    rfl
  | undefined => cases ht

/-- A row that issues no frame neither tests nor writes `bound` (R154). -/
theorem exec_setBound {i : Instr} {s t : State} (b : Bool) (hi : usesBus i = false) (ht : exec i s = .next t) :
    exec i { s with bound := b } = .next { t with bound := b } := by
  cases i with
  | regRd | regWr | fifoLvl | fifoFlush | fifoRd | fifoWr | sendCmd | memWrite | memRead | getVersion | genRandId | lFlush
  | readFrame | writeFrame => cases hi
  | parseMemRead | parseMemWrite | parseGetVersion | parseGenRandId => exact parseResult_setBound b ht
  | reservedOp => cases ht
  | statEnc code pwr rcv =>
    obtain ⟨c, rfl, -⟩ | ⟨-, hcode⟩ := cmdOf_cases code
    · rw [exec_statEnc_num] at ht ⊢
      cases ht
      rfl
    · rw [exec_statEnc_of_unknown hcode] at ht ⊢
      cases ht
      rfl
  | _ =>
    cases ht
    rfl

/-- Settles O31: the rows that test `bound` fail there, with no effect but the response, and the others do not test it. -/
theorem deviceNotBound : Obligations.DeviceNotBound :=
  ⟨fun _ s hi hoperands hb => ⟨_, exec_unbound hi hoperands hb, answersOnly_finish s _⟩, fun _ _ _ b => exec_setBound b⟩

end Sys2Proof.Machine

/-! What serving an input can do, a reset apart (O51, O55): it answers or refuses, and leaves alone whose turn it is and what is kept
for the other requesters (`serve_nextOrRefused`). -/

namespace Sys2Proof.Machine

/-! ### Outcomes -/

/-- Whose turn it is, and the answer buffers kept for the other requesters, are as they were (R168; log 27). -/
def KeepsTurn (s t : State) : Prop := t.owner = s.owner ∧ t.answers = s.answers

/-- A next state that meets a property, or a refusal: no fault (R171). -/
def NextOrRefused (P : State → Prop) (o : Host.Outcome State Fault Refusal) : Prop :=
  (∃ t, o = .next t ∧ P t) ∨ ∃ x, o = .refused x

section
variable {P : State → Prop} {o : Host.Outcome State Fault Refusal}

theorem NextOrRefused.next {t : State} (h : P t) : NextOrRefused P (.next t) := .inl ⟨t, rfl, h⟩

theorem NextOrRefused.refused (x : Refusal) : NextOrRefused P (.refused x) := .inr ⟨x, rfl⟩

theorem NextOrRefused.of_next (h : NextOrRefused P o) {t : State} (ht : o = .next t) : P t := by
  rcases h with ⟨u, hu, hP⟩ | ⟨x, hx⟩
  · cases hu.symm.trans ht
    exact hP
  · cases hx.symm.trans ht

theorem NextOrRefused.safe (h : NextOrRefused P o) : Safe o := by
  rcases h with ⟨t, rfl, -⟩ | ⟨x, rfl⟩ <;> exact nofun

end

/-! ### Serving an input -/

/-- A run always comes to a next state: its failures are responses (R160, R171). -/
theorem conclude_next (run : Run Result) : ∃ t, conclude run = .next t := by
  cases run with
  | ok | fail | wait => exact ⟨_, rfl⟩

theorem exec_nextOrRefused (i : Instr) (s : State) : NextOrRefused (KeepsTurn s) (exec i s) := by
  have hshape := exec_shape i s
  generalize exec i s = o at hshape ⊢
  cases hshape with
  | answers _ r _ => exact .next ⟨rfl, rfl⟩
  | runs _ op l run hg _ =>
    obtain ⟨t, ht⟩ := conclude_next run
    obtain ⟨-, -, -, howner, hanswers, -⟩ := (keepsOutside_conclude hg ht).of_beginAs
    exact ht ▸ .next ⟨howner, hanswers⟩
  | parses _ r => exact .next ⟨rfl, rfl⟩
  | reserved _ => exact .refused _
  | plus _ => exact .refused _

theorem rejectBytes_nextOrRefused (e : DecodeError) (s : State) : NextOrRefused (KeepsTurn s) (rejectBytes e s) := by
  cases e with
  | noCommand p => exact .next ⟨rfl, rfl⟩
  | badLength | notUtf8 | extraFields | oddAddressByte | unnamedAddress | notFlushWord | malformedFrame => exact .refused _

theorem runBytes_nextOrRefused (f : Format) (bytes : List Byte) (s : State) : NextOrRefused (KeepsTurn s) (runBytes f bytes s) := by
  unfold runBytes
  split
  · exact exec_nextOrRefused _ s
  · exact rejectBytes_nextOrRefused _ s

theorem serve_nextOrRefused (src : Nat) {e : Event} (he : e ≠ .reset) (s : State) : NextOrRefused (KeepsTurn s) (serve src e s) := by
  cases e with
  | request f bytes => exact runBytes_nextOrRefused f bytes s
  | line text =>
    rcases serve_text (h := ⟨src, .line text⟩) rfl s with ⟨r, more, hs, -⟩ | ⟨x, hs⟩
    · exact hs ▸ .next ⟨rfl, rfl⟩
    · exact hs ▸ .refused x
  | operation o => exact exec_nextOrRefused o.toInstr s
  | writeAns | bind | unbind => exact .next ⟨rfl, rfl⟩
  | reset => exact absurd rfl he

/-! ### A step of a free block (R168, R175; log 10) -/

/-- A block with nothing to serve has nothing that waits; what it serves is the first input of some source (log 10). -/
theorem nextHeld_cases (s : State) :
    (s.held = [] ∧ s.nextHeld = none) ∨ ∃ h ∈ firstOfEach s.held, s.nextHeld = some h := by
  unfold State.nextHeld
  split
  · next hfirst =>
    left
    cases hheld : s.held with
    | nil => exact ⟨rfl, rfl⟩
    | cons a l => simp [hheld, firstOfEach] at hfirst
  · next h hfirst => exact .inr ⟨h, by simp [hfirst], rfl⟩
  · next h rest _ hfirst =>
    have hlt : Config.pick s.tick % (rest.length + 1) < (h :: rest).length := Nat.mod_lt _ (by simp)
    refine .inr ⟨_, ?_, rfl⟩
    rw [hfirst, List.getD_eq_getElem _ _ hlt]
    exact List.getElem_mem hlt

theorem ev_ne_reset_of_noReset {s : State} {h : Held} (hreset : NoReset s) (hm : h ∈ firstOfEach s.held) : h.ev ≠ .reset := by
  simpa [Held.isReset] using List.find?_eq_none.1 hreset h hm

/-- A free block where no reset waits to be served at once has nothing to do, or serves the first input of some source. -/
theorem step_free_cases {s : State} (hreset : NoReset s) (hfree : s.owned = false) :
    (s.held = [] ∧ step s = .next s)
      ∨ ∃ h ∈ firstOfEach s.held, h.ev ≠ .reset ∧ step s = serve h.src h.ev (s.take h) := by
  unfold step
  rw [show s.resetNow = none from hreset, hfree]
  rcases nextHeld_cases s with ⟨hheld, hnext⟩ | ⟨h, hm, hnext⟩
  · exact .inl ⟨hheld, by rw [hnext]; rfl⟩
  · exact .inr ⟨h, hm, ev_ne_reset_of_noReset hreset hm, by rw [hnext]; rfl⟩

/-- The step of a free block touches no answer buffer but that of the requester whose turn it is then (R168; log 27). -/
theorem step_free_ansOf {s t : State} (hreset : NoReset s) (hfree : s.owned = false) (ht : step s = .next t) {g : Nat}
    (hg : g ≠ t.owner) : t.ansOf g = s.ansOf g := by
  rcases step_free_cases hreset hfree with ⟨-, hstep⟩ | ⟨h, -, hev, hstep⟩
  · cases hstep.symm.trans ht
    rfl
  · obtain ⟨howner, hanswers⟩ := (serve_nextOrRefused h.src hev (s.take h)).of_next (hstep ▸ ht)
    rw [ansOf_of_kept howner hanswers (howner ▸ hg), ansOf_take]

/-- Settles O51: which input a free block serves (`step_free_cases`), on whose answer buffer (`ansOf_turnTo`), and what that leaves
to the other requesters (`step_free_ansOf`). -/
theorem servesOneInput : Obligations.ServesOneInput := by
  intro s hreset hfree
  refine ⟨fun hheld => ?_, fun hheld => ?_, fun src => ⟨ansOf_turnTo s src, _, rfl⟩, fun _ ht _ => step_free_ansOf hreset hfree ht,
    fun _ _ => rfl, fun _ _ => rfl, fun _ => rfl⟩
  · rcases step_free_cases hreset hfree with ⟨-, hstep⟩ | ⟨h, hm, -⟩
    · exact hstep
    · simp [hheld, firstOfEach] at hm
  · rcases step_free_cases hreset hfree with ⟨hnone, -⟩ | ⟨h, hm, -, hstep⟩
    · exact absurd hnone hheld
    · obtain ⟨before, after, heq, hbefore⟩ := held_of_mem_firstOfEach hm
      have hdrop : dropFirst h.src s.held = before ++ after := heq ▸ dropFirst_append_cons hbefore after
      exact ⟨h, before, after, heq, hbefore, by rw [hstep, State.take, hdrop]; rfl⟩

/-! ### No fault (R171) -/

/-- Every input is answered or refused, the external reset too (R171, R175). -/
theorem safe_serve (src : Nat) (e : Event) (s : State) : Safe (serve src e s) := by
  by_cases he : e = .reset
  · subst he
    exact nofun
  · exact (serve_nextOrRefused src he s).safe

/-- An operation that waits in a poll loop has a next turn (R110). -/
theorem safe_resume {s : State} (hwait : s.seq.wait ≠ .idle) : Safe (resume s) := by
  obtain ⟨t, ht⟩ := conclude_next (pollThen (restOf s.seq.wait) s)
  rw [resume_eq hwait, ht]
  exact nofun

/-- Settles O55: a step serves an input, goes on with an operation, which waits in a poll loop by the invariant, or does nothing. -/
theorem noFaultUnderInv : Obligations.NoFaultUnderInv := by
  intro s hinv
  unfold step
  split
  · exact safe_serve _ _ _
  · split
    · next howned =>
      split
      · exact safe_serve _ _ _
      · obtain ⟨-, hwait, -⟩ := hinv.waiting (hinv.owned_eq_busy ▸ howned)
        exact safe_resume hwait
    · split
      · exact safe_serve _ _ _
      · exact nofun

end Sys2Proof.Machine
